-- ==== Sys2Proof/Word.lean ====
section
/-! DEFINITION. The words of the block: bytes, 16-bit pixels, one-bit levels and text (spec/00_scope.md R8, R9). -/

namespace Sys2Proof

/-- A byte, an unsigned integer 0..255 (R8). -/
abbrev Byte := BitVec 8

/-- An unsigned 16-bit pixel value or colour (R8, R61). -/
abbrev U16 := BitVec 16

/-- A line level: `false` is 0 and `true` is 1 (R8). Every level is electrical (R23). -/
abbrev Bit := Bool

/-- Text (a stage name, a device path, a chip identifier) as its bytes (R101; PRESUMED, log 12). -/
abbrev Text := List Byte

end Sys2Proof
end

