-- ==== Sys2Proof/Syntax.lean ====
section
/-! DEFINITION. The operations of the host interface (spec/30_encoding.md R100, R101): one constructor of `Instr` per row
of spec/opcode_table.json, and the operand types. -/

namespace Sys2Proof

/-- The four line roles (R22). -/
inductive Role where
  | dc | rst | busy | cs
deriving DecidableEq, Repr

/-- Direction of a line (R22, R101). -/
inductive Direction where
  | input | output
deriving DecidableEq, Repr

/-- Busy polarity (R34, R101): `activeHigh` means busy reads 1, `activeLow` that it reads 0. -/
inductive Polarity where
  | activeHigh | activeLow
deriving DecidableEq, Repr

/-- Pixel encodings (R97). -/
inductive Encoding where
  | mono1bpp | rgb565
deriving DecidableEq, Repr

/-- One requested line of LINE_ACQUIRE (`line_spec`, R101). -/
structure LineSpec where
  role : Role
  offset : Nat
  direction : Direction
  init : Bit
deriving DecidableEq, Repr

/-- A Command Entry (R93). `opcode` and `params` are natural numbers, not bytes, so that an entry that
is not well-formed exists and INIT_APPLY's check of it has a meaning (log 23). -/
structure Entry where
  opcode : Nat
  params : List Nat
  postDelay : Nat
  busyWait : Bool
deriving DecidableEq, Repr

/-- A Refresh Window, inclusive bounds (R98). -/
structure Window where
  x0 : Nat
  y0 : Nat
  x1 : Nat
  y1 : Nat
deriving DecidableEq, Repr

/-- A framebuffer record (R97). -/
structure Framebuffer where
  width : Nat
  height : Nat
  encoding : Encoding
  bytes : List Byte
deriving DecidableEq, Repr

/-- The operations of R100, in the table's order; the operands in the order of their rules. -/
inductive Instr where
  /-- LINE_ACQUIRE (R120) -/
  | lineAcquire (chip : Text) (specs : List LineSpec)
  /-- LINE_SET (R121) -/
  | lineSet (role : Role) (level : Bit)
  /-- LINE_GET (R122) -/
  | lineGet (role : Role)
  /-- LINE_RELEASE (R123) -/
  | lineRelease
  /-- SPI_OPEN (R124) -/
  | spiOpen (path : Text) (clockHz mode bitsPerWord : Nat)
  /-- SPI_WRITE (R125) -/
  | spiWrite (data : List Byte)
  /-- SPI_CLOSE (R126) -/
  | spiClose
  /-- DELAY (R127) -/
  | delay (d : Nat)
  /-- SEND_COMMAND (R150) -/
  | sendCommand (opcode : Byte)
  /-- SEND_DATA (R151) -/
  | sendData (data : List Byte)
  /-- WAIT_READY (R170) -/
  | waitReady (polarity : Polarity) (interval timeout : Nat) (stage : Text)
  /-- FB_CHECK (R190) -/
  | fbCheck (fb : Framebuffer)
  /-- ENCODE_MONO (R192); the predicate in its serial form, a `blackmap` (R101) -/
  | encodeMono (width height : Nat) (blackmap : List Byte)
  /-- DECODE_MONO (R194) -/
  | decodeMono (fb : Framebuffer)
  /-- ENCODE_RGB565 (R196) -/
  | encodeRgb565 (width height : Nat) (colors : List U16)
  /-- FILL_CHUNKS (R204) -/
  | fillChunks (color : U16) (count : Nat)
  /-- WINDOW_CHECK (R200) -/
  | windowCheck (width height : Nat) (win : Window)
  /-- INIT_APPLY (R230) -/
  | initApply (table : List Entry)
  /-- SESSION_OPEN (R232) -/
  | sessionOpen
  /-- INITIALIZE (R233) -/
  | initializePanel
  /-- REFRESH (R234) -/
  | refresh (old new : Framebuffer)
  /-- STREAM_PIXELS (R238) -/
  | streamPixels (win : Window) (pixels : List Byte)
  /-- STREAM_FILL (R239) -/
  | streamFill (win : Window) (color : U16)
  /-- SLEEP (R240) -/
  | sleep
  /-- TEARDOWN (R241) -/
  | teardown
deriving DecidableEq, Repr

end Sys2Proof
end

