-- ==== Sys2Proof/WellFormed.lean ====
section
/-! DEFINITION. Which operations a descriptor can spell: every operand in the range its serial form has
(spec/30_encoding.md R101). An operand out of its range cannot be named by a descriptor. -/

namespace Sys2Proof

/-- `n` fits a byte. -/
def fitsU8 (n : Nat) : Bool := decide (n < 256)
/-- `n` fits two bytes. -/
def fitsU16 (n : Nat) : Bool := decide (n < 65536)
/-- `n` fits four bytes: "values above 2^32 - 1 cannot be named by a descriptor" (R101). -/
def fitsU32 (n : Nat) : Bool := decide (n < 4294967296)

/-- A `string` has a 1-byte length (R101). -/
def Text.wf (t : Text) : Bool := fitsU8 t.length
/-- A `bytes` has a 4-byte length (R101). -/
def bytesWf (bs : List Byte) : Bool := fitsU32 bs.length

/-- A `line_spec` has a u32 offset (R101). -/
def LineSpec.wf (l : LineSpec) : Bool := fitsU32 l.offset

/-- A Command Entry is well-formed iff its opcode and every parameter are bytes (R93). -/
def Entry.wellFormed (e : Entry) : Bool := fitsU8 e.opcode && e.params.all fitsU8

/-- An `entry` that a descriptor can carry: well-formed (R93), a 4-byte parameter count and a u32 post-delay (R101). -/
def Entry.wf (e : Entry) : Bool := e.wellFormed && fitsU32 e.params.length && fitsU32 e.postDelay

/-- A `window` has four u16 (R101). -/
def Window.wf (w : Window) : Bool := fitsU16 w.x0 && fitsU16 w.y0 && fitsU16 w.x1 && fitsU16 w.y1

/-- A `framebuffer` has u16 dimensions and a `bytes` (R101). -/
def Framebuffer.wf (f : Framebuffer) : Bool := fitsU16 f.width && fitsU16 f.height && bytesWf f.bytes

/-- The operations a descriptor can spell (R101). -/
def Instr.wf : Instr → Bool
  | .lineAcquire chip specs => Text.wf chip && fitsU8 specs.length && specs.all LineSpec.wf
  | .lineSet _ _ => true
  | .lineGet _ => true
  | .lineRelease => true
  | .spiOpen path clockHz mode bits => Text.wf path && fitsU32 clockHz && fitsU8 mode && fitsU8 bits
  | .spiWrite data => bytesWf data
  | .spiClose => true
  | .delay d => fitsU32 d
  | .sendCommand _ => true
  | .sendData data => bytesWf data
  | .waitReady _ interval timeout stage => fitsU32 interval && fitsU32 timeout && Text.wf stage
  | .fbCheck fb => fb.wf
  | .encodeMono w h black => fitsU16 w && fitsU16 h && bytesWf black
  | .decodeMono fb => fb.wf
  | .encodeRgb565 w h colors => fitsU16 w && fitsU16 h && fitsU32 colors.length
  | .fillChunks _ count => fitsU32 count
  | .windowCheck w h win => fitsU16 w && fitsU16 h && win.wf
  | .initApply table => fitsU16 table.length && table.all Entry.wf
  | .sessionOpen => true
  | .initializePanel => true
  | .refresh old new => old.wf && new.wf
  | .streamPixels win pixels => win.wf && bytesWf pixels
  | .streamFill win _ => win.wf
  | .sleep => true
  | .teardown => true

end Sys2Proof
end

