-- ==== Sys2Proof/Decode.lean ====
section
/-! DEFINITION. Descriptors and operations (spec/30_encoding.md R100 to R103): the decoder, total on any bytes, and the
encoder, both written from the OPSEL table of R100 and the operand forms of R101.

The decoder reads one descriptor from the front of a byte sequence, left to right, and gives back the bytes that follow
it (R102; DEDUCED, log 13). It answers `none` for what R103 calls an invalid descriptor: a reserved OPSEL, a byte outside
its listed values, or too few bytes. -/

namespace Sys2Proof

/-! ## Reading operands (R101) -/

/-- One byte. -/
def getByte : List Byte → Option (Byte × List Byte)
  | [] => none
  | b :: r => some (b, r)

/-- `u8`: one byte as a number. -/
def getU8 : List Byte → Option (Nat × List Byte)
  | b :: r => some (b.toNat, r)
  | _ => none

/-- `u16`: two bytes, big-endian. -/
def getU16 : List Byte → Option (Nat × List Byte)
  | a :: b :: r => some (a.toNat * 256 + b.toNat, r)
  | _ => none

/-- `Nat` operands: four bytes, big-endian. -/
def getU32 : List Byte → Option (Nat × List Byte)
  | a :: b :: c :: d :: r => some (((a.toNat * 256 + b.toNat) * 256 + c.toNat) * 256 + d.toNat, r)
  | _ => none

/-- The next `n` bytes. -/
def getN (n : Nat) (bs : List Byte) : Option (List Byte × List Byte) :=
  if bs.length < n then none else some (bs.take n, bs.drop n)

/-- `n` items, each read by `p`. -/
def getMany {α : Type} (p : List Byte → Option (α × List Byte)) : Nat → List Byte → Option (List α × List Byte)
  | 0, bs => some ([], bs)
  | n + 1, bs =>
    match p bs with
    | none => none
    | some (a, r) =>
      match getMany p n r with
      | none => none
      | some (as, r') => some (a :: as, r')

/-- `Bit`, `Bool`: 0x00 or 0x01; any other value is invalid. -/
def getBit : List Byte → Option (Bool × List Byte)
  | b :: r => if b = 0#8 then some (false, r) else if b = 1#8 then some (true, r) else none
  | [] => none

/-- `bytes`: a 4-byte length, then the bytes. -/
def getBytes (bs : List Byte) : Option (List Byte × List Byte) := do
  let (n, r) ← getU32 bs
  getN n r

/-- `string`: a 1-byte length, then the bytes of the text. -/
def getText (bs : List Byte) : Option (Text × List Byte) := do
  let (n, r) ← getU8 bs
  getN n r

/-- `role`: DC = 0x00, RST = 0x01, BUSY = 0x02, CS = 0x03. -/
def getRole : List Byte → Option (Role × List Byte)
  | b :: r =>
    if b = 0#8 then some (.dc, r)
    else if b = 1#8 then some (.rst, r)
    else if b = 2#8 then some (.busy, r)
    else if b = 3#8 then some (.cs, r)
    else none
  | [] => none

/-- `direction`: In = 0x00, Out = 0x01. -/
def getDirection : List Byte → Option (Direction × List Byte)
  | b :: r => if b = 0#8 then some (.input, r) else if b = 1#8 then some (.output, r) else none
  | [] => none

/-- `polarity`: ActiveLow = 0x00, ActiveHigh = 0x01. -/
def getPolarity : List Byte → Option (Polarity × List Byte)
  | b :: r => if b = 0#8 then some (.activeLow, r) else if b = 1#8 then some (.activeHigh, r) else none
  | [] => none

/-- `encoding`: Mono1bpp = 0x01, Rgb565 = 0x10. -/
def getEncoding : List Byte → Option (Encoding × List Byte)
  | b :: r => if b = 0x01#8 then some (.mono1bpp, r) else if b = 0x10#8 then some (.rgb565, r) else none
  | [] => none

/-- `line_spec`: role, offset, direction, initial level. The level byte of an input line is ignored, but
it is a Bit and must be one (DEDUCED, log 14). -/
def getLineSpec (bs : List Byte) : Option (LineSpec × List Byte) := do
  let (role, r) ← getRole bs
  let (offset, r) ← getU32 r
  let (direction, r) ← getDirection r
  let (init, r) ← getBit r
  some (⟨role, offset, direction, init⟩, r)

/-- `line_specs`: a 1-byte count, then the specs. -/
def getLineSpecs (bs : List Byte) : Option (List LineSpec × List Byte) := do
  let (n, r) ← getU8 bs
  getMany getLineSpec n r

/-- `entry`: opcode, params, post_delay, busy_wait. -/
def getEntry (bs : List Byte) : Option (Entry × List Byte) := do
  let (opcode, r) ← getU8 bs
  let (params, r) ← getBytes r
  let (postDelay, r) ← getU32 r
  let (busyWait, r) ← getBit r
  some (⟨opcode, params.map BitVec.toNat, postDelay, busyWait⟩, r)

/-- `table`: a 2-byte count, then the entries. -/
def getTable (bs : List Byte) : Option (List Entry × List Byte) := do
  let (n, r) ← getU16 bs
  getMany getEntry n r

/-- `window`: x0, y0, x1, y1. -/
def getWindow (bs : List Byte) : Option (Window × List Byte) := do
  let (x0, r) ← getU16 bs
  let (y0, r) ← getU16 r
  let (x1, r) ← getU16 r
  let (y1, r) ← getU16 r
  some (⟨x0, y0, x1, y1⟩, r)

/-- `framebuffer`: width, height, encoding, bytes. -/
def getFramebuffer (bs : List Byte) : Option (Framebuffer × List Byte) := do
  let (width, r) ← getU16 bs
  let (height, r) ← getU16 r
  let (encoding, r) ← getEncoding r
  let (bytes, r) ← getBytes r
  some (⟨width, height, encoding, bytes⟩, r)

/-- A 16-bit colour. -/
def getColor : List Byte → Option (U16 × List Byte)
  | a :: b :: r => some (BitVec.ofNat 16 (a.toNat * 256 + b.toNat), r)
  | _ => none

/-- `colors`: a 4-byte count, then the colours. -/
def getColors (bs : List Byte) : Option (List U16 × List Byte) := do
  let (n, r) ← getU32 bs
  getMany getColor n r

/-! ## The decoder (R100, R102, R103) -/

/-- The operands that follow the OPSEL byte `op` (R100's table). -/
def decodeOperands (op : Nat) (bs : List Byte) : Option (Instr × List Byte) :=
  match op with
  | 0x01 => do
    let (chip, r) ← getText bs
    let (specs, r) ← getLineSpecs r
    some (.lineAcquire chip specs, r)
  | 0x02 => do
    let (role, r) ← getRole bs
    let (level, r) ← getBit r
    some (.lineSet role level, r)
  | 0x03 => do
    let (role, r) ← getRole bs
    some (.lineGet role, r)
  | 0x04 => some (.lineRelease, bs)
  | 0x05 => do
    let (path, r) ← getText bs
    let (clockHz, r) ← getU32 r
    let (mode, r) ← getU8 r
    let (bits, r) ← getU8 r
    some (.spiOpen path clockHz mode bits, r)
  | 0x06 => do
    let (data, r) ← getBytes bs
    some (.spiWrite data, r)
  | 0x07 => some (.spiClose, bs)
  | 0x08 => do
    let (d, r) ← getU32 bs
    some (.delay d, r)
  | 0x10 => do
    let (opcode, r) ← getByte bs
    some (.sendCommand opcode, r)
  | 0x11 => do
    let (data, r) ← getBytes bs
    some (.sendData data, r)
  | 0x18 => do
    let (polarity, r) ← getPolarity bs
    let (interval, r) ← getU32 r
    let (timeout, r) ← getU32 r
    let (stage, r) ← getText r
    some (.waitReady polarity interval timeout stage, r)
  | 0x20 => do
    let (fb, r) ← getFramebuffer bs
    some (.fbCheck fb, r)
  | 0x21 => do
    let (width, r) ← getU16 bs
    let (height, r) ← getU16 r
    let (black, r) ← getBytes r
    some (.encodeMono width height black, r)
  | 0x22 => do
    let (fb, r) ← getFramebuffer bs
    some (.decodeMono fb, r)
  | 0x23 => do
    let (width, r) ← getU16 bs
    let (height, r) ← getU16 r
    let (colors, r) ← getColors r
    some (.encodeRgb565 width height colors, r)
  | 0x24 => do
    let (color, r) ← getColor bs
    let (count, r) ← getU32 r
    some (.fillChunks color count, r)
  | 0x25 => do
    let (width, r) ← getU16 bs
    let (height, r) ← getU16 r
    let (win, r) ← getWindow r
    some (.windowCheck width height win, r)
  | 0x30 => do
    let (table, r) ← getTable bs
    some (.initApply table, r)
  | 0x31 => some (.sessionOpen, bs)
  | 0x32 => some (.initializePanel, bs)
  | 0x33 => do
    let (old, r) ← getFramebuffer bs
    let (new, r) ← getFramebuffer r
    some (.refresh old new, r)
  | 0x34 => do
    let (win, r) ← getWindow bs
    let (pixels, r) ← getBytes r
    some (.streamPixels win pixels, r)
  | 0x35 => do
    let (win, r) ← getWindow bs
    let (color, r) ← getColor r
    some (.streamFill win color, r)
  | 0x36 => some (.sleep, bs)
  | 0x37 => some (.teardown, bs)
  | _ => none

/-- The first descriptor of `bs` and the bytes after it; `none` is R103's invalid descriptor. -/
def decode : List Byte → Option (Instr × List Byte)
  | [] => none
  | op :: bs => decodeOperands op.toNat bs

/-! ## The encoder (R100, R101) -/

/-- A number as one byte. -/
def putU8 (n : Nat) : List Byte := [BitVec.ofNat 8 n]

/-- A number as two bytes, big-endian. -/
def putU16 (n : Nat) : List Byte := [BitVec.ofNat 8 (n / 256), BitVec.ofNat 8 n]

/-- A number as four bytes, big-endian. -/
def putU32 (n : Nat) : List Byte :=
  [BitVec.ofNat 8 (n / 16777216), BitVec.ofNat 8 (n / 65536), BitVec.ofNat 8 (n / 256), BitVec.ofNat 8 n]

/-- A Bit or Bool. -/
def putBit (b : Bool) : List Byte := [if b then 1#8 else 0#8]

/-- A byte sequence with its 4-byte length. -/
def putBytes (bs : List Byte) : List Byte := putU32 bs.length ++ bs

/-- A text with its 1-byte length. -/
def putText (t : Text) : List Byte := putU8 t.length ++ t

/-- The role byte. -/
def putRole : Role → List Byte
  | .dc => [0#8]
  | .rst => [1#8]
  | .busy => [2#8]
  | .cs => [3#8]

/-- The direction byte. -/
def putDirection : Direction → List Byte
  | .input => [0#8]
  | .output => [1#8]

/-- The polarity byte. -/
def putPolarity : Polarity → List Byte
  | .activeLow => [0#8]
  | .activeHigh => [1#8]

/-- The encoding byte. -/
def putEncoding : Encoding → List Byte
  | .mono1bpp => [0x01#8]
  | .rgb565 => [0x10#8]

/-- A `line_spec`. -/
def putLineSpec (l : LineSpec) : List Byte :=
  putRole l.role ++ (putU32 l.offset ++ (putDirection l.direction ++ putBit l.init))

/-- An `entry`. -/
def putEntry (e : Entry) : List Byte :=
  putU8 e.opcode ++ (putBytes (e.params.map (BitVec.ofNat 8)) ++ (putU32 e.postDelay ++ putBit e.busyWait))

/-- A `window`. -/
def putWindow (w : Window) : List Byte :=
  putU16 w.x0 ++ (putU16 w.y0 ++ (putU16 w.x1 ++ putU16 w.y1))

/-- A `framebuffer`. -/
def putFramebuffer (f : Framebuffer) : List Byte :=
  putU16 f.width ++ (putU16 f.height ++ (putEncoding f.encoding ++ putBytes f.bytes))

/-- A colour, high byte first. -/
def putColor (c : U16) : List Byte := putU16 c.toNat

/-- The OPSEL of an operation (R100). -/
def Instr.opsel : Instr → Nat
  | .lineAcquire _ _ => 0x01
  | .lineSet _ _ => 0x02
  | .lineGet _ => 0x03
  | .lineRelease => 0x04
  | .spiOpen _ _ _ _ => 0x05
  | .spiWrite _ => 0x06
  | .spiClose => 0x07
  | .delay _ => 0x08
  | .sendCommand _ => 0x10
  | .sendData _ => 0x11
  | .waitReady _ _ _ _ => 0x18
  | .fbCheck _ => 0x20
  | .encodeMono _ _ _ => 0x21
  | .decodeMono _ => 0x22
  | .encodeRgb565 _ _ _ => 0x23
  | .fillChunks _ _ => 0x24
  | .windowCheck _ _ _ => 0x25
  | .initApply _ => 0x30
  | .sessionOpen => 0x31
  | .initializePanel => 0x32
  | .refresh _ _ => 0x33
  | .streamPixels _ _ => 0x34
  | .streamFill _ _ => 0x35
  | .sleep => 0x36
  | .teardown => 0x37

/-- The operands of an operation, serialised in order (R101). -/
def encodeOperands : Instr → List Byte
  | .lineAcquire chip specs => putText chip ++ (putU8 specs.length ++ specs.flatMap putLineSpec)
  | .lineSet role level => putRole role ++ putBit level
  | .lineGet role => putRole role
  | .lineRelease => []
  | .spiOpen path clockHz mode bits => putText path ++ (putU32 clockHz ++ (putU8 mode ++ putU8 bits))
  | .spiWrite data => putBytes data
  | .spiClose => []
  | .delay d => putU32 d
  | .sendCommand opcode => [opcode]
  | .sendData data => putBytes data
  | .waitReady polarity interval timeout stage =>
    putPolarity polarity ++ (putU32 interval ++ (putU32 timeout ++ putText stage))
  | .fbCheck fb => putFramebuffer fb
  | .encodeMono width height black => putU16 width ++ (putU16 height ++ putBytes black)
  | .decodeMono fb => putFramebuffer fb
  | .encodeRgb565 width height colors =>
    putU16 width ++ (putU16 height ++ (putU32 colors.length ++ colors.flatMap putColor))
  | .fillChunks color count => putColor color ++ putU32 count
  | .windowCheck width height win => putU16 width ++ (putU16 height ++ putWindow win)
  | .initApply table => putU16 table.length ++ table.flatMap putEntry
  | .sessionOpen => []
  | .initializePanel => []
  | .refresh old new => putFramebuffer old ++ putFramebuffer new
  | .streamPixels win pixels => putWindow win ++ putBytes pixels
  | .streamFill win color => putWindow win ++ putColor color
  | .sleep => []
  | .teardown => []

/-- The descriptor of an operation: its OPSEL byte, then its operands (R100). -/
def encode (i : Instr) : List Byte := BitVec.ofNat 8 i.opsel :: encodeOperands i

/-! ## The pseudo-instruction `cmd` (R105) -/

/-- `cmd op, [p0, ..., pn-1]`: SEND_COMMAND, then SEND_DATA iff there are parameters. -/
def expandCmd (op : Byte) (params : List Byte) : List Instr :=
  if params.isEmpty then [.sendCommand op] else [.sendCommand op, .sendData params]

/-! ## Words of the opcode table -/

/-- The low `n` bytes of `w`, the least significant first (the table's numbering). -/
def lowBytes : Nat → Nat → List Byte
  | 0, _ => []
  | n + 1, w => BitVec.ofNat 8 w :: lowBytes n (w / 256)

/-- How many bytes of zeros follow the table's bits: more than any operation whose counts are all zero needs. -/
def zeroPadding : Nat := 64

/-- The bytes of a table word: its bits in whole bytes, then operand bytes of zeros. -/
def tableWordBytes (nbits w : Nat) : List Byte :=
  lowBytes (nbits / 8) w ++ List.replicate zeroPadding 0#8

/-- The instruction the decoder reads from a table word. -/
def decodeTableWord (nbits w : Nat) : Option Instr :=
  match decode (tableWordBytes nbits w) with
  | some (i, _) => some i
  | none => none

end Sys2Proof
end

