-- ==== Sys2Proof/Config.lean ====
section
/-! DEFINITION. What is fixed for a machine: the configuration record (spec/10_state.md R34), the build parameters
(spec/00_scope.md R7), the answers the environment gives where the host has scripted none (spec/10_state.md R37 to R41),
and the two configurations the spec writes out (spec/95_test_vectors.md). -/

namespace Sys2Proof

/-- MAX_DIM: the largest width or height (R7, 92 D19). -/
def maxDim : Nat := 65535

/-- `PANEL_KIND` (R34). -/
inductive PanelKind where
  | ePaper | tft
deriving DecidableEq, Repr

/-- `CS_MODE` (R34). -/
inductive CsMode where
  | none | perCall | perByte
deriving DecidableEq, Repr

/-- Bit order of the serial line (R26, R63). -/
inductive BitOrder where
  | msbFirst | lsbFirst
deriving DecidableEq, Repr

/-- `WINDOW_PARAM_FORMAT` (R99). -/
inductive WindowFormat where
  | be16Pair
deriving DecidableEq, Repr

/-- One step of `RESET_SEQUENCE` (R34, R231). -/
structure ResetStep where
  level : Bit
  hold : Nat
deriving DecidableEq, Repr

/-- The configuration record (R34). Fields that only one kind of panel uses are there for both (log 22). -/
structure Cfg where
  panelKind : PanelKind
  panelWidth : Nat
  panelHeight : Nat
  pixelEncoding : Encoding
  gpioChip : Text
  spiPath : Text
  offsetDc : Nat
  offsetRst : Nat
  offsetBusy : Nat
  offsetCs : Nat
  busyPresent : Bool
  csPresent : Bool
  csMode : CsMode
  csActiveLevel : Bit
  dcCmdLevel : Bit
  dcInitLevel : Bit
  rstInitLevel : Bit
  busyPolarity : Polarity
  pollInterval : Nat
  opTimeout : Nat
  spiClockHz : Nat
  spiMode : Nat
  spiBitsPerWord : Nat
  spiBitOrder : BitOrder
  resetSequence : List ResetStep
  initTable : List Entry
  oldDataCmd : Byte
  newDataCmd : Byte
  refreshCmd : Byte
  powerOffCmd : Byte
  deepSleepCmd : Byte
  deepSleepParams : List Byte
  winXCmd : Byte
  winYCmd : Byte
  ramWriteCmd : Option Byte
  windowParamFormat : WindowFormat
deriving DecidableEq, Repr

/-- `TIMING_MODEL` (R7, R38). -/
inductive TimingModel where
  | loose | exact
deriving DecidableEq, Repr

/-- The build parameters (R7). `maxWriteBytes = none` is unbounded. -/
structure Build where
  timing : TimingModel
  chunkPixels : Nat
  maxWriteBytes : Option Nat
  firstPollDelay : Nat
deriving DecidableEq, Repr

/-! ## Free values: the environment's answers where none is scripted (log 5)

Each is an arbitrary value per draw; the argument is the number of the draw. Nothing can be proved of them. -/

/-- Whether the GPIO chip opens (R41). -/
opaque Config.freeChipOpens : Nat → Bool
/-- Whether an offset is owned elsewhere (R41). -/
opaque Config.freeOffsetOwned : Nat → Bool
/-- Whether the SPI device opens (R41). -/
opaque Config.freeDeviceOpens : Nat → Bool
/-- Whether the SPI device accepts the configuration (R41). -/
opaque Config.freeDeviceAccepts : Nat → Bool
/-- The level a poll of the busy line reads (R39). -/
opaque Config.freeBusyLevel : Nat → Bit
/-- The outcome of a transport write: `none` is Ok, `some k` is Fail(k) (R40). -/
opaque Config.freeWriteFailure : Nat → Option Nat
/-- Time that passed beyond the delays since the last reading, under `Loose` (R38; log 8). -/
opaque Config.freeSlack : Nat → Nat
/-- The level of a line after its release (R24, R44; log 16). -/
opaque Config.freeReleasedLevel : Nat → Bit

/-! ## The configurations of 95_test_vectors.md -/

/-- "gpiochip0" -/
def gpiochip0 : Text := [0x67, 0x70, 0x69, 0x6F, 0x63, 0x68, 0x69, 0x70, 0x30]

/-- "/dev/spidev0.0" -/
def spidev00 : Text := [0x2F, 0x64, 0x65, 0x76, 0x2F, 0x73, 0x70, 0x69, 0x64, 0x65, 0x76, 0x30, 0x2E, 0x30]

/-- Configuration E (e-paper) of 95_test_vectors.md; its unlisted fields are 0 (log 1). -/
def configE : Cfg where
  panelKind := .ePaper
  panelWidth := 8
  panelHeight := 32
  pixelEncoding := .mono1bpp
  gpioChip := gpiochip0
  spiPath := spidev00
  offsetDc := 25
  offsetRst := 17
  offsetBusy := 24
  offsetCs := 0
  busyPresent := true
  csPresent := false
  csMode := .none
  csActiveLevel := false
  dcCmdLevel := false
  dcInitLevel := true
  rstInitLevel := true
  busyPolarity := .activeLow
  pollInterval := 10000
  opTimeout := 5000000
  spiClockHz := 4000000
  spiMode := 0
  spiBitsPerWord := 8
  spiBitOrder := .msbFirst
  resetSequence := [⟨true, 10000⟩, ⟨false, 10000⟩, ⟨true, 10000⟩]
  initTable := [⟨0x01, [0x03, 0x00], 0, false⟩, ⟨0x06, [0x17], 0, false⟩, ⟨0x04, [], 0, true⟩]
  oldDataCmd := 0x10
  newDataCmd := 0x13
  refreshCmd := 0x12
  powerOffCmd := 0x02
  deepSleepCmd := 0x07
  deepSleepParams := [0xA5]
  winXCmd := 0
  winYCmd := 0
  ramWriteCmd := none
  windowParamFormat := .be16Pair

/-- Configuration T (TFT) of 95_test_vectors.md; its unlisted fields are 0. -/
def configT : Cfg where
  panelKind := .tft
  panelWidth := 4
  panelHeight := 2
  pixelEncoding := .rgb565
  gpioChip := gpiochip0
  spiPath := spidev00
  offsetDc := 25
  offsetRst := 27
  offsetBusy := 0
  offsetCs := 8
  busyPresent := false
  csPresent := true
  csMode := .perCall
  csActiveLevel := false
  dcCmdLevel := false
  dcInitLevel := true
  rstInitLevel := true
  busyPolarity := .activeLow
  pollInterval := 10000
  opTimeout := 5000000
  spiClockHz := 32000000
  spiMode := 0
  spiBitsPerWord := 8
  spiBitOrder := .msbFirst
  resetSequence := [⟨true, 1000⟩, ⟨false, 10000⟩, ⟨true, 120000⟩]
  initTable := [⟨0x11, [], 5000, false⟩, ⟨0x29, [], 0, false⟩]
  oldDataCmd := 0
  newDataCmd := 0
  refreshCmd := 0
  powerOffCmd := 0x28
  deepSleepCmd := 0x10
  deepSleepParams := []
  winXCmd := 0x2A
  winYCmd := 0x2B
  ramWriteCmd := some 0x2C
  windowParamFormat := .be16Pair

/-- The build parameters 95_test_vectors.md uses: Exact timing, chunks of 3 pixels, unbounded writes, no first-poll delay. -/
def build95 : Build where
  timing := .exact
  chunkPixels := 3
  maxWriteBytes := none
  firstPollDelay := 0

end Sys2Proof
end

