-- ==== Sys2Proof/Machine/Layout.lean ====
section
/-! DEFINITION. What the configuration fixes of each line (spec/10_state.md R22, R23), and which configurations and build
parameters are legal (spec/10_state.md R34, spec/00_scope.md R7). -/

namespace Sys2Proof.Machine

open Sys2Proof

/-- The direction a role has: BUSY is an input, the others are outputs (R22). -/
def fixedDirection : Role → Direction
  | .busy => .input
  | .dc | .rst | .cs => .output

/-- Whether the configuration has the line (R22). -/
def rolePresent (c : Cfg) : Role → Bool
  | .dc | .rst => true
  | .busy => c.busyPresent
  | .cs => c.csPresent

/-- The GPIO offset the configuration gives a role (R34). -/
def cfgOffset (c : Cfg) : Role → Nat
  | .dc => c.offsetDc
  | .rst => c.offsetRst
  | .busy => c.offsetBusy
  | .cs => c.offsetCs

/-- The level a busy line reads while the panel is busy (R171). -/
def busyLevel : Polarity → Bit
  | .activeHigh => true
  | .activeLow => false

/-- The level at which a line is said to be asserted (R23). -/
def activeLevel (c : Cfg) : Role → Bit
  | .dc => c.dcCmdLevel
  | .rst => false
  | .busy => busyLevel c.busyPolarity
  | .cs => c.csActiveLevel

/-- The legality conditions of R34's table; only these (log 21). That DC_INIT_LEVEL, RST_INIT_LEVEL, CS_ACTIVE_LEVEL and
DC_CMD_LEVEL may be any Bit, as R34 types them, where R7 gives each one value, is the model's choice (DESIGN CHOICE, log 32). -/
def cfgLegal (c : Cfg) : Bool :=
  decide (1 ≤ c.panelWidth) && decide (c.panelWidth ≤ maxDim) &&
  decide (1 ≤ c.panelHeight) && decide (c.panelHeight ≤ maxDim) &&
  (decide (c.pixelEncoding ≠ .mono1bpp) || decide (c.panelWidth % 8 = 0)) &&
  decide (c.pixelEncoding = (match c.panelKind with | .ePaper => .mono1bpp | .tft => .rgb565)) &&
  (c.busyPresent == decide (c.panelKind = .ePaper)) &&
  (c.csPresent || decide (c.csMode = .none)) &&
  decide (1 ≤ c.pollInterval) &&
  decide (1 ≤ c.spiClockHz) &&
  decide (c.spiMode ≤ 3) &&
  decide (c.spiBitsPerWord = 8) &&
  decide (c.spiBitOrder = .msbFirst) &&
  !c.resetSequence.isEmpty &&
  (decide (c.panelKind ≠ .ePaper) || decide (c.deepSleepParams.length = 1))

/-- The legal build parameters (R7): at least one pixel a chunk, a write limit that is even and at least 2. -/
def buildLegal (b : Build) : Bool :=
  decide (1 ≤ b.chunkPixels) &&
  (match b.maxWriteBytes with
   | none => true
   | some m => decide (2 ≤ m) && decide (m % 2 = 0))

end Sys2Proof.Machine
end

