-- ==== Sys2Proof/Machine/State.lean ====
section
/-! DEFINITION. The state of the block (spec/10_state.md R20 to R35), its error records (spec/60_exceptions.md R270,
R271), its events (R35), the environment's answers (R37 to R41), and the state at creation (spec/70_reset_and_hazards.md
R300). -/

namespace Sys2Proof.Machine

open Sys2Proof

/-- `phase` (R21). -/
inductive Phase where
  | uninitialized | reset | initialized | refreshing | streaming | sleeping | closed
deriving DecidableEq, Repr

/-- The error kinds (R270). -/
inductive ErrKind where
  | resourceError | ioError | timeoutError | configError
deriving DecidableEq, Repr

/-- `info` of an error value (R271). -/
structure ErrInfo where
  reason : Byte
  role : Option Role := none
  offset : Option Nat := none
  written : Option Nat := none
  stage : Option Text := none
  polls : Option Nat := none
  entry : Option Nat := none
deriving DecidableEq, Repr

/-- An error value (R271): kind, numeric code and info. -/
structure ErrRec where
  kind : ErrKind
  code : Nat
  info : ErrInfo
deriving DecidableEq, Repr

/-- The event alphabet of the trace (R35). -/
inductive Event where
  /-- a line was granted; `level` is absent for an input line -/
  | acquire (role : Role) (offset : Nat) (direction : Direction) (level : Option Bit)
  /-- a line was given back -/
  | release (role : Role)
  /-- an output line was driven -/
  | lineSet (role : Role) (level : Bit)
  /-- an input line was sampled -/
  | lineGet (role : Role) (level : Bit)
  /-- the transport was opened and configured -/
  | opened (path : Text) (clockHz mode bitsPerWord : Nat) (bitOrder : BitOrder)
  /-- the transport was closed -/
  | closed
  /-- bytes reached the wire; `complete` is false when the write failed after them -/
  | spiWrite (bytes : List Byte) (complete : Bool)
  /-- the block waited -/
  | delay (d : Nat)
  /-- an error was delivered -/
  | error (e : ErrRec)
deriving DecidableEq, Repr

/-- A line record (R23). -/
structure Line where
  acquired : Bool
  offset : Nat
  direction : Direction
  activeLevel : Bit
  level : Bit
deriving DecidableEq, Repr

/-- `lines`: a record per role (R22, R23). -/
structure Lines where
  dc : Line
  rst : Line
  busy : Line
  cs : Line
deriving DecidableEq, Repr

/-- `transport` (R26). -/
structure Transport where
  isOpen : Bool
  path : Text
  clockHz : Nat
  mode : Nat
  bitsPerWord : Nat
  bitOrder : BitOrder
deriving DecidableEq, Repr

/-- A drawn outcome of a transport write (R40). -/
inductive WriteAnswer where
  | ok
  | fail (k : Nat)
deriving DecidableEq, Repr

/-- The environment (R37 to R41; log 5): the coming answers of each kind of draw, oldest first. When a list
is empty the answer is the free value of Config that `drawn` numbers. `clock` is R38's time floor. -/
structure Env where
  chipOpens : List Bool
  offsetOwned : List Bool
  deviceOpens : List Bool
  deviceAccepts : List Bool
  busy : List Bit
  writes : List WriteAnswer
  slack : List Nat
  released : List Bit
  drawn : Nat
  clock : Nat
deriving DecidableEq, Repr

/-- What an operation returns to the host (R5, R33): a value or an error. -/
inductive Result where
  | ok
  | level (v : Bit)
  | ready (polls : Nat)
  | count (n : Nat)
  | frame (fb : Framebuffer)
  | blackmap (bytes : List Byte)
  | chunks (cs : List (List Byte))
  | error (e : ErrRec)
deriving DecidableEq, Repr

/-- No fault stops this machine: an error of the block is delivered and is a next state (R276). -/
inductive Fault where
deriving DecidableEq, Repr

/-- Where the model gives a step no meaning (R279). All are safe: nothing is claimed of a refused run. -/
inductive Refusal where
  /-- Raised by exec's arm of an operation that has no meaning yet; safe. -/
  | notModelled (mnemonic : String)
  /-- Raised by step for bytes that spell no operation (R103); safe. -/
  | invalidDescriptor
  /-- Raised by SPI_WRITE and SEND_DATA of no bytes (R125, R151); safe. -/
  | emptyTransfer
  /-- Raised by any operation but TEARDOWN on a closed block (R277); safe. -/
  | noSession
deriving DecidableEq, Repr

/-- The state of the block (R20) and the model's own fields. -/
structure State where
  /-- R21 -/
  phase : Phase
  /-- R27 -/
  poisoned : Bool
  /-- R28 -/
  lastError : Option ErrRec
  /-- R22, R23 -/
  lines : Lines
  /-- R26 -/
  transport : Transport
  /-- POLL_COUNT, R29 -/
  pollCount : Nat
  /-- ENTRY_INDEX, R30 -/
  entryIndex : Nat
  /-- STREAM_REMAINING, R31 -/
  streamRemaining : Nat
  /-- R35, oldest event first -/
  trace : List Event
  /-- R34 -/
  cfg : Cfg
  /-- the model's: the build parameters of R7 (log 2) -/
  build : Build
  /-- the model's: the answers of the draws of R37 (log 5) -/
  env : Env
  /-- the model's: the descriptor bytes the host has issued and the block has not taken (log 9) -/
  input : List Byte
  /-- the model's: what the latest operation returned (log 11) -/
  result : Option Result
deriving DecidableEq, Repr

/-- One step's outcome. -/
abbrev Out := Host.Outcome State Fault Refusal

/-- A line record at creation (R300); its level is unspecified there (DESIGN CHOICE 0, log 3). -/
def createdLine (c : Cfg) (r : Role) : Line where
  acquired := false
  offset := cfgOffset c r
  direction := fixedDirection r
  activeLevel := Machine.activeLevel c r
  level := false

/-- The environment with nothing scripted. -/
def Env.unscripted : Env where
  chipOpens := []
  offsetOwned := []
  deviceOpens := []
  deviceAccepts := []
  busy := []
  writes := []
  slack := []
  released := []
  drawn := 0
  clock := 0

/-- The state at creation for a supplied configuration (R300). The transport's unspecified fields hold the
values of log 4. -/
def State.created (c : Cfg) (b : Build) : State where
  phase := .uninitialized
  poisoned := false
  lastError := none
  lines := ⟨createdLine c .dc, createdLine c .rst, createdLine c .busy, createdLine c .cs⟩
  transport := ⟨false, [], 0, 0, 0, .msbFirst⟩
  pollCount := 0
  entryIndex := 0
  streamRemaining := 0
  trace := []
  cfg := c
  build := b
  env := .unscripted
  input := []
  result := none

/-- Creation is the block's reset (R300). The configuration and the build parameters are "as supplied"; here
they are those of 95_test_vectors.md (DESIGN CHOICE, log 1 and 2). -/
def State.reset : State := .created configE build95

end Sys2Proof.Machine
end

