-- ==== Sys2Proof/Machine/Flags.lean ====
section
/-! DEFINITION. The block has no condition codes (spec/10_state.md R33); its status computations are the error values
(spec/60_exceptions.md R270 to R273): kind codes, reason codes and the error record of each reason. -/

namespace Sys2Proof.Machine

open Sys2Proof

/-- The numeric code of an error kind (R270). -/
def kindCode : ErrKind → Nat
  | .resourceError => 1
  | .ioError => 2
  | .timeoutError => 3
  | .configError => 4

/-- An error value of a kind (R271). -/
def errOf (k : ErrKind) (info : ErrInfo) : ErrRec := ⟨k, kindCode k, info⟩

/-! ## One error value per reason (R273) -/

/-- ResourceError(ChipOpen) -/
def errChipOpen : ErrRec := errOf .resourceError { reason := 1 }
/-- ResourceError(OffsetBusy, offset) -/
def errOffsetBusy (o : Nat) : ErrRec := errOf .resourceError { reason := 2, offset := some o }
/-- ResourceError(DuplicateLine, role) -/
def errDuplicateLine (r : Role) : ErrRec := errOf .resourceError { reason := 3, role := some r }
/-- ResourceError(InvalidRole, role) -/
def errInvalidRole (r : Role) : ErrRec := errOf .resourceError { reason := 4, role := some r }
/-- ResourceError(AlreadyOwned, role) -/
def errAlreadyOwned (r : Role) : ErrRec := errOf .resourceError { reason := 5, role := some r }
/-- ResourceError(NotAcquired, role) -/
def errNotAcquired (r : Role) : ErrRec := errOf .resourceError { reason := 6, role := some r }
/-- ResourceError(WrongDirection, role) -/
def errWrongDirection (r : Role) : ErrRec := errOf .resourceError { reason := 7, role := some r }
/-- IoError(Open) -/
def errOpen : ErrRec := errOf .ioError { reason := 1 }
/-- IoError(Configure) -/
def errConfigure : ErrRec := errOf .ioError { reason := 2 }
/-- IoError(ShortWrite, k) -/
def errShortWrite (k : Nat) : ErrRec := errOf .ioError { reason := 3, written := some k }
/-- IoError(NotOpen) -/
def errNotOpen : ErrRec := errOf .ioError { reason := 4 }
/-- TimeoutError(stage, polls) -/
def errTimeout (stage : Text) (polls : Nat) : ErrRec :=
  errOf .timeoutError { reason := 1, stage := some stage, polls := some polls }
/-- ConfigError(MalformedEntry) -/
def errMalformedEntry : ErrRec := errOf .configError { reason := 1 }
/-- ConfigError(SizeMismatch) -/
def errSizeMismatch : ErrRec := errOf .configError { reason := 2 }
/-- ConfigError(WindowOutOfBounds) -/
def errWindowOutOfBounds : ErrRec := errOf .configError { reason := 3 }
/-- ConfigError(InvalidState) -/
def errInvalidState : ErrRec := errOf .configError { reason := 4 }
/-- ConfigError(WrongPanelKind) -/
def errWrongPanelKind : ErrRec := errOf .configError { reason := 5 }
/-- ConfigError(UnsupportedWidth) -/
def errUnsupportedWidth : ErrRec := errOf .configError { reason := 6 }
/-- ConfigError(WrongEncoding) -/
def errWrongEncoding : ErrRec := errOf .configError { reason := 7 }
/-- ConfigError(BadParameter) -/
def errBadParameter : ErrRec := errOf .configError { reason := 8 }

/-- An error with an Init Table index attached; its kind and reason are unchanged (R230, R274). -/
def withEntry (i : Nat) (e : ErrRec) : ErrRec := { e with info := { e.info with entry := some i } }

/-! ## Stage names (R272), as ASCII bytes (log 12) -/

/-- "init" -/
def stageInit : Text := [0x69, 0x6E, 0x69, 0x74]
/-- "refresh" -/
def stageRefresh : Text := [0x72, 0x65, 0x66, 0x72, 0x65, 0x73, 0x68]
/-- "power_off" -/
def stagePowerOff : Text := [0x70, 0x6F, 0x77, 0x65, 0x72, 0x5F, 0x6F, 0x66, 0x66]

/-- Whether an error raised in state `s` by an operation that started in `s₀` poisons the block: iff the operation
had appended an event (R276; log 20). -/
def poisons (s₀ s : State) : Bool := decide (s₀.trace.length < s.trace.length)

end Sys2Proof.Machine
end

