-- ==== Sys2Proof/Machine/Operands.lean ====
section
/-! DEFINITION. The data the operations take and make: byte and bit order (spec/20_memory.md R61 to R64), framebuffers
(spec/30_encoding.md R95 to R97), Refresh Windows (R98, R99), the encoders and the fill chunks
(spec/43_framebuffer.md R190 to R204). All are functions of their operands; a failed check is the error it raises. -/

namespace Sys2Proof.Machine

open Sys2Proof

/-- `ceil(a / b)` (R8). -/
def ceilDiv (a b : Nat) : Nat := (a + b - 1) / b

/-- `p[15:8]` (R61). -/
def hiByte (p : U16) : Byte := p.extractLsb' 8 8

/-- `p[7:0]` (R61). -/
def loByte (p : U16) : Byte := p.extractLsb' 0 8

/-- A 16-bit value as two bytes, high byte first (R61, R64). -/
def be16 (p : U16) : List Byte := [hiByte p, loByte p]

/-- A Command Entry is well-formed iff its opcode and every parameter are bytes (R93). -/
def entryWellFormed (e : Entry) : Bool :=
  decide (e.opcode < 256) && e.params.all fun p => decide (p < 256)

/-! ## Framebuffers (R97, R190) -/

/-- Bits per pixel (R97). -/
def bpp : Encoding → Nat
  | .mono1bpp => 1
  | .rgb565 => 16

/-- The length a framebuffer must have (R97). -/
def requiredLength (width height : Nat) (e : Encoding) : Nat := ceilDiv (width * height * bpp e) 8

/-- Dimensions outside 1..MAX_DIM (R190, R192, R196). -/
def dimsOutside (width height : Nat) : Bool :=
  decide (width < 1) || decide (height < 1) || decide (maxDim < width) || decide (maxDim < height)

/-- `fb_check(fb)` (R190). -/
def fbCheck (fb : Framebuffer) : Except ErrRec Unit :=
  if dimsOutside fb.width fb.height then .error errSizeMismatch
  else if fb.encoding = .mono1bpp ∧ fb.width % 8 ≠ 0 then .error errUnsupportedWidth
  else if fb.bytes.length ≠ requiredLength fb.width fb.height fb.encoding then .error errSizeMismatch
  else .ok ()

/-! ## Mono1bpp (R95, R192, R194) -/

/-- The caller's predicate read from its serial form: byte `r*width + c` non-zero iff pixel (r, c) is black (R101). -/
def blackAt (width : Nat) (blackmap : List Byte) (r c : Nat) : Bool :=
  decide (blackmap.getD (r * width + c) 0 ≠ 0)

/-- Byte `k` of the packed image (R192's closed form): bit `7 - j` is 0 for a black pixel `8k + j`. -/
def monoByte (width : Nat) (black : Nat → Nat → Bool) (k : Nat) : Byte :=
  BitVec.ofNat 8 (([0, 1, 2, 3, 4, 5, 6, 7].map fun j =>
    if black ((8 * k + j) / width) ((8 * k + j) % width) then 0 else 2 ^ (7 - j)).sum)

/-- The packed image of a predicate (R192). -/
def packMono (width height : Nat) (black : Nat → Nat → Bool) : Framebuffer :=
  ⟨width, height, .mono1bpp, (List.range (width * height / 8)).map (monoByte width black)⟩

/-- `encode_mono(width, height, black)` with the predicate in serial form (R192). -/
def encodeMono (width height : Nat) (blackmap : List Byte) : Except ErrRec Framebuffer :=
  if dimsOutside width height then .error errSizeMismatch
  else if width % 8 ≠ 0 then .error errUnsupportedWidth
  else if blackmap.length ≠ width * height then .error errSizeMismatch
  else .ok (packMono width height (blackAt width blackmap))

/-- Bit index `i` of a packed image: bit `7 - (i % 8)` of byte `i / 8` (R62). -/
def imageBit (bytes : List Byte) (i : Nat) : Bit := (bytes.getD (i / 8) 0).getLsbD (7 - i % 8)

/-- The blackmap of a packed image, 0x01 for black and 0x00 for white (R194). -/
def unpackMono (fb : Framebuffer) : List Byte :=
  (List.range (fb.width * fb.height)).map fun i => if imageBit fb.bytes i then 0x00 else 0x01

/-- `decode_mono(fb)` (R194). -/
def decodeMono (fb : Framebuffer) : Except ErrRec (List Byte) :=
  match fbCheck fb with
  | .error e => .error e
  | .ok _ => if fb.encoding ≠ .mono1bpp then .error errWrongEncoding else .ok (unpackMono fb)

/-! ## Rgb565 (R96, R196, R197) -/

/-- Pixels serialised high byte first (R61). -/
def rgbBytes (colors : List U16) : List Byte := colors.flatMap be16

/-- `encode_rgb565(width, height, colors)` (R196). -/
def encodeRgb565 (width height : Nat) (colors : List U16) : Except ErrRec Framebuffer :=
  if dimsOutside width height then .error errSizeMismatch
  else if colors.length ≠ width * height then .error errSizeMismatch
  else .ok ⟨width, height, .rgb565, rgbBytes colors⟩

/-- `pack565(r, g, b)` for `r < 32`, `g < 64`, `b < 32` (R197): a helper of the caller, no operation uses it. -/
def pack565 (r g b : Nat) : U16 := BitVec.ofNat 16 (r * 2048 + g * 32 + b)

/-! ## Refresh Windows (R98, R99, R198 to R200) -/

/-- `window_valid(win, width, height)` (R198). -/
def windowValid (w : Window) (width height : Nat) : Bool :=
  decide (w.x0 ≤ w.x1) && decide (w.x1 < width) && decide (w.y0 ≤ w.y1) && decide (w.y1 < height)

/-- The pixel count of a window (R98). -/
def windowCount (w : Window) : Nat := (w.x1 - w.x0 + 1) * (w.y1 - w.y0 + 1)

/-- `window_check(width, height, win)` (R200). -/
def windowCheck (width height : Nat) (w : Window) : Except ErrRec Nat :=
  if windowValid w width height then .ok (windowCount w) else .error errWindowOutOfBounds

/-- The pixel (x, y) that stream pixel `j` of a window is (R199). -/
def windowPixel (w : Window) (j : Nat) : Nat × Nat :=
  (w.x0 + j % (w.x1 - w.x0 + 1), w.y0 + j / (w.x1 - w.x0 + 1))

/-- The four parameter bytes of a window command, `BE16Pair` (R99). -/
def windowParams : WindowFormat → Nat → Nat → List Byte
  | .be16Pair, a, b => be16 (BitVec.ofNat 16 a) ++ be16 (BitVec.ofNat 16 b)

/-! ## Fill chunks (R202, R204) -/

/-- `chunk(p)` of `n` pixels (R202). -/
def chunk (n : Nat) (p : U16) : List Byte := (List.replicate n (be16 p)).flatten

/-- `fill_chunks(color, count)` with CHUNK_PIXELS = `c` (R204). -/
def fillChunks (c : Nat) (color : U16) (count : Nat) : List (List Byte) :=
  List.replicate (count / c) (chunk c color) ++
    (if count % c > 0 then [(chunk c color).take (2 * (count % c))] else [])

/-- Consecutive pieces of at most `m` bytes (R237); `fuel` bounds how many, and the length is enough. -/
def splitFuel (m : Nat) : Nat → List Byte → List (List Byte)
  | 0, _ => []
  | n + 1, bs => if bs.length ≤ m then [bs] else bs.take m :: splitFuel m n (bs.drop m)

/-- `split(ch, MAX_WRITE_BYTES)` (R237): the bytes whole where the limit is unbounded. -/
def splitPieces (limit : Option Nat) (bs : List Byte) : List (List Byte) :=
  match limit with
  | none => [bs]
  | some m => splitFuel m bs.length bs

end Sys2Proof.Machine
end

