-- ==== Sys2Proof/Machine/Ops.lean ====
section
/-! DEFINITION. The named operations over the registers, the trace and the environment (spec/10_state.md R35 to R41),
error delivery, admission and refusal (spec/60_exceptions.md R276 to R279), and the internal forms of the line, transport,
framer and busy-wait operations (spec/00_scope.md R11), which the meanings and the composite operations call. -/

namespace Sys2Proof.Machine

open Sys2Proof

/-! ## Updates of one field -/

/-- Appends an event to the trace (R10, R35). -/
def State.emit (s : State) (e : Event) : State := { s with trace := s.trace ++ [e] }
/-- Writes `phase` (R21). -/
def State.setPhase (s : State) (p : Phase) : State := { s with phase := p }
/-- Writes `transport` (R26). -/
def State.setTransport (s : State) (t : Transport) : State := { s with transport := t }
/-- Writes POLL_COUNT (R29). -/
def State.setPollCount (s : State) (n : Nat) : State := { s with pollCount := n }
/-- Writes ENTRY_INDEX (R30). -/
def State.setEntryIndex (s : State) (n : Nat) : State := { s with entryIndex := n }
/-- Writes STREAM_REMAINING (R31). -/
def State.setRemaining (s : State) (n : Nat) : State := { s with streamRemaining := n }
/-- Records the environment after a draw or a delay. -/
def State.setEnv (s : State) (e : Env) : State := { s with env := e }
/-- Records what the operation returns. -/
def State.setResult (s : State) (r : Result) : State := { s with result := some r }
/-- Writes `lines` (R23). -/
def State.setLines (s : State) (l : Lines) : State := { s with lines := l }

/-- The record of a role (R23). -/
def Lines.get (l : Lines) : Role → Line
  | .dc => l.dc
  | .rst => l.rst
  | .busy => l.busy
  | .cs => l.cs

/-- The lines with one role's record replaced. -/
def Lines.set (l : Lines) (r : Role) (x : Line) : Lines :=
  match r with
  | .dc => { l with dc := x }
  | .rst => { l with rst := x }
  | .busy => { l with busy := x }
  | .cs => { l with cs := x }

/-- `x[lines][role]` (R10). -/
def State.line (s : State) (r : Role) : Line := s.lines.get r
/-- `x[lines][role] <- x` (R10). -/
def State.setLine (s : State) (r : Role) (x : Line) : State := s.setLines (s.lines.set r x)

/-! ## Results of an internal form -/

/-- What an internal form ends in: a value, or a raised error (R10); each with the state it leaves. -/
inductive Res (α : Type) where
  | ok (a : α) (s : State)
  | err (e : ErrRec) (s : State)
deriving Repr

/-- What follows happens only if nothing was raised (R10: "nothing after a `raise` in the same operation happens"). -/
def Res.bind {α β : Type} (r : Res α) (f : α → State → Res β) : Res β :=
  match r with
  | .ok a s => f a s
  | .err e s => .err e s

/-- The value of an internal form, changed. -/
def Res.map {α β : Type} (f : α → β) (r : Res α) : Res β := r.bind fun a s => .ok (f a) s

/-- Attaches to an error on its way out (R230). -/
def Res.mapErr {α : Type} (f : ErrRec → ErrRec) : Res α → Res α
  | .ok a s => .ok a s
  | .err e s => .err (f e) s

/-- A check or a computation on operands, in a state it does not touch. -/
def Res.ofExcept {α : Type} (s : State) : Except ErrRec α → Res α
  | .ok a => .ok a s
  | .error e => .err e s

/-! ## Environment draws (R37 to R41; log 5) -/

/-- The answer of a draw and the answers still to come: the oldest scripted one, else the free value. -/
def pick {α : Type} (script : List α) (free : Nat → α) (n : Nat) : α × List α :=
  match script with
  | [] => (free n, [])
  | a :: rest => (a, rest)

/-- `chip_opens(chip)` (R120, R41): no law ties the answer to the chip. -/
def drawChipOpens (s : State) : Bool × State :=
  let p := pick s.env.chipOpens Config.freeChipOpens s.env.drawn
  (p.1, s.setEnv { s.env with chipOpens := p.2, drawn := s.env.drawn + 1 })

/-- `owned_elsewhere(chip, offset)` (R120, R41). -/
def drawOffsetOwned (s : State) : Bool × State :=
  let p := pick s.env.offsetOwned Config.freeOffsetOwned s.env.drawn
  (p.1, s.setEnv { s.env with offsetOwned := p.2, drawn := s.env.drawn + 1 })

/-- `device_opens(path)` (R124, R41). -/
def drawDeviceOpens (s : State) : Bool × State :=
  let p := pick s.env.deviceOpens Config.freeDeviceOpens s.env.drawn
  (p.1, s.setEnv { s.env with deviceOpens := p.2, drawn := s.env.drawn + 1 })

/-- `device_accepts(path, clock_hz, mode, bits_per_word)` (R124, R41). -/
def drawDeviceAccepts (s : State) : Bool × State :=
  let p := pick s.env.deviceAccepts Config.freeDeviceAccepts s.env.drawn
  (p.1, s.setEnv { s.env with deviceAccepts := p.2, drawn := s.env.drawn + 1 })

/-- The busy oracle (R39). -/
def drawBusy (s : State) : Bit × State :=
  let p := pick s.env.busy Config.freeBusyLevel s.env.drawn
  (p.1, s.setEnv { s.env with busy := p.2, drawn := s.env.drawn + 1 })

/-- The level of a line that is being released: any value (R24, R44; log 16). -/
def drawReleasedLevel (s : State) : Bit × State :=
  let p := pick s.env.released Config.freeReleasedLevel s.env.drawn
  (p.1, s.setEnv { s.env with released := p.2, drawn := s.env.drawn + 1 })

/-- The free answer of the transport oracle as an answer. -/
def freeWrite (n : Nat) : WriteAnswer :=
  match Config.freeWriteFailure n with
  | none => .ok
  | some k => .fail k

/-- The transport oracle (R40). -/
def drawWrite (s : State) : WriteAnswer × State :=
  let p := pick s.env.writes freeWrite s.env.drawn
  (p.1, s.setEnv { s.env with writes := p.2, drawn := s.env.drawn + 1 })

/-- `Now()` (R38): under Exact the clock as the delays left it; under Loose any time not before it (log 8). -/
def now (s : State) : Nat × State :=
  match s.build.timing with
  | .exact => (s.env.clock, s)
  | .loose =>
    let p := pick s.env.slack Config.freeSlack s.env.drawn
    (s.env.clock + p.1,
      s.setEnv { s.env with slack := p.2, drawn := s.env.drawn + 1, clock := s.env.clock + p.1 })

/-! ## Environment actions (R37) -/

/-- `Delay(d)` (R37, R38): the event, and the clock moves by `d`. -/
def delay (d : Nat) (s : State) : State :=
  (s.emit (.delay d)).setEnv { s.env with clock := s.env.clock + d }

/-- The bytes of a failed write that reached the wire: the drawn `k`, read as the largest legal one where it is
not below the length (R40: `0 <= k < n`; log 6). -/
def failedCount (k n : Nat) : Nat := min k (n - 1)

/-! ## Error delivery (R276), admission (R277) -/

/-- Delivers error `e`, raised in state `s` by an operation that started in `s₀` (R276): writes last_error, poisons
iff the operation had appended an event, appends the Error event, returns the record to the host. Nothing else changes. -/
def deliver (s₀ s : State) (e : ErrRec) : State :=
  { s with
    lastError := some e
    poisoned := s.poisoned || poisons s₀ s
    trace := s.trace ++ [.error e]
    result := some (.error e) }

/-- The end of an operation that started in `s₀`: its value is returned, or its error is delivered (R10, R276). -/
def conclude (s₀ : State) : Res Result → State
  | .ok v s => s.setResult v
  | .err e s => deliver s₀ s e

/-- The admission gate (R277) of an operation other than TEARDOWN, before what the operation does. -/
def admitted (adm : Phase → Bool) (s : State) (run : Out) : Out :=
  if s.phase = .closed then .refused .noSession
  else if s.poisoned || !adm s.phase then .next (deliver s s errInvalidState)
  else run

/-- Admission: `Uninitialized` only (R120, R124, R232). -/
def inUninitialized (p : Phase) : Bool := decide (p = .uninitialized)
/-- Admission: `Reset` only (R233). -/
def inReset (p : Phase) : Bool := decide (p = .reset)
/-- Admission: `Initialized` only (R234, R238, R239, R240). -/
def inInitialized (p : Phase) : Bool := decide (p = .initialized)
/-- Admission: `Uninitialized`, `Reset`, `Initialized` (R121, R122, R125, R127, R150, R151, R170, R230). -/
def inWorking (p : Phase) : Bool :=
  decide (p = .uninitialized) || decide (p = .reset) || decide (p = .initialized)
/-- Admission: every phase except `Closed` (R123, R126, 43_framebuffer.md). That LINE_RELEASE and SPI_CLOSE are therefore
admitted in `Sleeping`, of which R240, R290 and C12 speak as admitting TEARDOWN only, is the model's choice between the
rules (DEDUCED, log 31). -/
def notClosed (p : Phase) : Bool := decide (p ≠ .closed)

/-! ## Lines (R120 to R123), internal forms -/

/-- The role of the first spec that shares its role or its offset with a later one (R120). That the earliest such spec is
the one reported, where several pairs clash, is the model's choice (DEDUCED, log 30). -/
def duplicateRole : List LineSpec → Option Role
  | [] => none
  | s :: rest =>
    if rest.any (fun t => decide (s.role = t.role) || decide (s.offset = t.offset)) then some s.role
    else duplicateRole rest

/-- The first check of R120 that one spec fails. -/
def specError (s : State) (sp : LineSpec) : Option ErrRec :=
  if sp.direction ≠ fixedDirection sp.role then some (errInvalidRole sp.role)
  else if !rolePresent s.cfg sp.role then some (errInvalidRole sp.role)
  else if (s.line sp.role).acquired then some (errAlreadyOwned sp.role)
  else none

/-- The first failing check of a list of specs, in list order (R120). -/
def specsError (s : State) : List LineSpec → Option ErrRec
  | [] => none
  | sp :: rest =>
    match specError s sp with
    | some e => some e
    | none => specsError s rest

/-- The ownership draws of R120, in order, up to the first offset owned elsewhere (log 28). -/
def drawOwnership : List LineSpec → State → Res Unit
  | [], s => .ok () s
  | sp :: rest, s =>
    let d := drawOffsetOwned s
    if d.1 then .err (errOffsetBusy sp.offset) d.2 else drawOwnership rest d.2

/-- Grants one line (R120); BUSY's level field too gets the initial level (log 15). -/
def grantLine (sp : LineSpec) (s : State) : State :=
  (s.setLine sp.role ⟨true, sp.offset, sp.direction, activeLevel s.cfg sp.role, sp.init⟩).emit
    (.acquire sp.role sp.offset sp.direction (if sp.direction = .output then some sp.init else none))

/-- Grants the lines in order (R120). -/
def grantLines : List LineSpec → State → State
  | [], s => s
  | sp :: rest, s => grantLines rest (grantLine sp s)

/-- `line_acquire(chip, specs)` (R120): every check and draw comes before the first grant. That an empty `specs` too draws
whether the chip opens, and raises ChipOpen where it does not, is the model's choice (DEDUCED, log 29). -/
def lineAcquire (_chip : Text) (specs : List LineSpec) (s : State) : Res Unit :=
  match duplicateRole specs with
  | some r => .err (errDuplicateLine r) s
  | none =>
    match specsError s specs with
    | some e => .err e s
    | none =>
      let d := drawChipOpens s
      if !d.1 then .err errChipOpen d.2
      else (drawOwnership specs d.2).bind fun _ s => .ok () (grantLines specs s)

/-- `line_set(role, level)` (R121). -/
def lineSet (r : Role) (level : Bit) (s : State) : Res Unit :=
  let l := s.line r
  if !l.acquired then .err (errNotAcquired r) s
  else if l.direction ≠ .output then .err (errWrongDirection r) s
  else .ok () ((s.setLine r { l with level := level }).emit (.lineSet r level))

/-- `line_get(role)` (R122). -/
def lineGet (r : Role) (s : State) : Res Bit :=
  let l := s.line r
  if !l.acquired then .err (errNotAcquired r) s
  else if l.direction ≠ .input then .err (errWrongDirection r) s
  else
    let d := drawBusy s
    .ok d.1 (d.2.emit (.lineGet r d.1))

/-- Gives one line back if it is held (R123); its level is then any value (R44; log 16). -/
def releaseLine (r : Role) (s : State) : State :=
  let l := s.line r
  if l.acquired then
    let d := drawReleasedLevel s
    (d.2.setLine r { l with acquired := false, level := d.1 }).emit (.release r)
  else s

/-- `line_release()` (R123), in the order DC, RST, BUSY, CS. -/
def lineRelease (s : State) : State :=
  releaseLine .cs (releaseLine .busy (releaseLine .rst (releaseLine .dc s)))

/-! ## Transport (R124 to R126), internal forms -/

/-- `spi_open(path, clock_hz, mode, bits_per_word)` (R124). That device_accepts is not drawn where `mode`, `bits` or `clockHz`
is illegal already is the model's choice (DEDUCED, log 38). -/
def spiOpen (path : Text) (clockHz mode bits : Nat) (s : State) : Res Unit :=
  if s.transport.isOpen then .err errInvalidState s
  else
    let d := drawDeviceOpens s
    if !d.1 then .err errOpen d.2
    else if mode > 3 ∨ bits ≠ 8 ∨ clockHz = 0 then .err errConfigure d.2
    else
      let a := drawDeviceAccepts d.2
      if !a.1 then .err errConfigure a.2
      else .ok () ((a.2.setTransport ⟨true, path, clockHz, mode, bits, a.2.cfg.spiBitOrder⟩).emit
        (.opened path clockHz mode bits a.2.cfg.spiBitOrder))

/-- `spi_write(data)` (R125, R40) of one byte or more. R125's refusal of an empty transfer is made where the host
issues one (SPI_WRITE, SEND_DATA): no composite operation writes no bytes (log 17). -/
def spiWrite (data : List Byte) (s : State) : Res Unit :=
  if !s.transport.isOpen then .err errNotOpen s
  else
    let d := drawWrite s
    match d.1 with
    | .ok => .ok () (d.2.emit (.spiWrite data true))
    | .fail k =>
      .err (errShortWrite (failedCount k data.length))
        (d.2.emit (.spiWrite (data.take (failedCount k data.length)) false))

/-- `spi_close()` (R126). -/
def spiClose (s : State) : State :=
  if s.transport.isOpen then (s.setTransport { s.transport with isOpen := false }).emit .closed else s

/-! ## Command framer (R150 to R152), internal forms -/

/-- The `PerByte` loop of R152: CS around each byte, DC set once, before the first. -/
def framedBytes (a dcl : Bit) : Bool → List Byte → State → Res Unit
  | _, [], s => .ok () s
  | first, b :: rest, s =>
    (lineSet .cs a s).bind fun _ s =>
    (if first then lineSet .dc dcl s else .ok () s).bind fun _ s =>
    (spiWrite [b] s).bind fun _ s =>
    (lineSet .cs (!a) s).bind fun _ s =>
    framedBytes a dcl false rest s

/-- `framed_write(dcl, data)` (R152). -/
def framedWrite (dcl : Bit) (data : List Byte) (s : State) : Res Unit :=
  let a := s.cfg.csActiveLevel
  match s.cfg.csMode with
  | .none =>
    (lineSet .dc dcl s).bind fun _ s => spiWrite data s
  | .perCall =>
    (lineSet .cs a s).bind fun _ s =>
    (lineSet .dc dcl s).bind fun _ s =>
    (spiWrite data s).bind fun _ s =>
    lineSet .cs (!a) s
  | .perByte => framedBytes a dcl true data s

/-- `send_command(opcode)` (R150). -/
def sendCommand (opcode : Byte) (s : State) : Res Unit := framedWrite s.cfg.dcCmdLevel [opcode] s

/-- `send_data(data)` (R151) of one byte or more. -/
def sendData (data : List Byte) (s : State) : Res Unit := framedWrite (!s.cfg.dcCmdLevel) data s

/-! ## Busy synchronizer (R170), internal form -/

/-- The poll loop of R170. `fuel` bounds the polls; `pollFuel` is never used up, because every delay moves the
clock by at least `interval` (R174; log 19). -/
def pollLoop (busy : Bit) (interval timeout : Nat) (stage : Text) (t0 : Nat) : Nat → State → Res Nat
  | 0, s => .err (errTimeout stage s.pollCount) s
  | fuel + 1, s =>
    (lineGet .busy s).bind fun v s =>
      let s := s.setPollCount (s.pollCount + 1)
      if v ≠ busy then .ok s.pollCount s
      else
        let t := now s
        if t.1 - t0 ≥ timeout then .err (errTimeout stage t.2.pollCount) t.2
        else pollLoop busy interval timeout stage t0 fuel (delay interval t.2)

/-- At least the number of polls a wait can take: `ceil(timeout / interval) + 1` (R174). -/
def pollFuel (interval timeout : Nat) : Nat := timeout / interval + 2

/-- The delay before the first poll, if the build has one (R170, R312). -/
def firstPollDelay (s : State) : State :=
  if s.build.firstPollDelay > 0 then delay s.build.firstPollDelay s else s

/-- `wait_ready(polarity, interval, timeout, stage)` (R170). -/
def waitReady (polarity : Polarity) (interval timeout : Nat) (stage : Text) (s : State) : Res Nat :=
  if interval = 0 then .err errBadParameter s
  else
    let t := now (s.setPollCount 0)
    pollLoop (busyLevel polarity) interval timeout stage t.1 (pollFuel interval timeout) (firstPollDelay t.2)

/-- The busy-wait of the composite operations: the configured polarity, interval and timeout (R230, R234, R240). -/
def waitConfigured (stage : Text) (s : State) : Res Nat :=
  waitReady s.cfg.busyPolarity s.cfg.pollInterval s.cfg.opTimeout stage s

end Sys2Proof.Machine
end

