-- ==== Sys2Proof/Machine/BusySync.lean ====
section
/-! DEFINITION. The meaning of the busy synchronizer's operation (spec/42_busy_sync.md R170). -/

namespace Sys2Proof.Machine

open Sys2Proof

/-- WAIT_READY (R170). -/
def execWaitReady (polarity : Polarity) (interval timeout : Nat) (stage : Text) (s : State) : Out :=
  admitted inWorking s (.next (conclude s ((waitReady polarity interval timeout stage s).map .ready)))

end Sys2Proof.Machine
end

