-- ==== Sys2Proof/Machine/Framer.lean ====
section
/-! DEFINITION. The meanings of the command framer's operations (spec/41_command_framer.md R150, R151). -/

namespace Sys2Proof.Machine

open Sys2Proof

/-- SEND_COMMAND (R150). -/
def execSendCommand (opcode : Byte) (s : State) : Out :=
  admitted inWorking s (.next (conclude s ((sendCommand opcode s).map fun _ => .ok)))

/-- SEND_DATA (R151): no bytes is refused, after the gate (R280). -/
def execSendData (data : List Byte) (s : State) : Out :=
  admitted inWorking s
    (if data.isEmpty then .refused .emptyTransfer
     else .next (conclude s ((sendData data s).map fun _ => .ok)))

end Sys2Proof.Machine
end

