-- ==== Sys2Proof/Machine/Lines.lean ====
section
/-! DEFINITION. The meanings of the line set operations (spec/40_lines_transport.md R120 to R123). -/

namespace Sys2Proof.Machine

open Sys2Proof

/-- LINE_ACQUIRE (R120). -/
def execLineAcquire (chip : Text) (specs : List LineSpec) (s : State) : Out :=
  admitted inUninitialized s (.next (conclude s ((lineAcquire chip specs s).map fun _ => .ok)))

/-- LINE_SET (R121). -/
def execLineSet (role : Role) (level : Bit) (s : State) : Out :=
  admitted inWorking s (.next (conclude s ((lineSet role level s).map fun _ => .ok)))

/-- LINE_GET (R122). -/
def execLineGet (role : Role) (s : State) : Out :=
  admitted inWorking s (.next (conclude s ((lineGet role s).map .level)))

/-- LINE_RELEASE (R123). -/
def execLineRelease (s : State) : Out :=
  admitted notClosed s (.next (conclude s (.ok .ok (lineRelease s))))

end Sys2Proof.Machine
end

