-- ==== Sys2Proof/Machine/Packer.lean ====
section
/-! DEFINITION. The meanings of the bit-packer's operations (spec/43_framebuffer.md R190 to R204): they read their
operands and return a value, append no event of their own and write no register. -/

namespace Sys2Proof.Machine

open Sys2Proof

/-- FB_CHECK (R190). -/
def execFbCheck (fb : Framebuffer) (s : State) : Out :=
  admitted notClosed s (.next (conclude s ((Res.ofExcept s (fbCheck fb)).map fun _ => .ok)))

/-- ENCODE_MONO (R192). -/
def execEncodeMono (width height : Nat) (blackmap : List Byte) (s : State) : Out :=
  admitted notClosed s (.next (conclude s ((Res.ofExcept s (encodeMono width height blackmap)).map .frame)))

/-- DECODE_MONO (R194). -/
def execDecodeMono (fb : Framebuffer) (s : State) : Out :=
  admitted notClosed s (.next (conclude s ((Res.ofExcept s (decodeMono fb)).map .blackmap)))

/-- ENCODE_RGB565 (R196). -/
def execEncodeRgb565 (width height : Nat) (colors : List U16) (s : State) : Out :=
  admitted notClosed s (.next (conclude s ((Res.ofExcept s (encodeRgb565 width height colors)).map .frame)))

/-- FILL_CHUNKS (R204). -/
def execFillChunks (color : U16) (count : Nat) (s : State) : Out :=
  admitted notClosed s (.next (conclude s (.ok (.chunks (fillChunks s.build.chunkPixels color count)) s)))

/-- WINDOW_CHECK (R200). -/
def execWindowCheck (width height : Nat) (win : Window) (s : State) : Out :=
  admitted notClosed s (.next (conclude s ((Res.ofExcept s (windowCheck width height win)).map .count)))

end Sys2Proof.Machine
end

