-- ==== Sys2Proof/Machine/Sequencer.lean ====
section
/-! DEFINITION. The init sequencer and the panel state machine (spec/44_sequencer.md R230 to R241): each composite
operation as its expansion into internal forms (R106), and the meanings. -/

namespace Sys2Proof.Machine

open Sys2Proof

/-! ## Init tables (R230) -/

/-- One entry of the replay (R230), its errors not yet marked with its index. -/
def applyEntry (e : Entry) (s : State) : Res Unit :=
  if !entryWellFormed e then .err errMalformedEntry s
  else
    (sendCommand (BitVec.ofNat 8 e.opcode) s).bind fun _ s =>
    (if e.params.length > 0 then sendData (e.params.map (BitVec.ofNat 8)) s else .ok () s).bind fun _ s =>
    (if e.busyWait then (waitConfigured stageInit s).map fun _ => () else .ok () s).bind fun _ s =>
    .ok () (delay e.postDelay s)

/-- The entries from number `i` on, in order; an error carries the number of the entry that raised it (R230, R236). -/
def applyEntries : Nat → List Entry → State → Res Unit
  | _, [], s => .ok () s
  | i, e :: rest, s =>
    ((applyEntry e (s.setEntryIndex i)).mapErr (withEntry i)).bind fun _ s => applyEntries (i + 1) rest s

/-- `apply_table(table)` (R230). -/
def applyTable (table : List Entry) (s : State) : Res Unit :=
  (applyEntries 1 table s).bind fun _ s => .ok () (s.setEntryIndex 0)

/-! ## Sessions (R231 to R233) -/

/-- The steps of a reset sequence (R231). -/
def resetSteps : List ResetStep → State → Res Unit
  | [], s => .ok () s
  | st :: rest, s => (lineSet .rst st.level s).bind fun _ s => resetSteps rest (delay st.hold s)

/-- `reset_pulse()` (R231). -/
def resetPulse (s : State) : Res Unit := resetSteps s.cfg.resetSequence s

/-- The lines SESSION_OPEN acquires, in the order DC, RST, BUSY, CS (R232). -/
def sessionSpecs (c : Cfg) : List LineSpec :=
  [⟨.dc, c.offsetDc, .output, c.dcInitLevel⟩, ⟨.rst, c.offsetRst, .output, c.rstInitLevel⟩] ++
    (if c.busyPresent then [⟨.busy, c.offsetBusy, .input, false⟩] else []) ++
    (if c.csPresent then [⟨.cs, c.offsetCs, .output, !c.csActiveLevel⟩] else [])

/-- `session_open()` (R232). -/
def sessionOpen (s : State) : Res Unit :=
  let c := s.cfg
  (lineAcquire c.gpioChip (sessionSpecs c) s).bind fun _ s =>
  (spiOpen c.spiPath c.spiClockHz c.spiMode c.spiBitsPerWord s).bind fun _ s =>
  (resetPulse s).bind fun _ s =>
  .ok () (s.setPhase .reset)

/-- `initialize()` (R233). -/
def initializePanel (s : State) : Res Unit :=
  (applyTable s.cfg.initTable s).bind fun _ s => .ok () (s.setPhase .initialized)

/-! ## E-paper refresh (R234) -/

/-- The checks of one frame of a REFRESH (R234). -/
def frameCheck (c : Cfg) (f : Framebuffer) : Except ErrRec Unit :=
  match fbCheck f with
  | .error e => .error e
  | .ok _ =>
    if f.encoding ≠ c.pixelEncoding ∨ f.width ≠ c.panelWidth ∨ f.height ≠ c.panelHeight then
      .error errSizeMismatch
    else .ok ()

/-- `refresh(old, new)` (R234). The phase is written before the first event (log 18). -/
def refresh (old new : Framebuffer) (s : State) : Res Unit :=
  let c := s.cfg
  if c.panelKind ≠ .ePaper then .err errWrongPanelKind s
  else
    (Res.ofExcept s (frameCheck c old)).bind fun _ s =>
    (Res.ofExcept s (frameCheck c new)).bind fun _ s =>
    (sendCommand c.oldDataCmd (s.setPhase .refreshing)).bind fun _ s =>
    (sendData old.bytes s).bind fun _ s =>
    (sendCommand c.newDataCmd s).bind fun _ s =>
    (sendData new.bytes s).bind fun _ s =>
    (sendCommand c.refreshCmd s).bind fun _ s =>
    (waitConfigured stageRefresh s).bind fun _ s =>
    .ok () (s.setPhase .initialized)

/-! ## TFT streams (R235, R237 to R239) -/

/-- `window_set(win)` (R235, R99). -/
def windowSet (win : Window) (s : State) : Res Unit :=
  let c := s.cfg
  (sendCommand c.winXCmd s).bind fun _ s =>
  (sendData (windowParams c.windowParamFormat win.x0 win.x1) s).bind fun _ s =>
  (sendCommand c.winYCmd s).bind fun _ s =>
  (sendData (windowParams c.windowParamFormat win.y0 win.y1) s).bind fun _ s =>
  match c.ramWriteCmd with
  | some w => sendCommand w s
  | none => .ok () s

/-- The transport writes of a stream, with STREAM_REMAINING counted down after each (R237). -/
def writePieces : List (List Byte) → State → Res Unit
  | [], s => .ok () s
  | p :: rest, s =>
    (spiWrite p s).bind fun _ s => writePieces rest (s.setRemaining (s.streamRemaining - p.length / 2))

/-- Drives CS where the configuration's CS mode is not `None` (R237). -/
def streamCs (level : Bit) (s : State) : Res Unit :=
  if s.cfg.csMode ≠ .none then lineSet .cs level s else .ok () s

/-- `stream_body(chunks, n)` (R237). -/
def streamBody (chunks : List (List Byte)) (n : Nat) (s : State) : Res Unit :=
  let c := s.cfg
  (streamCs c.csActiveLevel (s.setRemaining n)).bind fun _ s =>
  (lineSet .dc (!c.dcCmdLevel) s).bind fun _ s =>
  (writePieces (chunks.flatMap (splitPieces s.build.maxWriteBytes)) s).bind fun _ s =>
  streamCs (!c.csActiveLevel) s

/-- `stream_pixels(win, pixels)` (R238). -/
def streamPixels (win : Window) (pixels : List Byte) (s : State) : Res Unit :=
  let c := s.cfg
  if c.panelKind ≠ .tft then .err errWrongPanelKind s
  else
    (Res.ofExcept s (windowCheck c.panelWidth c.panelHeight win)).bind fun n s =>
    if pixels.length ≠ 2 * n then .err errSizeMismatch s
    else
      (windowSet win (s.setPhase .streaming)).bind fun _ s =>
      (streamBody [pixels] n s).bind fun _ s =>
      .ok () (s.setPhase .initialized)

/-- `stream_fill(win, color)` (R239). -/
def streamFill (win : Window) (color : U16) (s : State) : Res Unit :=
  let c := s.cfg
  if c.panelKind ≠ .tft then .err errWrongPanelKind s
  else
    (Res.ofExcept s (windowCheck c.panelWidth c.panelHeight win)).bind fun n s =>
    (windowSet win (s.setPhase .streaming)).bind fun _ s =>
    (streamBody (fillChunks s.build.chunkPixels color n) n s).bind fun _ s =>
    .ok () (s.setPhase .initialized)

/-! ## Sleep and teardown (R240, R241) -/

/-- `sleep()` (R240). -/
def sleep (s : State) : Res Unit :=
  let c := s.cfg
  (sendCommand c.powerOffCmd s).bind fun _ s =>
  (if c.busyPresent then (waitConfigured stagePowerOff s).map fun _ => () else .ok () s).bind fun _ s =>
  (sendCommand c.deepSleepCmd s).bind fun _ s =>
  (if c.deepSleepParams.length > 0 then sendData c.deepSleepParams s else .ok () s).bind fun _ s =>
  .ok () (s.setPhase .sleeping)

/-- `teardown()` (R241). -/
def teardown (s : State) : State :=
  if s.phase = .closed then s else (spiClose (lineRelease s)).setPhase .closed

/-! ## Meanings -/

/-- INIT_APPLY (R230). -/
def execInitApply (table : List Entry) (s : State) : Out :=
  admitted inWorking s (.next (conclude s ((applyTable table s).map fun _ => .ok)))

/-- SESSION_OPEN (R232). -/
def execSessionOpen (s : State) : Out :=
  admitted inUninitialized s (.next (conclude s ((sessionOpen s).map fun _ => .ok)))

/-- INITIALIZE (R233). -/
def execInitializePanel (s : State) : Out :=
  admitted inReset s (.next (conclude s ((initializePanel s).map fun _ => .ok)))

/-- REFRESH (R234). -/
def execRefresh (old new : Framebuffer) (s : State) : Out :=
  admitted inInitialized s (.next (conclude s ((refresh old new s).map fun _ => .ok)))

/-- STREAM_PIXELS (R238). -/
def execStreamPixels (win : Window) (pixels : List Byte) (s : State) : Out :=
  admitted inInitialized s (.next (conclude s ((streamPixels win pixels s).map fun _ => .ok)))

/-- STREAM_FILL (R239). -/
def execStreamFill (win : Window) (color : U16) (s : State) : Out :=
  admitted inInitialized s (.next (conclude s ((streamFill win color s).map fun _ => .ok)))

/-- SLEEP (R240). -/
def execSleep (s : State) : Out :=
  admitted inInitialized s (.next (conclude s ((sleep s).map fun _ => .ok)))

/-- TEARDOWN (R241): admitted in every phase, poisoned or not (R277). -/
def execTeardown (s : State) : Out :=
  .next (conclude s (.ok .ok (teardown s)))

end Sys2Proof.Machine
end

