-- ==== Sys2Proof/Machine/Transport.lean ====
section
/-! DEFINITION. The meanings of the transport operations and of DELAY (spec/40_lines_transport.md R124 to R127). -/

namespace Sys2Proof.Machine

open Sys2Proof

/-- SPI_OPEN (R124). -/
def execSpiOpen (path : Text) (clockHz mode bits : Nat) (s : State) : Out :=
  admitted inUninitialized s (.next (conclude s ((spiOpen path clockHz mode bits s).map fun _ => .ok)))

/-- SPI_WRITE (R125): no bytes is refused, after the gate (R280). -/
def execSpiWrite (data : List Byte) (s : State) : Out :=
  admitted inWorking s
    (if data.isEmpty then .refused .emptyTransfer
     else .next (conclude s ((spiWrite data s).map fun _ => .ok)))

/-- SPI_CLOSE (R126). -/
def execSpiClose (s : State) : Out :=
  admitted notClosed s (.next (conclude s (.ok .ok (spiClose s))))

/-- DELAY (R127). -/
def execDelay (d : Nat) (s : State) : Out :=
  admitted inWorking s (.next (conclude s (.ok .ok (delay d s))))

end Sys2Proof.Machine
end

