-- ==== Sys2Proof/Machine/Dispatch.lean ====
section
/-! DEFINITION. One arm per operation of spec/opcode_table.json. -/

namespace Sys2Proof.Machine

open Sys2Proof

def exec (i : Instr) (s : State) : Host.Outcome State Fault Refusal :=
  match i with
  | .lineAcquire chip specs => Sys2Proof.Machine.execLineAcquire chip specs s
  | .lineSet role level => Sys2Proof.Machine.execLineSet role level s
  | .lineGet role => Sys2Proof.Machine.execLineGet role s
  | .lineRelease => Sys2Proof.Machine.execLineRelease s
  | .spiOpen path clockHz mode bits => Sys2Proof.Machine.execSpiOpen path clockHz mode bits s
  | .spiWrite data => Sys2Proof.Machine.execSpiWrite data s
  | .spiClose => Sys2Proof.Machine.execSpiClose s
  | .delay d => Sys2Proof.Machine.execDelay d s
  | .sendCommand opcode => Sys2Proof.Machine.execSendCommand opcode s
  | .sendData data => Sys2Proof.Machine.execSendData data s
  | .waitReady polarity interval timeout stage => Sys2Proof.Machine.execWaitReady polarity interval timeout stage s
  | .fbCheck fb => Sys2Proof.Machine.execFbCheck fb s
  | .encodeMono width height blackmap => Sys2Proof.Machine.execEncodeMono width height blackmap s
  | .decodeMono fb => Sys2Proof.Machine.execDecodeMono fb s
  | .encodeRgb565 width height colors => Sys2Proof.Machine.execEncodeRgb565 width height colors s
  | .fillChunks color count => Sys2Proof.Machine.execFillChunks color count s
  | .windowCheck width height win => Sys2Proof.Machine.execWindowCheck width height win s
  | .initApply table => Sys2Proof.Machine.execInitApply table s
  | .sessionOpen => Sys2Proof.Machine.execSessionOpen s
  | .initializePanel => Sys2Proof.Machine.execInitializePanel s
  | .refresh old new => Sys2Proof.Machine.execRefresh old new s
  | .streamPixels win pixels => Sys2Proof.Machine.execStreamPixels win pixels s
  | .streamFill win color => Sys2Proof.Machine.execStreamFill win color s
  | .sleep => Sys2Proof.Machine.execSleep s
  | .teardown => Sys2Proof.Machine.execTeardown s

end Sys2Proof.Machine
end

