-- ==== Sys2Proof/Machine/Fetch.lean ====
section
/-! DEFINITION. How the block takes the next descriptor from the bytes the host has issued (spec/30_encoding.md R100, R102). -/

namespace Sys2Proof.Machine

open Sys2Proof

/-- The state without the bytes of the descriptor it takes. -/
def State.setInput (s : State) (bs : List Byte) : State := { s with input := bs }

/-- The operation the host has issued and the state after it is taken: `none` where the bytes spell none (R103). -/
def fetch (s : State) : Option (Instr × State) :=
  match decode s.input with
  | none => none
  | some (i, rest) => some (i, s.setInput rest)

/-- The bytes a table word stands for, issued by the host. -/
def issueWord (s : State) (nbits w : Nat) : State := s.setInput (tableWordBytes nbits w)

end Sys2Proof.Machine
end

