-- ==== Sys2Proof/Machine/Step.lean ====
section
/-! DEFINITION. One step: one host operation (spec/00_scope.md R5). -/

namespace Sys2Proof.Machine

open Sys2Proof

/-- A step takes the next descriptor the host has issued and performs it. With nothing issued the block stays as it is
(log 10); bytes that spell no operation are refused, whatever the phase (R103, R280). -/
def step (s : State) : Host.Outcome State Fault Refusal :=
  if s.input.isEmpty then .next s
  else
    match fetch s with
    | none => .refused .invalidDescriptor
    | some (i, s') => exec i s'

/-- The state in which the host has issued exactly the table word `w`, its operand bytes above `nbits` zero. -/
def State.withFetchWord (s : State) (nbits w : Nat) : State := issueWord s nbits w

end Sys2Proof.Machine
end

