-- ==== Sys2Proof/Machine/Creation.lean ====
section
/-! DEFINITION. Creation of a block (spec/70_reset_and_hazards.md R300; spec/10_state.md R34): the host supplies a
configuration and build parameters; illegal ones create no block. -/

namespace Sys2Proof.Machine

open Sys2Proof

/-- The block a host creates, or none where a legality condition is broken: "an illegal configuration creates no
block and emits nothing" (R300). -/
def create (c : Cfg) (b : Build) : Option State :=
  if cfgLegal c && buildLegal b then some (State.created c b) else none

end Sys2Proof.Machine
end

