-- ==== Sys2Proof/Machine/Wire.lean ====
section
/-! DEFINITION. What the panel sees of a trace (spec/10_state.md R36), the frames it reads (spec/41_command_framer.md
R157) and how long a trace lasts (spec/70_reset_and_hazards.md R318). Views of the trace; no operation reads them. -/

namespace Sys2Proof.Machine

open Sys2Proof

/-- Whether an event is part of the wire view (R36). -/
def onWire : Event → Bool
  | .lineSet _ _ | .spiWrite _ _ | .acquire _ _ _ _ | .release _ => true
  | .lineGet _ _ | .opened _ _ _ _ _ | .closed | .delay _ | .error _ => false

/-- The wire view of a trace (R36). -/
def wireView (t : List Event) : List Event := t.filter onWire

/-- What a panel can tell apart: line events, single bytes and the delays between them (R36). -/
inductive PanelItem where
  | grant (role : Role) (offset : Nat) (direction : Direction) (level : Option Bit)
  | release (role : Role)
  | line (role : Role) (level : Bit)
  | byte (b : Byte)
  | delay (d : Nat)
deriving DecidableEq, Repr

/-- An event as the panel sees it: an event of the wire view and a delay whole, but that the split of a run of bytes into
writes leaves no mark (R36). That a failed write is then seen as the bytes that reached the wire, and one of no bytes not at
all, is the model's choice (DEDUCED, log 36). -/
def panelItems : Event → List PanelItem
  | .acquire r o d l => [.grant r o d l]
  | .release r => [.release r]
  | .lineSet r v => [.line r v]
  | .spiWrite bs _ => bs.map .byte
  | .delay d => [.delay d]
  | .lineGet _ _ | .opened _ _ _ _ _ | .closed | .error _ => []

/-- A trace as the panel sees it (R36): traces with equal views are indistinguishable to the panel. -/
def panelView (t : List Event) : List PanelItem := t.flatMap panelItems

/-- A byte with the DC and CS levels in force when it was written (R36). A tag of none stands for the level of a line that is
not held, which R24 and R44 leave unspecified: the model's choice (DESIGN CHOICE, log 33). -/
structure TaggedByte where
  byte : Byte
  dc : Option Bit
  cs : Option Bit
deriving DecidableEq, Repr

/-- The level of a line after an event, from the one before it; none while the line is not held (R24, R36; log 33). -/
def levelAfter (r : Role) (level : Option Bit) : Event → Option Bit
  | .acquire q _ _ v => if q = r then v else level
  | .release q => if q = r then none else level
  | .lineSet q v => if q = r then some v else level
  | .lineGet _ _ | .opened _ _ _ _ _ | .spiWrite _ _ | .closed | .delay _ | .error _ => level

/-- The bytes of an event. -/
def eventBytes : Event → List Byte
  | .spiWrite bs _ => bs
  | _ => []

/-- The bytes of a trace with their tags (R36), from the levels before it. -/
def tagBytes : Option Bit → Option Bit → List Event → List TaggedByte
  | _, _, [] => []
  | dc, cs, e :: rest =>
    (eventBytes e).map (fun b => ⟨b, dc, cs⟩) ++ tagBytes (levelAfter .dc dc e) (levelAfter .cs cs e) rest

/-- Whether a tagged byte is a command byte; otherwise it is a data byte (R36). None where DC was not held: it is then
neither (DESIGN CHOICE, log 33). -/
def isCommandByte (c : Cfg) (t : TaggedByte) : Option Bool := t.dc.map fun dc => decide (dc = c.dcCmdLevel)

/-- An item of the panel's reading of the wire (R157). -/
inductive FrameItem where
  | command (opcode : Byte) (params : List Byte)
  | orphan (b : Byte)
deriving DecidableEq, Repr

/-- One more byte read, at DC level `dc`: the body of the inner loop of R157. -/
def addByte (cmdLevel dc : Bit) (out : List FrameItem) (b : Byte) : List FrameItem :=
  if dc = cmdLevel then out ++ [.command b []]
  else
    match out.getLast? with
    | some (.command o p) => out.dropLast ++ [.command o (p ++ [b])]
    | _ => out ++ [.orphan b]

/-- The inner loop of R157; none where a byte is read and `dc` has no level yet (log 27). -/
def framesOfBytes (cmdLevel : Bit) : Option Bit → List FrameItem → List Byte → Option (List FrameItem)
  | _, out, [] => some out
  | none, _, _ :: _ => none
  | some dc, out, b :: rest => framesOfBytes cmdLevel (some dc) (addByte cmdLevel dc out b) rest

/-- The loop of R157 from level `dc` and output `out`: a `LineSet(DC, ·)` changes `dc` and nothing else does. An event
outside the wire view changes nothing. -/
def framesOfEvents (cmdLevel : Bit) : Option Bit → List FrameItem → List Event → Option (List FrameItem)
  | _, out, [] => some out
  | dc, out, e :: rest =>
    match e with
    | .lineSet .dc v => framesOfEvents cmdLevel (some v) out rest
    | .spiWrite bs _ => (framesOfBytes cmdLevel dc out bs).bind fun out => framesOfEvents cmdLevel dc out rest
    | _ => framesOfEvents cmdLevel dc out rest

/-- Whether every `SpiWrite` of the events happens with CS asserted, from CS level `cs` before them (R309). -/
def csAsserted (activeLevel : Bit) : Option Bit → List Event → Bool
  | _, [] => true
  | cs, e :: rest =>
    match e with
    | .spiWrite _ _ => cs == some activeLevel && csAsserted activeLevel cs rest
    | _ => csAsserted activeLevel (levelAfter .cs cs e) rest

/-- The frames of events (R157), from the DC and CS levels before them; none where the decoding is not defined, because CS
is not asserted at a write in a CS mode (R309, U11) or DC has no level yet at a byte (log 27). -/
def framesFrom (c : Cfg) (dc cs : Option Bit) (t : List Event) : Option (List FrameItem) :=
  if c.csMode ≠ .none ∧ csAsserted c.csActiveLevel cs t = false then none
  else framesOfEvents c.dcCmdLevel dc [] t

/-- The level of DC in its Acquire event (R157), the first one of the trace where there are several (log 27). -/
def acquiredDc : List Event → Option Bit
  | [] => none
  | e :: rest =>
    match e with
    | .acquire .dc _ _ v => v
    | _ => acquiredDc rest

/-- `frames(trace)` (R157). -/
def frames (c : Cfg) (t : List Event) : Option (List FrameItem) := framesFrom c (acquiredDc t) none t

/-- The duration of an event (R318). -/
def eventTime : Event → Nat
  | .delay d => d
  | _ => 0

/-- The sum of a trace's delays: its elapsed time under Exact, a lower bound of it under Loose (R318). -/
def elapsed (t : List Event) : Nat := (t.map eventTime).sum

end Sys2Proof.Machine
end

