-- ==== Sys2Proof/Safety.lean ====
section
/-! DEFINITION. The terms claims are made in: when an operation runs, what it appends, what it leaves unchanged, and what
holds of every state a block can be in. Each term is written from the rules, not from the operations. -/

namespace Sys2Proof.Machine

open Sys2Proof

/-! ## When an operation runs -/

/-- The admission sets of the operations, by R242's table and the operations' rules (in Sleeping: log 31). -/
def admission : Instr → Phase → Bool
  | .lineAcquire _ _, p | .spiOpen _ _ _ _, p | .sessionOpen, p => decide (p = .uninitialized)
  | .lineSet _ _, p | .lineGet _, p | .spiWrite _, p | .delay _, p | .sendCommand _, p | .sendData _, p
  | .waitReady _ _ _ _, p | .initApply _, p => decide (p ∈ [.uninitialized, .reset, .initialized])
  | .initializePanel, p => decide (p = .reset)
  | .refresh _ _, p | .streamPixels _ _, p | .streamFill _ _, p | .sleep, p => decide (p = .initialized)
  | .lineRelease, p | .spiClose, p | .fbCheck _, p | .encodeMono _ _ _, p | .decodeMono _, p
  | .encodeRgb565 _ _ _, p | .fillChunks _ _, p | .windowCheck _ _ _, p => decide (p ≠ .closed)
  | .teardown, _ => true

/-- The gate of R277 lets the operation through. -/
def gateOpen (i : Instr) (s : State) : Prop := s.poisoned = false ∧ admission i s.phase = true

/-- The line is acquired, in the direction its role has (R22). -/
def held (s : State) (r : Role) : Prop :=
  (s.line r).acquired = true ∧ (s.line r).direction = fixedDirection r

/-- A framer call finds what it needs: the transport open, DC held, and CS held where the CS mode uses it (R152). -/
def framerReady (s : State) : Prop :=
  s.transport.isOpen = true ∧ held s .dc ∧ (s.cfg.csMode ≠ .none → held s .cs)

/-- The next `n` transport writes will be answered Ok (R40). -/
def writesOk (s : State) (n : Nat) : Prop := List.replicate n WriteAnswer.ok <+: s.env.writes

/-- The answers of a busy-wait that reads busy `k` times and then ready (R171). -/
def busyAnswers (busy : Bit) (k : Nat) : List Bit := List.replicate k busy ++ [!busy]

/-- No timeout test of a busy-wait succeeds before poll `k + 1`: trivially where the first poll is ready; under Exact
timing where poll `k` comes before the timeout (R173, R174, R176). -/
def waitInTime (b : Build) (interval timeout k : Nat) : Prop :=
  k = 0 ∨ (b.timing = .exact ∧ b.firstPollDelay + (k - 1) * interval < timeout)

/-! ## What operations append -/

/-- The events `t` has after those of `s`. -/
def appended (s t : State) : List Event := t.trace.drop s.trace.length

/-- The events of a successful framer call (R152). -/
def framedEvents (c : Cfg) (dcl : Bit) (data : List Byte) : List Event :=
  match c.csMode, data with
  | .none, data => [.lineSet .dc dcl, .spiWrite data true]
  | .perCall, data =>
    [.lineSet .cs c.csActiveLevel, .lineSet .dc dcl, .spiWrite data true, .lineSet .cs (!c.csActiveLevel)]
  | .perByte, [] => []
  | .perByte, b :: rest =>
    [.lineSet .cs c.csActiveLevel, .lineSet .dc dcl, .spiWrite [b] true, .lineSet .cs (!c.csActiveLevel)] ++
      rest.flatMap fun b => [.lineSet .cs c.csActiveLevel, .spiWrite [b] true, .lineSet .cs (!c.csActiveLevel)]

/-- How many transport writes a framer call makes (R152). -/
def framedWrites (c : Cfg) (data : List Byte) : Nat := if c.csMode = .perByte then data.length else 1

/-- How many bytes each transport write of a framer call carries (R152). -/
def framedWriteLength (c : Cfg) (data : List Byte) : Nat := if c.csMode = .perByte then 1 else data.length

/-- The events of a framer call whose writes before write `n` (numbered from 0) are answered Ok and whose write `n` is
answered `Fail(k)`: nothing comes after that write (R152, R155). In mode `PerByte` a write has one byte, so `k` is 0. -/
def failedFrameEvents (c : Cfg) (dcl : Bit) (data : List Byte) (n k : Nat) : List Event :=
  match c.csMode with
  | .none => [.lineSet .dc dcl, .spiWrite (data.take k) false]
  | .perCall => [.lineSet .cs c.csActiveLevel, .lineSet .dc dcl, .spiWrite (data.take k) false]
  | .perByte =>
    framedEvents c dcl (data.take n) ++ [.lineSet .cs c.csActiveLevel] ++
      (if n = 0 then [.lineSet .dc dcl] else []) ++ [.spiWrite [] false]

/-- The lines a failed transport write of a framer call or a stream leaves: DC at the call's level, CS asserted where a CS mode
is used (R155, R237, R314). -/
def failedFrameLines (c : Cfg) (dcl : Bit) (l : Lines) : Lines :=
  let l := l.set .dc { l.dc with level := dcl }
  if c.csMode = .none then l else l.set .cs { l.cs with level := c.csActiveLevel }

/-- `i` is the framer call that sends `data` at DC level `dcl`: SEND_COMMAND at the command level, SEND_DATA at the data
level (R150, R151). -/
def isFramerCall (c : Cfg) (i : Instr) (dcl : Bit) (data : List Byte) : Prop :=
  (∃ op, i = .sendCommand op ∧ data = [op] ∧ dcl = c.dcCmdLevel) ∨
    (i = .sendData data ∧ data ≠ [] ∧ dcl = !c.dcCmdLevel)

/-- The lines after a successful framer call at DC level `dcl`: CS deasserted where a CS mode is used (R156). -/
def framedLines (c : Cfg) (dcl : Bit) (l : Lines) : Lines :=
  let l := l.set .dc { l.dc with level := dcl }
  if c.csMode = .none then l else l.set .cs { l.cs with level := !c.csActiveLevel }

/-- The state after a successful framer call (R152, R156): the writes' answers are used up. -/
def afterFrame (s : State) (dcl : Bit) (data : List Byte) : State :=
  { s with
    lines := framedLines s.cfg dcl s.lines
    env := { s.env with
      writes := s.env.writes.drop (framedWrites s.cfg data)
      drawn := s.env.drawn + framedWrites s.cfg data }
    trace := s.trace ++ framedEvents s.cfg dcl data }

/-- The events of sending a command byte (R150). -/
def commandEvents (c : Cfg) (op : Byte) : List Event := framedEvents c c.dcCmdLevel [op]

/-- The events of sending data, none where there is none (R151). -/
def dataEvents (c : Cfg) (data : List Byte) : List Event :=
  if data.isEmpty then [] else framedEvents c (!c.dcCmdLevel) data

/-- The events of a command and its parameters (R105). -/
def cmdEvents (c : Cfg) (op : Byte) (params : List Byte) : List Event := commandEvents c op ++ dataEvents c params

/-- How many transport writes a command and its parameters take. -/
def cmdWrites (c : Cfg) (params : List Byte) : Nat := 1 + (if params.isEmpty then 0 else framedWrites c params)

/-- The events of a busy-wait that reads busy `k` times and then ready (R170). -/
def waitEvents (b : Build) (busy : Bit) (interval k : Nat) : List Event :=
  (if b.firstPollDelay > 0 then [.delay b.firstPollDelay] else []) ++
    (List.replicate k [Event.lineGet .busy busy, .delay interval]).flatten ++ [.lineGet .busy (!busy)]

/-- The events of an Init Table entry whose busy-wait, if it has one, reads busy `k` times (R230). -/
def entryEvents (c : Cfg) (b : Build) (e : Entry × Nat) : List Event :=
  cmdEvents c (BitVec.ofNat 8 e.1.opcode) (e.1.params.map (BitVec.ofNat 8)) ++
    (if e.1.busyWait then waitEvents b (busyLevel c.busyPolarity) c.pollInterval e.2 else []) ++
    [.delay e.1.postDelay]

/-- The busy answers such an entry takes. -/
def entryBusy (c : Cfg) (e : Entry × Nat) : List Bit :=
  if e.1.busyWait then busyAnswers (busyLevel c.busyPolarity) e.2 else []

/-- The transport writes an entry takes. -/
def entryWrites (c : Cfg) (e : Entry × Nat) : Nat := cmdWrites c (e.1.params.map (BitVec.ofNat 8))

/-- An entry that will run to its end: well-formed, and its busy-wait, if it has one, finds the BUSY line held, a
positive interval and ready in time (R230). -/
def entryRuns (s : State) (e : Entry × Nat) : Prop :=
  entryWellFormed e.1 = true ∧
    (e.1.busyWait = true →
      held s .busy ∧ 1 ≤ s.cfg.pollInterval ∧ waitInTime s.build s.cfg.pollInterval s.cfg.opTimeout e.2)

/-- The event of a granted line (R35, R120). -/
def acquireEvent (sp : LineSpec) : Event :=
  .acquire sp.role sp.offset sp.direction (if sp.direction = .output then some sp.init else none)

/-- The events of the reset pulse (R231). -/
def resetEvents (c : Cfg) : List Event :=
  c.resetSequence.flatMap fun st => [.lineSet .rst st.level, .delay st.hold]

/-- The lines a session has, in the order DC, RST, BUSY, CS (R22, R232). -/
def sessionRoles (c : Cfg) : List Role := [Role.dc, .rst, .busy, .cs].filter fun r => rolePresent c r

/-- The level an output line starts at in a session (R24, R232). -/
def sessionInit (c : Cfg) : Role → Bit
  | .dc => c.dcInitLevel
  | .rst => c.rstInitLevel
  | .busy => false
  | .cs => !c.csActiveLevel

/-- The events of SESSION_OPEN (R232). -/
def sessionEvents (c : Cfg) : List Event :=
  ((sessionRoles c).map fun r =>
    .acquire r (cfgOffset c r) (fixedDirection r)
      (if fixedDirection r = .output then some (sessionInit c r) else none)) ++
    [.opened c.spiPath c.spiClockHz c.spiMode c.spiBitsPerWord c.spiBitOrder] ++ resetEvents c

/-- The events of the window commands (R235, R99). -/
def windowEvents (c : Cfg) (w : Window) : List Event :=
  cmdEvents c c.winXCmd (be16 (BitVec.ofNat 16 w.x0) ++ be16 (BitVec.ofNat 16 w.x1)) ++
    cmdEvents c c.winYCmd (be16 (BitVec.ofNat 16 w.y0) ++ be16 (BitVec.ofNat 16 w.y1)) ++
    (match c.ramWriteCmd with
     | some op => commandEvents c op
     | none => [])

/-- The transport writes the window commands take. -/
def windowWrites (c : Cfg) : Nat :=
  2 * cmdWrites c (List.replicate 4 0) + (if c.ramWriteCmd.isSome then 1 else 0)

/-- The events of a pixel stream in the given pieces: CS held for the whole of it, DC set once (R237). -/
def streamEvents (c : Cfg) (pieces : List (List Byte)) : List Event :=
  (if c.csMode = .none then [] else [.lineSet .cs c.csActiveLevel]) ++ [.lineSet .dc (!c.dcCmdLevel)] ++
    pieces.map (fun p => .spiWrite p true) ++
    (if c.csMode = .none then [] else [.lineSet .cs (!c.csActiveLevel)])

/-- The events of a pixel stream whose writes of the pieces `sent` are answered Ok and whose next write sends only the bytes
`part`: nothing comes after that write, so CS stays asserted (R237, R314). -/
def failedStreamEvents (c : Cfg) (sent : List (List Byte)) (part : List Byte) : List Event :=
  (if c.csMode = .none then [] else [.lineSet .cs c.csActiveLevel]) ++ [.lineSet .dc (!c.dcCmdLevel)] ++
    sent.map (fun p => .spiWrite p true) ++ [.spiWrite part false]

/-- The event of a line given back (R123), for the lines held. -/
def releaseEvents (s : State) : List Event :=
  ([Role.dc, .rst, .busy, .cs].filter fun r => (s.line r).acquired).map .release

/-- The event of a closing transport, if it is open (R126). -/
def closeEvents (s : State) : List Event := if s.transport.isOpen then [.closed] else []

/-! ## What operations leave -/

/-- The registers no successful operation changes, and the configuration. -/
def sameStatus (s t : State) : Prop :=
  t.poisoned = s.poisoned ∧ t.lastError = s.lastError ∧ t.cfg = s.cfg ∧ t.build = s.build ∧ t.input = s.input

/-- The sequencer's and synchronizer's registers are as before. -/
def sameCounters (s t : State) : Prop :=
  t.pollCount = s.pollCount ∧ t.entryIndex = s.entryIndex ∧ t.streamRemaining = s.streamRemaining

/-- Nothing changed but the trace, which got `es`, the environment, and the result, which is `v`. -/
def onlyTrace (s t : State) (es : List Event) (v : Result) : Prop :=
  t.phase = s.phase ∧ t.lines = s.lines ∧ t.transport = s.transport ∧ sameCounters s t ∧ sameStatus s t ∧
    t.trace = s.trace ++ es ∧ t.result = some v

/-- The state in which an error raised before any action leaves the block: delivered, nothing else (R276). -/
def rejected (s : State) (e : ErrRec) : State :=
  { s with lastError := some e, trace := s.trace ++ [.error e], result := some (.error e) }

/-- Issues operations in order and goes on while each returns Ok; none where one does not. -/
def runOps : List Instr → State → Option State
  | [], s => some s
  | i :: rest, s =>
    match exec i s with
    | .next t => if t.result = some .ok then runOps rest t else none
    | _ => none

/-- The phase after a successful operation, by R242's table. -/
def phaseAfter : Instr → Phase → Phase
  | .sessionOpen, _ => .reset
  | .initializePanel, _ => .initialized
  | .refresh _ _, _ | .streamPixels _ _, _ | .streamFill _ _, _ => .initialized
  | .sleep, _ => .sleeping
  | .teardown, _ => .closed
  | .lineAcquire _ _, p | .lineSet _ _, p | .lineGet _, p | .lineRelease, p | .spiOpen _ _ _ _, p
  | .spiWrite _, p | .spiClose, p | .delay _, p | .sendCommand _, p | .sendData _, p | .waitReady _ _ _ _, p
  | .fbCheck _, p | .encodeMono _ _ _, p | .decodeMono _, p | .encodeRgb565 _ _ _, p | .fillChunks _ _, p
  | .windowCheck _ _ _, p | .initApply _, p => p

/-- The phase a failed operation may be left in other than the one it started in (R278). -/
def phaseInside : Instr → Option Phase
  | .refresh _ _ => some .refreshing
  | .streamPixels _ _ | .streamFill _ _ => some .streaming
  | _ => none

/-- Whether a result is an error. -/
def isErrorResult : Result → Bool
  | .error _ => true
  | _ => false

/-- Whether an event drives the DC line. -/
def isDcSet : Event → Bool
  | .lineSet .dc _ => true
  | _ => false

/-- A frame REFRESH accepts: the panel's dimensions and encoding, and the length they require (R190, R234). -/
def frameFits (c : Cfg) (f : Framebuffer) : Prop :=
  f.width = c.panelWidth ∧ f.height = c.panelHeight ∧ f.encoding = c.pixelEncoding ∧
    1 ≤ f.width ∧ f.width ≤ 65535 ∧ 1 ≤ f.height ∧ f.height ≤ 65535 ∧
    (match f.encoding with
     | .mono1bpp => f.width % 8 = 0 ∧ f.bytes.length = f.width * f.height / 8
     | .rgb565 => f.bytes.length = 2 * (f.width * f.height))

/-- The reason of the ConfigError of a frame REFRESH does not accept: UnsupportedWidth for a Mono1bpp frame of good dimensions
whose width is no multiple of 8, SizeMismatch for every other (R190, R234, R280). -/
def frameReason (f : Framebuffer) : Byte :=
  if 1 ≤ f.width ∧ f.width ≤ 65535 ∧ 1 ≤ f.height ∧ f.height ≤ 65535 ∧ f.encoding = .mono1bpp ∧ f.width % 8 ≠ 0
  then 6 else 2

/-- What a stream leaves where its transport write after the pieces `sent` fails after `k` bytes of `piece`: in Streaming and
poisoned, STREAM_REMAINING the pixels of `n` that the complete writes did not send, CS asserted and DC at the data level
(R237, R276, R278, R314). The answers left are `ws`. -/
def streamFailed (s : State) (win : Window) (n : Nat) (sent : List (List Byte)) (piece : List Byte) (k : Nat)
    (ws : List WriteAnswer) : State :=
  { s with
    phase := .streaming
    poisoned := true
    lastError := some ⟨.ioError, 2, { reason := 3, written := some k }⟩
    streamRemaining := n - sent.flatten.length / 2
    lines := failedFrameLines s.cfg (!s.cfg.dcCmdLevel) s.lines
    env := { s.env with writes := ws, drawn := s.env.drawn + (windowWrites s.cfg + sent.length + 1) }
    trace := s.trace ++ windowEvents s.cfg win ++ failedStreamEvents s.cfg sent (piece.take k) ++
      [.error ⟨.ioError, 2, { reason := 3, written := some k }⟩]
    result := some (.error ⟨.ioError, 2, { reason := 3, written := some k }⟩) }

/-! ## What every state keeps -/

/-- Whether an event is an Error. -/
def isError : Event → Bool
  | .error _ => true
  | _ => false

/-- Whether a line is held after an event, from whether it was held before (R35). -/
def heldAfter (r : Role) (h : Bool) : Event → Bool
  | .acquire q _ _ _ => if q = r then true else h
  | .release q => if q = r then false else h
  | _ => h

/-- Whether a trace leaves a line held. -/
def heldIn (r : Role) (t : List Event) : Bool := t.foldl (heldAfter r) false

/-- The level last set on a line, by a grant or a set (R24). -/
def drivenAfter (r : Role) (v : Option Bit) : Event → Option Bit
  | .acquire q _ _ l => if q = r then l else v
  | .lineSet q l => if q = r then some l else v
  | _ => v

/-- The level a trace last set on a line. -/
def drivenIn (r : Role) (t : List Event) : Option Bit := t.foldl (drivenAfter r) none

/-- Whether the transport is open after an event. -/
def openAfter (o : Bool) : Event → Bool
  | .opened _ _ _ _ _ => true
  | .closed => false
  | _ => o

/-- Whether a trace leaves the transport open. -/
def openIn (t : List Event) : Bool := t.foldl openAfter false

/-- The latest error after an event. -/
def errorAfter (e : Option ErrRec) : Event → Option ErrRec
  | .error x => some x
  | _ => e

/-- The latest error a trace delivered (R28). -/
def errorIn (t : List Event) : Option ErrRec := t.foldl errorAfter none

/-- What holds of a line record in every reachable state: its fixed fields (R22, R23); held only if the configuration has it;
held exactly as the trace says; an output line's level is the last one set (R24). -/
def lineKept (s : State) (r : Role) : Prop :=
  (s.line r).direction = fixedDirection r ∧
    (s.line r).activeLevel = activeLevel s.cfg r ∧
    ((s.line r).acquired = true → rolePresent s.cfg r = true) ∧
    (s.line r).acquired = heldIn r s.trace ∧
    ((s.line r).acquired = true → fixedDirection r = .output → drivenIn r s.trace = some (s.line r).level)

/-- What holds of every reachable state: legal configuration, the lines as above, the transport open exactly as the trace
says and then legally configured (R26, R124), last_error the trace's latest (R28), a poisoned block has had an error (R27),
a closed block holds nothing (R241), and the clock is at least the sum of the delays, under Exact timing equal to it (R318). -/
def blockInv (s : State) : Prop :=
  cfgLegal s.cfg = true ∧ buildLegal s.build = true ∧
    (∀ r, lineKept s r) ∧
    s.transport.isOpen = openIn s.trace ∧
    (s.transport.isOpen = true →
      s.transport.mode ≤ 3 ∧ s.transport.bitsPerWord = 8 ∧ 1 ≤ s.transport.clockHz ∧
        s.transport.bitOrder = s.cfg.spiBitOrder) ∧
    s.lastError = errorIn s.trace ∧
    (s.poisoned = true → s.lastError ≠ none) ∧
    (s.phase = .closed → s.transport.isOpen = false ∧ ∀ r, (s.line r).acquired = false) ∧
    elapsed s.trace ≤ s.env.clock ∧
    (s.build.timing = .exact → s.env.clock = elapsed s.trace)

end Sys2Proof.Machine
end

