-- ==== Sys2Proof/Certificates/Slice0/Obligations.lean ====
section
/-! DEFINITION. The statements for the provers: encoding, one completion statement and the error forms of every operation,
and the rules about the whole block. An error value is written out, kind, code and reason, as R270 to R273 number it. -/

open Sys2Proof Sys2Proof.Machine

/-! ## Descriptors and steps -/

/-- A few descriptors of 95_test_vectors.md (V-D1 to V-D18) decode to the operations they spell. -/
def Obligations.DecodeOfSpecDescriptors : Prop :=
  decode [0x02, 0x00, 0x00] = some (.lineSet .dc false, []) ∧
  decode [0x03, 0x02] = some (.lineGet .busy, []) ∧
  decode [0x10, 0x2A] = some (.sendCommand 0x2A, []) ∧
  decode [0x11, 0x00, 0x00, 0x00, 0x02, 0x01, 0x02] = some (.sendData [0x01, 0x02], []) ∧
  decode [0x08, 0x00, 0x00, 0x27, 0x10] = some (.delay 10000, []) ∧
  decode [0x25, 0x00, 0xF0, 0x00, 0xF0, 0x00, 0x0A, 0x00, 0x14, 0x00, 0x13, 0x00, 0x18] =
    some (.windowCheck 240 240 ⟨10, 20, 19, 24⟩, []) ∧
  decode [0x35, 0x00, 0x01, 0x00, 0x00, 0x00, 0x02, 0x00, 0x01, 0xF8, 0x00] =
    some (.streamFill ⟨1, 0, 2, 1⟩ 0xF800, []) ∧
  decode [0x09] = none ∧ decode [0x02, 0x04, 0x00] = none ∧ decode [0x02, 0x00, 0x02] = none ∧
  decode [0x11, 0x00, 0x00, 0x00, 0x05, 0x01] = none

/-- Decoding the descriptor of an operation whose operands are in range gives the operation back, and the bytes after it
(R100 to R102; that bytes may follow a descriptor is the model's reading, log 13). -/
def Obligations.DecodeOfEncode : Prop :=
  ∀ (i : Instr) (rest : List Byte), i.wf = true → decode (encode i ++ rest) = some (i, rest)

/-- What the decoder accepts is the descriptor of the operation it answers, whose operands are in range: no other bytes spell an
operation (R101 to R103; the bytes after it are log 13). -/
def Obligations.EncodeOfDecode : Prop :=
  ∀ (bs rest : List Byte) (i : Instr), decode bs = some (i, rest) → i.wf = true ∧ bs = encode i ++ rest

/-- A reserved OPSEL, a role byte outside its values and a descriptor that ends early spell no operation, and a step on bytes
that spell none is refused (R103). -/
def Obligations.InvalidDescriptorRefused : Prop :=
  (∀ (op : Byte) (rest : List Byte), (∀ i : Instr, i.opsel ≠ op.toNat) → decode (op :: rest) = none) ∧
  (∀ (b : Byte) (rest : List Byte), 4 ≤ b.toNat →
    decode (0x02 :: b :: rest) = none ∧ decode (0x03 :: b :: rest) = none) ∧
  (∀ (i : Instr) (p : List Byte), i.wf = true → p <+: encode i → p ≠ encode i → decode p = none) ∧
  (∀ s : State, s.input ≠ [] → decode s.input = none → step s = .refused .invalidDescriptor)

/-- A step performs the operation the issued bytes spell, on the state without those bytes; with nothing issued the block
stays as it is (the model's choice, log 9 and 10). -/
def Obligations.StepRunsDecoded : Prop :=
  (∀ (s : State) (i : Instr) (rest : List Byte), decode s.input = some (i, rest) →
    step s = exec i { s with input := rest }) ∧
  (∀ s : State, s.input = [] → step s = .next s)

/-! ## Creation -/

/-- The configurations that are legal (R34's table; that no other condition is one, such as R7's values of the initial and
active levels, is the model's choice, log 21 and 32). -/
def Obligations.LegalConfigurations : Prop :=
  ∀ c : Cfg, cfgLegal c = true ↔
    (1 ≤ c.panelWidth ∧ c.panelWidth ≤ 65535 ∧ 1 ≤ c.panelHeight ∧ c.panelHeight ≤ 65535 ∧
      (c.pixelEncoding = .mono1bpp → c.panelWidth % 8 = 0) ∧
      (c.pixelEncoding = .mono1bpp ↔ c.panelKind = .ePaper) ∧
      (c.busyPresent = true ↔ c.panelKind = .ePaper) ∧
      (c.csPresent = false → c.csMode = .none) ∧
      1 ≤ c.pollInterval ∧ 1 ≤ c.spiClockHz ∧ c.spiMode ≤ 3 ∧ c.spiBitsPerWord = 8 ∧ c.spiBitOrder = .msbFirst ∧
      c.resetSequence ≠ [] ∧ (c.panelKind = .ePaper → c.deepSleepParams.length = 1))

/-- A legal configuration creates a block in the state of R300's table; an illegal one creates none (which are legal: log 21
and 32). -/
def Obligations.CreationState : Prop :=
  ∀ (c : Cfg) (b : Build), buildLegal b = true →
    (cfgLegal c = false → create c b = none) ∧
    (cfgLegal c = true → ∃ s, create c b = some s ∧ s.cfg = c ∧ s.build = b ∧ s.phase = .uninitialized ∧
      s.poisoned = false ∧ s.lastError = none ∧ s.transport.isOpen = false ∧ s.pollCount = 0 ∧ s.entryIndex = 0 ∧
      s.streamRemaining = 0 ∧ s.trace = [] ∧
      (∀ r, (s.line r).acquired = false ∧ (s.line r).offset = cfgOffset c r ∧
        (s.line r).direction = fixedDirection r ∧ (s.line r).activeLevel = activeLevel c r))

/-! ## Lines -/

/-- LINE_ACQUIRE with distinct roles and offsets, each spec in its role's direction, present and not held, the chip opening
and no offset owned elsewhere: grants exactly those lines, in order, and leaves the rest (R120; that BUSY's level field too
takes the spec's init bit is the model's choice, log 15). -/
def Obligations.LineAcquireGrants : Prop :=
  ∀ (s : State) (chip : Text) (specs : List LineSpec) (chips owned : List Bool),
    gateOpen (.lineAcquire chip specs) s →
    specs.Pairwise (fun a b => a.role ≠ b.role ∧ a.offset ≠ b.offset) →
    (∀ sp ∈ specs, sp.direction = fixedDirection sp.role ∧ rolePresent s.cfg sp.role = true ∧
      (s.line sp.role).acquired = false) →
    s.env.chipOpens = true :: chips → s.env.offsetOwned = List.replicate specs.length false ++ owned →
    ∃ t, exec (.lineAcquire chip specs) s = .next t ∧ t.result = some .ok ∧
      t.trace = s.trace ++ specs.map acquireEvent ∧
      (∀ sp ∈ specs, t.line sp.role = ⟨true, sp.offset, sp.direction, activeLevel s.cfg sp.role, sp.init⟩) ∧
      (∀ r, (∀ sp ∈ specs, sp.role ≠ r) → t.line r = s.line r) ∧
      t.phase = s.phase ∧ t.transport = s.transport ∧ sameCounters s t ∧ sameStatus s t

/-- A LINE_ACQUIRE that fails grants no line and appends no event but its Error, and does not poison (R120, R276). -/
def Obligations.LineAcquireAllOrNothing : Prop :=
  ∀ (s t : State) (chip : Text) (specs : List LineSpec) (e : ErrRec),
    gateOpen (.lineAcquire chip specs) s → exec (.lineAcquire chip specs) s = .next t →
    t.result = some (.error e) →
    t = { rejected s e with env := t.env } ∧ e.kind = .resourceError ∧ e.code = 1

/-- Which error a LINE_ACQUIRE raises: a repeated role or offset first, then the first bad spec, then the chip, then the first
offset owned elsewhere (R120, R273; which pair of clashing specs decides the role is the model's choice, log 30). -/
def Obligations.LineAcquireReasons : Prop :=
  ∀ (s : State) (chip : Text) (pre mid post : List LineSpec) (a b sp : LineSpec) (chips owned : List Bool),
    gateOpen (.lineAcquire chip []) s →
    (pre.Pairwise (fun x y => x.role ≠ y.role ∧ x.offset ≠ y.offset) →
      (∀ x ∈ pre, ∀ y ∈ a :: mid ++ b :: post, x.role ≠ y.role ∧ x.offset ≠ y.offset) →
      (a.role = b.role ∨ a.offset = b.offset) →
      exec (.lineAcquire chip (pre ++ a :: mid ++ b :: post)) s =
        .next (rejected s ⟨.resourceError, 1, { reason := 3, role := some a.role }⟩)) ∧
    ((pre ++ sp :: post).Pairwise (fun x y => x.role ≠ y.role ∧ x.offset ≠ y.offset) →
      (∀ x ∈ pre, x.direction = fixedDirection x.role ∧ rolePresent s.cfg x.role = true ∧
        (s.line x.role).acquired = false) →
      ((sp.direction ≠ fixedDirection sp.role ∨ rolePresent s.cfg sp.role = false) →
        exec (.lineAcquire chip (pre ++ sp :: post)) s =
          .next (rejected s ⟨.resourceError, 1, { reason := 4, role := some sp.role }⟩)) ∧
      (sp.direction = fixedDirection sp.role → rolePresent s.cfg sp.role = true →
        (s.line sp.role).acquired = true →
        exec (.lineAcquire chip (pre ++ sp :: post)) s =
          .next (rejected s ⟨.resourceError, 1, { reason := 5, role := some sp.role }⟩)) ∧
      ((∀ x ∈ sp :: post, x.direction = fixedDirection x.role ∧ rolePresent s.cfg x.role = true ∧
          (s.line x.role).acquired = false) →
        (s.env.chipOpens = false :: chips → ∃ t, exec (.lineAcquire chip (pre ++ sp :: post)) s = .next t ∧
          t.result = some (.error ⟨.resourceError, 1, { reason := 1 }⟩)) ∧
        (s.env.chipOpens = true :: chips → s.env.offsetOwned = List.replicate pre.length false ++ true :: owned →
          ∃ t, exec (.lineAcquire chip (pre ++ sp :: post)) s = .next t ∧
            t.result = some (.error ⟨.resourceError, 1, { reason := 2, offset := some sp.offset }⟩))))

/-- LINE_SET drives a held output line, whatever its level, and nothing else changes; a line not held or an input line raises the
error of R273 with no action (R121). -/
def Obligations.LineSetDrives : Prop :=
  ∀ (s : State) (r : Role) (v : Bit), gateOpen (.lineSet r v) s →
    ((s.line r).acquired = true → (s.line r).direction = .output →
      exec (.lineSet r v) s = .next { s with
        lines := s.lines.set r { s.line r with level := v }
        trace := s.trace ++ [.lineSet r v]
        result := some .ok }) ∧
    ((s.line r).acquired = false →
      exec (.lineSet r v) s = .next (rejected s ⟨.resourceError, 1, { reason := 6, role := some r }⟩)) ∧
    ((s.line r).acquired = true → (s.line r).direction = .input →
      exec (.lineSet r v) s = .next (rejected s ⟨.resourceError, 1, { reason := 7, role := some r }⟩))

/-- LINE_GET returns one fresh answer of the busy oracle and appends it; nothing else changes (R122, R25, R39). -/
def Obligations.LineGetSamples : Prop :=
  ∀ (s : State) (r : Role), gateOpen (.lineGet r) s →
    ((s.line r).acquired = true → (s.line r).direction = .input →
      ∃ v env, exec (.lineGet r) s = .next { s with
          env := env
          trace := s.trace ++ [.lineGet r v]
          result := some (.level v) } ∧
        (∀ a rest, s.env.busy = a :: rest → v = a ∧ env.busy = rest)) ∧
    ((s.line r).acquired = false →
      exec (.lineGet r) s = .next (rejected s ⟨.resourceError, 1, { reason := 6, role := some r }⟩)) ∧
    ((s.line r).acquired = true → (s.line r).direction = .output →
      exec (.lineGet r) s = .next (rejected s ⟨.resourceError, 1, { reason := 7, role := some r }⟩))

/-- LINE_RELEASE gives back every held line in the order DC, RST, BUSY, CS, and only those; a second one appends nothing
(R123; that it is admitted in Sleeping is the model's choice, log 31). -/
def Obligations.LineReleaseReleasesAll : Prop :=
  ∀ s : State, gateOpen .lineRelease s →
    ∃ t, exec .lineRelease s = .next t ∧ t.result = some .ok ∧ t.trace = s.trace ++ releaseEvents s ∧
      (∀ r, t.line r = { s.line r with acquired := false, level := (t.line r).level }) ∧
      (∀ r, (s.line r).acquired = false → t.line r = s.line r) ∧
      t.phase = s.phase ∧ t.transport = s.transport ∧ sameCounters s t ∧ sameStatus s t ∧
      exec .lineRelease t = .next t

/-! ## Transport -/

/-- SPI_OPEN of a legal configuration on a device that opens and accepts it opens the transport with exactly that
configuration (R124). -/
def Obligations.SpiOpenConfigures : Prop :=
  ∀ (s : State) (path : Text) (clockHz mode bits : Nat) (ds as : List Bool),
    gateOpen (.spiOpen path clockHz mode bits) s → s.transport.isOpen = false →
    mode ≤ 3 → bits = 8 → 1 ≤ clockHz → s.env.deviceOpens = true :: ds → s.env.deviceAccepts = true :: as →
    exec (.spiOpen path clockHz mode bits) s = .next { s with
      transport := ⟨true, path, clockHz, mode, bits, s.cfg.spiBitOrder⟩
      env := { s.env with deviceOpens := ds, deviceAccepts := as, drawn := s.env.drawn + 2 }
      trace := s.trace ++ [.opened path clockHz mode bits s.cfg.spiBitOrder]
      result := some .ok }

/-- When SPI_OPEN fails: on an open transport, on a device that does not open, on an illegal configuration, on one the device
refuses; a failed open changes nothing but what the error's delivery writes (R124). -/
def Obligations.SpiOpenFailures : Prop :=
  ∀ (s : State) (path : Text) (clockHz mode bits : Nat) (ds as : List Bool),
    gateOpen (.spiOpen path clockHz mode bits) s →
    (s.transport.isOpen = true →
      exec (.spiOpen path clockHz mode bits) s = .next (rejected s ⟨.configError, 4, { reason := 4 }⟩)) ∧
    (s.transport.isOpen = false →
      (s.env.deviceOpens = false :: ds → ∃ env, exec (.spiOpen path clockHz mode bits) s =
        .next { rejected s ⟨.ioError, 2, { reason := 1 }⟩ with env := env }) ∧
      (s.env.deviceOpens = true :: ds → (3 < mode ∨ bits ≠ 8 ∨ clockHz = 0) →
        ∃ env, exec (.spiOpen path clockHz mode bits) s =
          .next { rejected s ⟨.ioError, 2, { reason := 2 }⟩ with env := env }) ∧
      (s.env.deviceOpens = true :: ds → mode ≤ 3 → bits = 8 → 1 ≤ clockHz → s.env.deviceAccepts = false :: as →
        ∃ env, exec (.spiOpen path clockHz mode bits) s =
          .next { rejected s ⟨.ioError, 2, { reason := 2 }⟩ with env := env }))

/-- SPI_WRITE answered Ok: all the bytes in one event, nothing else changed (R125, R71). -/
def Obligations.SpiWriteSends : Prop :=
  ∀ (s : State) (data : List Byte) (ws : List WriteAnswer), gateOpen (.spiWrite data) s → data ≠ [] →
    s.transport.isOpen = true → s.env.writes = .ok :: ws →
    exec (.spiWrite data) s = .next { s with
      env := { s.env with writes := ws, drawn := s.env.drawn + 1 }
      trace := s.trace ++ [.spiWrite data true]
      result := some .ok }

/-- SPI_WRITE answered Fail(k) sends exactly the first k bytes and poisons; with the transport closed it raises NotOpen; of no
bytes it is refused (R125, R40, R276). -/
def Obligations.SpiWriteFailures : Prop :=
  ∀ (s : State) (data : List Byte) (k : Nat) (ws : List WriteAnswer), gateOpen (.spiWrite data) s →
    (data = [] → exec (.spiWrite data) s = .refused .emptyTransfer) ∧
    (data ≠ [] → s.transport.isOpen = false →
      exec (.spiWrite data) s = .next (rejected s ⟨.ioError, 2, { reason := 4 }⟩)) ∧
    (s.transport.isOpen = true → s.env.writes = .fail k :: ws → k < data.length →
      exec (.spiWrite data) s = .next { s with
        poisoned := true
        lastError := some ⟨.ioError, 2, { reason := 3, written := some k }⟩
        env := { s.env with writes := ws, drawn := s.env.drawn + 1 }
        trace := s.trace ++ [.spiWrite (data.take k) false,
          .error ⟨.ioError, 2, { reason := 3, written := some k }⟩]
        result := some (.error ⟨.ioError, 2, { reason := 3, written := some k }⟩) })

/-- SPI_CLOSE closes an open transport, keeping its configuration fields, and does nothing to a closed one (R126; that it is
admitted in Sleeping is the model's choice, log 31). -/
def Obligations.SpiCloseCloses : Prop :=
  ∀ s : State, gateOpen .spiClose s →
    exec .spiClose s = .next { s with
      transport := { s.transport with isOpen := false }
      trace := s.trace ++ closeEvents s
      result := some .ok }

/-- DELAY appends its event, a zero delay too, and the model's clock advances by the delay (R127, R38; log 7 and 8). -/
def Obligations.DelayWaits : Prop :=
  ∀ (s : State) (d : Nat), gateOpen (.delay d) s →
    exec (.delay d) s = .next { s with
      env := { s.env with clock := s.env.clock + d }
      trace := s.trace ++ [.delay d]
      result := some .ok }

/-! ## Command framer -/

/-- SEND_COMMAND sends its byte at the command level, framed as the CS mode says, and leaves exactly the state of R152 and
R156. -/
def Obligations.SendCommandFrames : Prop :=
  ∀ (s : State) (op : Byte), gateOpen (.sendCommand op) s → framerReady s → writesOk s 1 →
    exec (.sendCommand op) s = .next { afterFrame s s.cfg.dcCmdLevel [op] with result := some .ok }

/-- SEND_DATA sends its bytes at the data level, framed as the CS mode says, and leaves exactly the state of R152 and R156; of
no bytes it is refused (R151). -/
def Obligations.SendDataFrames : Prop :=
  ∀ (s : State) (data : List Byte), gateOpen (.sendData data) s →
    (data ≠ [] → framerReady s → writesOk s (framedWrites s.cfg data) →
      exec (.sendData data) s = .next { afterFrame s (!s.cfg.dcCmdLevel) data with result := some .ok }) ∧
    (data = [] → exec (.sendData data) s = .refused .emptyTransfer)

/-- Each successful SEND_COMMAND and each successful SEND_DATA performs exactly one set of DC, whatever level DC held and
whatever the CS mode and the environment (R153). -/
def Obligations.OneDcSetPerCall : Prop :=
  ∀ (s t : State) (op : Byte) (data : List Byte), t.result = some .ok →
    (exec (.sendCommand op) s = .next t ∨ exec (.sendData data) s = .next t) →
    (appended s t).countP isDcSet = 1

/-- In a successful framer call the set of DC is directly followed by the first transport write, and only the first CS
assertion may come before it (R154). -/
def Obligations.DcSetNextToWrite : Prop :=
  ∀ (s t : State) (op : Byte) (data : List Byte), t.result = some .ok →
    (exec (.sendCommand op) s = .next t ∨ exec (.sendData data) s = .next t) →
    ∃ (pre post : List Event) (v : Bit) (bs : List Byte),
      appended s t = pre ++ [.lineSet .dc v, .spiWrite bs true] ++ post ∧
      (pre = [] ∨ pre = [.lineSet .cs s.cfg.csActiveLevel])

/-- A framer call, SEND_COMMAND or SEND_DATA, that fails ends at once. Whichever of its transport writes fails, and after however
many bytes, and where the transport is closed: no later write and no CS deassertion happens, CS stays asserted where a CS mode is
used, DC is at the new level and the block is poisoned. Where DC is not held in a CS mode, CS stays asserted and the block is
poisoned. Where its first line is not held, nothing was done and the block is not poisoned (R155, R276, R314). -/
def Obligations.FramerFailureLeavesLines : Prop :=
  ∀ (s : State) (i : Instr) (dcl : Bit) (data : List Byte), isFramerCall s.cfg i dcl data → gateOpen i s →
    (∀ (n k : Nat) (ws : List WriteAnswer), framerReady s → n < framedWrites s.cfg data →
      k < framedWriteLength s.cfg data → s.env.writes = List.replicate n .ok ++ .fail k :: ws →
      exec i s = .next { s with
        poisoned := true
        lastError := some ⟨.ioError, 2, { reason := 3, written := some k }⟩
        lines := failedFrameLines s.cfg dcl s.lines
        env := { s.env with writes := ws, drawn := s.env.drawn + (n + 1) }
        trace := s.trace ++ failedFrameEvents s.cfg dcl data n k ++
          [.error ⟨.ioError, 2, { reason := 3, written := some k }⟩]
        result := some (.error ⟨.ioError, 2, { reason := 3, written := some k }⟩) }) ∧
    (s.transport.isOpen = false → held s .dc → (s.cfg.csMode ≠ .none → held s .cs) →
      exec i s = .next { s with
        poisoned := true
        lastError := some ⟨.ioError, 2, { reason := 4 }⟩
        lines := failedFrameLines s.cfg dcl s.lines
        trace := s.trace ++ (if s.cfg.csMode = .none then [] else [.lineSet .cs s.cfg.csActiveLevel]) ++
          [.lineSet .dc dcl, .error ⟨.ioError, 2, { reason := 4 }⟩]
        result := some (.error ⟨.ioError, 2, { reason := 4 }⟩) }) ∧
    (s.cfg.csMode = .none → (s.line .dc).acquired = false →
      exec i s = .next (rejected s ⟨.resourceError, 1, { reason := 6, role := some .dc }⟩)) ∧
    (s.cfg.csMode ≠ .none → (s.line .cs).acquired = false →
      exec i s = .next (rejected s ⟨.resourceError, 1, { reason := 6, role := some .cs }⟩)) ∧
    (s.cfg.csMode ≠ .none → held s .cs → (s.line .dc).acquired = false →
      exec i s = .next { s with
        poisoned := true
        lastError := some ⟨.resourceError, 1, { reason := 6, role := some .dc }⟩
        lines := s.lines.set .cs { s.line .cs with level := s.cfg.csActiveLevel }
        trace := s.trace ++ [.lineSet .cs s.cfg.csActiveLevel,
          .error ⟨.resourceError, 1, { reason := 6, role := some .dc }⟩]
        result := some (.error ⟨.resourceError, 1, { reason := 6, role := some .dc }⟩) })

/-- For any sequence of successful framer calls, each a command and its data if there is any, the frames of what they append
are those commands with those data, in order, whatever the CS mode and the levels before (R158, R157). -/
def Obligations.FrameLaw : Prop :=
  ∀ (calls : List (Byte × List Byte)) (s t : State) (dc cs : Option Bit),
    runOps (calls.flatMap fun c => expandCmd c.1 c.2) s = some t →
    framesFrom s.cfg dc cs (appended s t) = some (calls.map fun c => .command c.1 c.2)

/-! ## Busy synchronizer -/

/-- WAIT_READY whose polls 1 to k read busy and whose poll k+1 reads ready in time returns Ready(k+1), having polled and
delayed as R170 says; nothing else changes (R176, R170). -/
def Obligations.WaitReadyReturnsReady : Prop :=
  ∀ (s : State) (p : Polarity) (interval timeout k : Nat) (stage : Text),
    gateOpen (.waitReady p interval timeout stage) s → held s .busy → 1 ≤ interval →
    busyAnswers (busyLevel p) k <+: s.env.busy → waitInTime s.build interval timeout k →
    ∃ t, exec (.waitReady p interval timeout stage) s = .next t ∧ t.result = some (.ready (k + 1)) ∧
      t.pollCount = k + 1 ∧ t.trace = s.trace ++ waitEvents s.build (busyLevel p) interval k ∧
      t.phase = s.phase ∧ t.lines = s.lines ∧ t.transport = s.transport ∧ t.entryIndex = s.entryIndex ∧
      t.streamRemaining = s.streamRemaining ∧ sameStatus s t

/-- A busy line stuck at the busy level under Exact timing: WAIT_READY times out at poll ceil(timeout/interval)+1, when
ceil(timeout/interval)*interval has elapsed, less than timeout + interval, and the block is poisoned (R175). -/
def Obligations.StuckBusyTimesOut : Prop :=
  ∀ (s : State) (p : Polarity) (interval timeout n : Nat) (stage : Text),
    gateOpen (.waitReady p interval timeout stage) s → held s .busy → 1 ≤ interval →
    s.build.timing = .exact → s.build.firstPollDelay = 0 → n = (timeout + interval - 1) / interval →
    List.replicate (n + 1) (busyLevel p) <+: s.env.busy →
    ∃ t, exec (.waitReady p interval timeout stage) s = .next t ∧
      t.result = some (.error
        ⟨.timeoutError, 3, { reason := 1, stage := some stage, polls := some (n + 1) }⟩) ∧
      t.pollCount = n + 1 ∧ t.poisoned = true ∧ t.env.clock = s.env.clock + n * interval ∧
      timeout ≤ n * interval ∧ n * interval < timeout + interval ∧
      t.phase = s.phase ∧ t.lines = s.lines ∧ t.transport = s.transport

/-- Under either timing model and for every answer of every draw, a wait on a held BUSY line ends within
ceil(timeout/interval)+1 polls: Ready at a ready poll it took itself, all before it busy, or a timeout at a busy poll, and only
when at least the timeout has elapsed since the time read at its start, which is no earlier than the operation
(R172 to R175, R38; the clock is log 7 and 8). -/
def Obligations.WaitReadyBounded : Prop :=
  ∀ (s : State) (p : Polarity) (interval timeout : Nat) (stage : Text),
    gateOpen (.waitReady p interval timeout stage) s → held s .busy → 1 ≤ interval →
    ∃ t k, exec (.waitReady p interval timeout stage) s = .next t ∧
      k ≤ (timeout + interval - 1) / interval ∧ t.pollCount = k + 1 ∧
      ((t.result = some (.ready (k + 1)) ∧
          t.trace = s.trace ++ waitEvents s.build (busyLevel p) interval k) ∨
       (t.result = some (.error
            ⟨.timeoutError, 3, { reason := 1, stage := some stage, polls := some (k + 1) }⟩) ∧
          t.poisoned = true ∧ s.env.clock ≤ (now s).1 ∧ (now s).1 + timeout ≤ t.env.clock ∧
          (waitEvents s.build (busyLevel p) interval k).dropLast ++ [.lineGet .busy (busyLevel p),
              .error ⟨.timeoutError, 3, { reason := 1, stage := some stage, polls := some (k + 1) }⟩] =
            appended s t))

/-- WAIT_READY with interval 0 raises BadParameter before any action; with BUSY not acquired its first poll raises NotAcquired
and POLL_COUNT is 0; neither poisons (R170). -/
def Obligations.WaitReadyRejects : Prop :=
  ∀ (s : State) (p : Polarity) (interval timeout : Nat) (stage : Text),
    gateOpen (.waitReady p interval timeout stage) s →
    (interval = 0 →
      exec (.waitReady p interval timeout stage) s =
        .next (rejected s ⟨.configError, 4, { reason := 8 }⟩)) ∧
    (1 ≤ interval → (s.line .busy).acquired = false → s.build.firstPollDelay = 0 →
      ∃ env, exec (.waitReady p interval timeout stage) s =
        .next { rejected s ⟨.resourceError, 1, { reason := 6, role := some .busy }⟩ with
          pollCount := 0
          env := env })

/-! ## Bit-packer -/

/-- FB_CHECK accepts exactly the framebuffers R190 says and names the first check that fails; it changes nothing but the
result and what an error's delivery writes. -/
def Obligations.FbCheckDecides : Prop :=
  ∀ (s : State) (fb : Framebuffer), gateOpen (.fbCheck fb) s →
    ((fb.width < 1 ∨ fb.height < 1 ∨ 65535 < fb.width ∨ 65535 < fb.height) →
      exec (.fbCheck fb) s = .next (rejected s ⟨.configError, 4, { reason := 2 }⟩)) ∧
    (1 ≤ fb.width → 1 ≤ fb.height → fb.width ≤ 65535 → fb.height ≤ 65535 →
      (fb.encoding = .mono1bpp → fb.width % 8 ≠ 0 →
        exec (.fbCheck fb) s = .next (rejected s ⟨.configError, 4, { reason := 6 }⟩)) ∧
      (fb.encoding = .mono1bpp → fb.width % 8 = 0 → fb.bytes.length = fb.width * fb.height / 8 →
        exec (.fbCheck fb) s = .next { s with result := some .ok }) ∧
      (fb.encoding = .mono1bpp → fb.width % 8 = 0 → fb.bytes.length ≠ fb.width * fb.height / 8 →
        exec (.fbCheck fb) s = .next (rejected s ⟨.configError, 4, { reason := 2 }⟩)) ∧
      (fb.encoding = .rgb565 → fb.bytes.length = 2 * (fb.width * fb.height) →
        exec (.fbCheck fb) s = .next { s with result := some .ok }) ∧
      (fb.encoding = .rgb565 → fb.bytes.length ≠ 2 * (fb.width * fb.height) →
        exec (.fbCheck fb) s = .next (rejected s ⟨.configError, 4, { reason := 2 }⟩)))

/-- ENCODE_MONO packs pixel i of a row-major image into bit 7 - (i % 8) of byte i / 8, 0 for black and 1 for white, and no
other byte; it rejects dimensions out of range, a width that is no multiple of 8, and a map of the wrong length (R192, R62). -/
def Obligations.EncodeMonoPacks : Prop :=
  ∀ (s : State) (w h : Nat) (m : List Byte), gateOpen (.encodeMono w h m) s →
    ((w < 1 ∨ h < 1 ∨ 65535 < w ∨ 65535 < h) →
      exec (.encodeMono w h m) s = .next (rejected s ⟨.configError, 4, { reason := 2 }⟩)) ∧
    (1 ≤ w → 1 ≤ h → w ≤ 65535 → h ≤ 65535 →
      (w % 8 ≠ 0 → exec (.encodeMono w h m) s = .next (rejected s ⟨.configError, 4, { reason := 6 }⟩)) ∧
      (w % 8 = 0 → m.length ≠ w * h →
        exec (.encodeMono w h m) s = .next (rejected s ⟨.configError, 4, { reason := 2 }⟩)) ∧
      (w % 8 = 0 → m.length = w * h →
        ∃ bytes, exec (.encodeMono w h m) s = .next { s with result := some (.frame ⟨w, h, .mono1bpp, bytes⟩) } ∧
          bytes.length = w * h / 8 ∧
          ∀ i < w * h, (bytes.getD (i / 8) 0).getLsbD (7 - i % 8) = decide (m.getD i 0 = 0)))

/-- The result of ENCODE_MONO passes FB_CHECK: its width is a multiple of 8 and its length is width*height/8,
which is ceil(width*height/8) (R193). -/
def Obligations.EncodeMonoPassesFbCheck : Prop :=
  ∀ (s t : State) (w h : Nat) (m : List Byte) (fb : Framebuffer), exec (.encodeMono w h m) s = .next t →
    t.result = some (.frame fb) →
    fb.width % 8 = 0 ∧ fb.bytes.length = fb.width * fb.height / 8 ∧
      fb.width * fb.height / 8 = (fb.width * fb.height + 7) / 8 ∧
      exec (.fbCheck fb) t = .next { t with result := some .ok }

/-- DECODE_MONO gives each pixel of a valid Mono1bpp buffer, 0x01 for black and 0x00 for white; a valid Rgb565 buffer is
WrongEncoding; an invalid buffer gets FB_CHECK's error (R194). -/
def Obligations.DecodeMonoReads : Prop :=
  ∀ (s : State) (fb : Framebuffer), gateOpen (.decodeMono fb) s →
    (fbCheck fb = .ok () → fb.encoding = .mono1bpp →
      ∃ m, exec (.decodeMono fb) s = .next { s with result := some (.blackmap m) } ∧
        m.length = fb.width * fb.height ∧
        ∀ i < fb.width * fb.height,
          m.getD i 7 = if (fb.bytes.getD (i / 8) 0).getLsbD (7 - i % 8) then 0x00 else 0x01) ∧
    (fbCheck fb = .ok () → fb.encoding = .rgb565 →
      exec (.decodeMono fb) s = .next (rejected s ⟨.configError, 4, { reason := 7 }⟩)) ∧
    (∀ e, fbCheck fb = .error e → exec (.decodeMono fb) s = .next (rejected s e))

/-- Encoding and decoding Mono1bpp images undo each other: for every predicate, and for every valid buffer (R195). -/
def Obligations.MonoRoundTrip : Prop :=
  (∀ (w h : Nat) (black : Nat → Nat → Bool), 8 ≤ w → w ≤ 65535 → w % 8 = 0 → 1 ≤ h → h ≤ 65535 →
    ∃ m, decodeMono (packMono w h black) = .ok m ∧ m.length = w * h ∧
      (∀ r < h, ∀ c < w, blackAt w m r c = black r c) ∧ encodeMono w h m = .ok (packMono w h black)) ∧
  (∀ fb : Framebuffer, fb.encoding = .mono1bpp → fbCheck fb = .ok () →
    ∃ m, decodeMono fb = .ok m ∧ encodeMono fb.width fb.height m = .ok fb)

/-- ENCODE_RGB565 writes pixel k as its high byte at 2k and its low byte at 2k+1; it rejects dimensions out of range and a
wrong number of colours (R196, R61). -/
def Obligations.EncodeRgb565Serialises : Prop :=
  ∀ (s : State) (w h : Nat) (cs : List U16), gateOpen (.encodeRgb565 w h cs) s →
    ((w < 1 ∨ h < 1 ∨ 65535 < w ∨ 65535 < h ∨ cs.length ≠ w * h) →
      exec (.encodeRgb565 w h cs) s = .next (rejected s ⟨.configError, 4, { reason := 2 }⟩)) ∧
    (1 ≤ w → 1 ≤ h → w ≤ 65535 → h ≤ 65535 → cs.length = w * h →
      ∃ bytes, exec (.encodeRgb565 w h cs) s = .next { s with result := some (.frame ⟨w, h, .rgb565, bytes⟩) } ∧
        bytes.length = 2 * (w * h) ∧
        ∀ k < w * h, (bytes.getD (2 * k) 0).toNat = (cs.getD k 0).toNat / 256 ∧
          (bytes.getD (2 * k + 1) 0).toNat = (cs.getD k 0).toNat % 256)

/-- FILL_CHUNKS gives ceil(count / CHUNK_PIXELS) chunks, all but the last of CHUNK_PIXELS whole pixels and the last one no
longer, that together are the colour's two bytes count times (R204, R202). -/
def Obligations.FillChunksCover : Prop :=
  ∀ (s : State) (p : U16) (count : Nat), gateOpen (.fillChunks p count) s → 1 ≤ s.build.chunkPixels →
    ∃ cs, exec (.fillChunks p count) s = .next { s with result := some (.chunks cs) } ∧
      cs.length = (count + s.build.chunkPixels - 1) / s.build.chunkPixels ∧
      (∀ ch ∈ cs.dropLast, ch.length = 2 * s.build.chunkPixels) ∧
      (∀ ch ∈ cs, 0 < ch.length ∧ ch.length ≤ 2 * s.build.chunkPixels ∧ ch.length % 2 = 0) ∧
      cs.flatten = (List.replicate count (be16 p)).flatten

/-- The chunks of a fill carry the bytes ENCODE_RGB565 gives for that many pixels of the colour, and none for no pixel: chunking
changes how the bytes are buffered, never which are sent (R203, for the counts ENCODE_RGB565 takes). -/
def Obligations.FillEquivalence : Prop :=
  ∀ (c n : Nat) (p : U16), 1 ≤ c →
    (n = 0 → (fillChunks c p n).flatten = []) ∧
    (1 ≤ n → n ≤ 65535 →
      encodeRgb565 n 1 (List.replicate n p) = .ok ⟨n, 1, .rgb565, (fillChunks c p n).flatten⟩)

/-- WINDOW_CHECK counts the pixels of a valid window, never 0, and rejects every other window (R200, R198). -/
def Obligations.WindowCheckCounts : Prop :=
  ∀ (s : State) (w h : Nat) (win : Window), gateOpen (.windowCheck w h win) s →
    (win.x0 ≤ win.x1 → win.x1 < w → win.y0 ≤ win.y1 → win.y1 < h →
      exec (.windowCheck w h win) s =
        .next { s with result := some (.count ((win.x1 + 1 - win.x0) * (win.y1 + 1 - win.y0))) } ∧
      1 ≤ (win.x1 + 1 - win.x0) * (win.y1 + 1 - win.y0)) ∧
    ((win.x1 < win.x0 ∨ w ≤ win.x1 ∨ win.y1 < win.y0 ∨ h ≤ win.y1) →
      exec (.windowCheck w h win) s = .next (rejected s ⟨.configError, 4, { reason := 3 }⟩))

/-! ## Sequencer and state machine -/

/-- INIT_APPLY replays a table whose entries all run to their end, strictly in order: command, data if any, busy-wait if set,
delay; the registers are as before but for the counters, the DC and CS levels and ENTRY_INDEX, which is 0 (R230). -/
def Obligations.InitApplyReplays : Prop :=
  ∀ (s : State) (runs : List (Entry × Nat)), gateOpen (.initApply (runs.map Prod.fst)) s →
    (runs ≠ [] → framerReady s) → (∀ r ∈ runs, entryRuns s r) →
    writesOk s ((runs.map (entryWrites s.cfg)).sum) → runs.flatMap (entryBusy s.cfg) <+: s.env.busy →
    ∃ t, exec (.initApply (runs.map Prod.fst)) s = .next t ∧ t.result = some .ok ∧
      t.trace = s.trace ++ runs.flatMap (entryEvents s.cfg s.build) ∧ t.entryIndex = 0 ∧
      t.phase = s.phase ∧ t.transport = s.transport ∧ t.streamRemaining = s.streamRemaining ∧ sameStatus s t ∧
      (∀ r, t.line r = { s.line r with level := (t.line r).level }) ∧
      t.line .rst = s.line .rst ∧ t.line .busy = s.line .busy

/-- A table that fails, in INIT_APPLY or in INITIALIZE, stops at the failing entry: the entries before it ran to their end,
nothing of the ones after it happens, the error and ENTRY_INDEX carry its 1-based number, and the phase is as before (Reset for
INITIALIZE); an entry that is not well-formed is found when it is reached (R236, R230, R233; that such entries exist is
log 23). Where it is the first entry, no event came before the error and the block is not poisoned, in INITIALIZE too: R276's
condition, which the model follows where R233 says of every error that the block is poisoned (log 20). -/
def Obligations.InitApplyStopsAtFailingEntry : Prop :=
  (∀ (s t : State) (i : Instr) (table : List Entry) (e : ErrRec),
    (i = .initApply table ∨ (i = .initializePanel ∧ table = s.cfg.initTable)) → gateOpen i s →
    exec i s = .next t → t.result = some (.error e) →
    (∃ pre en post s₁ e₀ s₂, table = pre ++ en :: post ∧
      applyEntries 1 pre s = .ok () s₁ ∧
      applyEntry en { s₁ with entryIndex := pre.length + 1 } = .err e₀ s₂ ∧
      e = { e₀ with info := { e₀.info with entry := some (pre.length + 1) } } ∧
      t.entryIndex = pre.length + 1 ∧ t.trace = s₂.trace ++ [.error e]) ∧
    t.phase = s.phase ∧ (i = .initializePanel → t.phase = .reset)) ∧
  (∀ (s : State) (i : Instr) (en : Entry) (post : List Entry),
    (i = .initApply (en :: post) ∨ (i = .initializePanel ∧ s.cfg.initTable = en :: post)) → gateOpen i s →
    (256 ≤ en.opcode ∨ ∃ p ∈ en.params, 256 ≤ p) →
    exec i s =
      .next { rejected s ⟨.configError, 4, { reason := 1, entry := some 1 }⟩ with entryIndex := 1 })

/-- SESSION_OPEN of a legal transport configuration with every draw favourable: acquires the configured lines in the order DC,
RST, BUSY, CS, opens the transport, pulses reset, and leaves the state R304 says (R232, R231, R304; that BUSY's level field is
then 0 is the model's choice, log 15). -/
def Obligations.SessionOpenCompletes : Prop :=
  ∀ (s : State) (chips owned ds as : List Bool), gateOpen .sessionOpen s →
    (∀ r ∈ sessionRoles s.cfg, (s.line r).acquired = false) →
    (sessionRoles s.cfg).Pairwise (fun a b => cfgOffset s.cfg a ≠ cfgOffset s.cfg b) →
    s.transport.isOpen = false → s.cfg.spiMode ≤ 3 → s.cfg.spiBitsPerWord = 8 → 1 ≤ s.cfg.spiClockHz →
    s.env.chipOpens = true :: chips →
    s.env.offsetOwned = List.replicate (sessionRoles s.cfg).length false ++ owned →
    s.env.deviceOpens = true :: ds → s.env.deviceAccepts = true :: as →
    ∃ t, exec .sessionOpen s = .next t ∧ t.result = some .ok ∧ t.phase = .reset ∧
      t.trace = s.trace ++ sessionEvents s.cfg ∧
      t.transport = ⟨true, s.cfg.spiPath, s.cfg.spiClockHz, s.cfg.spiMode, s.cfg.spiBitsPerWord, s.cfg.spiBitOrder⟩ ∧
      (∀ r ∈ sessionRoles s.cfg, t.line r = ⟨true, cfgOffset s.cfg r, fixedDirection r, activeLevel s.cfg r,
        if r = .rst then (s.cfg.resetSequence.map ResetStep.level).getLastD s.cfg.rstInitLevel
        else sessionInit s.cfg r⟩) ∧
      (∀ r, r ∉ sessionRoles s.cfg → t.line r = s.line r) ∧
      sameCounters s t ∧ sameStatus s t

/-- A SESSION_OPEN that fails stays in Uninitialized. Where its acquisition fails (two lines at one offset, a line held already,
the chip, an offset owned elsewhere) nothing but the error's delivery and the draws changes, and the block is not poisoned. Where
the transport fails (already open, the device does not open, an illegal configuration, one the device refuses) every line is held,
the transport is as before and the block is poisoned. There is no other failure (R232, R307, R276, R278). -/
def Obligations.SessionOpenFailures : Prop :=
  ∀ s : State, gateOpen .sessionOpen s →
    (∀ (t : State) (e : ErrRec), exec .sessionOpen s = .next t → t.result = some (.error e) →
      t = { rejected s e with env := t.env } ∨
      (t.phase = .uninitialized ∧ t.poisoned = true ∧ t.lastError = some e ∧ t.transport = s.transport ∧
        (∀ r ∈ sessionRoles s.cfg, (t.line r).acquired = true) ∧
        t.trace = s.trace ++ (sessionSpecs s.cfg).map acquireEvent ++ [.error e])) ∧
    (¬ (sessionRoles s.cfg).Pairwise (fun a b => cfgOffset s.cfg a ≠ cfgOffset s.cfg b) →
      ∃ a ∈ sessionRoles s.cfg, ∃ b ∈ sessionRoles s.cfg, a ≠ b ∧ cfgOffset s.cfg a = cfgOffset s.cfg b ∧
        exec .sessionOpen s = .next (rejected s ⟨.resourceError, 1, { reason := 3, role := some a }⟩)) ∧
    ((sessionRoles s.cfg).Pairwise (fun a b => cfgOffset s.cfg a ≠ cfgOffset s.cfg b) →
      (∀ (pre post : List Role) (r : Role), sessionRoles s.cfg = pre ++ r :: post →
        (∀ q ∈ pre, (s.line q).acquired = false) → (s.line r).acquired = true →
        exec .sessionOpen s = .next (rejected s ⟨.resourceError, 1, { reason := 5, role := some r }⟩)) ∧
      ((∀ r ∈ sessionRoles s.cfg, (s.line r).acquired = false) → ∀ chips owned : List Bool,
        (s.env.chipOpens = false :: chips →
          ∃ env, exec .sessionOpen s =
            .next { rejected s ⟨.resourceError, 1, { reason := 1 }⟩ with env := env }) ∧
        (s.env.chipOpens = true :: chips →
          (∀ (pre post : List Role) (r : Role), sessionRoles s.cfg = pre ++ r :: post →
            s.env.offsetOwned = List.replicate pre.length false ++ true :: owned →
            ∃ env, exec .sessionOpen s =
              .next { rejected s ⟨.resourceError, 1, { reason := 2, offset := some (cfgOffset s.cfg r) }⟩ with
                env := env }) ∧
          (s.env.offsetOwned = List.replicate (sessionRoles s.cfg).length false ++ owned → ∀ ds as : List Bool,
            (s.transport.isOpen = true →
              ∃ t, exec .sessionOpen s = .next t ∧ t.poisoned = true ∧
                t.result = some (.error ⟨.configError, 4, { reason := 4 }⟩)) ∧
            (s.transport.isOpen = false → s.env.deviceOpens = false :: ds →
              ∃ t, exec .sessionOpen s = .next t ∧ t.poisoned = true ∧
                t.result = some (.error ⟨.ioError, 2, { reason := 1 }⟩)) ∧
            (s.transport.isOpen = false → s.env.deviceOpens = true :: ds →
              (3 < s.cfg.spiMode ∨ s.cfg.spiBitsPerWord ≠ 8 ∨ s.cfg.spiClockHz = 0 ∨
                s.env.deviceAccepts = false :: as) →
              ∃ t, exec .sessionOpen s = .next t ∧ t.poisoned = true ∧
                t.result = some (.error ⟨.ioError, 2, { reason := 2 }⟩))))))

/-- INITIALIZE replays the configured table, whose entries all run to their end, and leaves phase Initialized (R233, R230). -/
def Obligations.InitializeCompletes : Prop :=
  ∀ (s : State) (runs : List (Entry × Nat)), gateOpen .initializePanel s → runs.map Prod.fst = s.cfg.initTable →
    (runs ≠ [] → framerReady s) → (∀ r ∈ runs, entryRuns s r) →
    writesOk s ((runs.map (entryWrites s.cfg)).sum) → runs.flatMap (entryBusy s.cfg) <+: s.env.busy →
    ∃ t, exec .initializePanel s = .next t ∧ t.result = some .ok ∧ t.phase = .initialized ∧
      t.trace = s.trace ++ runs.flatMap (entryEvents s.cfg s.build) ∧ t.entryIndex = 0 ∧
      t.transport = s.transport ∧ t.streamRemaining = s.streamRemaining ∧ sameStatus s t ∧
      (∀ r, t.line r = { s.line r with level := (t.line r).level }) ∧
      t.line .rst = s.line .rst ∧ t.line .busy = s.line .busy

/-- REFRESH of two frames that fit the panel: the old-data command and frame, the new-data command and frame, the refresh
command, one busy-wait, and back to Initialized (R234). -/
def Obligations.RefreshCompletes : Prop :=
  ∀ (s : State) (old new : Framebuffer) (k : Nat), gateOpen (.refresh old new) s → s.cfg.panelKind = .ePaper →
    frameFits s.cfg old → frameFits s.cfg new → framerReady s → held s .busy → 1 ≤ s.cfg.pollInterval →
    writesOk s (cmdWrites s.cfg old.bytes + cmdWrites s.cfg new.bytes + 1) →
    busyAnswers (busyLevel s.cfg.busyPolarity) k <+: s.env.busy →
    waitInTime s.build s.cfg.pollInterval s.cfg.opTimeout k →
    ∃ t, exec (.refresh old new) s = .next t ∧ t.result = some .ok ∧ t.phase = .initialized ∧
      t.trace = s.trace ++ cmdEvents s.cfg s.cfg.oldDataCmd old.bytes ++
        cmdEvents s.cfg s.cfg.newDataCmd new.bytes ++ commandEvents s.cfg s.cfg.refreshCmd ++
        waitEvents s.build (busyLevel s.cfg.busyPolarity) s.cfg.pollInterval k ∧
      t.pollCount = k + 1 ∧ t.lines = framedLines s.cfg s.cfg.dcCmdLevel s.lines ∧ t.transport = s.transport ∧
      t.entryIndex = s.entryIndex ∧ t.streamRemaining = s.streamRemaining ∧ sameStatus s t

/-- REFRESH on a TFT panel, or of a frame that does not fit the panel, raises a ConfigError before any action: the phase stays
Initialized and the block is not poisoned. The old frame is checked before the new one, and the first that does not fit gives the
reason: UnsupportedWidth for a Mono1bpp frame of good dimensions whose width is no multiple of 8, SizeMismatch for any other
(R234, R190, R280). -/
def Obligations.RefreshRejects : Prop :=
  ∀ (s : State) (old new : Framebuffer), gateOpen (.refresh old new) s →
    (s.cfg.panelKind = .tft →
      exec (.refresh old new) s = .next (rejected s ⟨.configError, 4, { reason := 5 }⟩)) ∧
    (s.cfg.panelKind = .ePaper → ¬ frameFits s.cfg old →
      exec (.refresh old new) s = .next (rejected s ⟨.configError, 4, { reason := frameReason old }⟩)) ∧
    (s.cfg.panelKind = .ePaper → frameFits s.cfg old → ¬ frameFits s.cfg new →
      exec (.refresh old new) s = .next (rejected s ⟨.configError, 4, { reason := frameReason new }⟩))

/-- A REFRESH whose busy line is stuck at the busy level, under Exact timing, times out at poll ceil(timeout/interval)+1 and stays
in phase Refreshing, poisoned, with the stage "refresh" and the poll count in its error (R278, R272, R174, R175; that the stage
is those seven bytes is PRESUMED, log 12). -/
def Obligations.RefreshTimesOut : Prop :=
  ∀ (s : State) (old new : Framebuffer) (n : Nat), gateOpen (.refresh old new) s → s.cfg.panelKind = .ePaper →
    frameFits s.cfg old → frameFits s.cfg new → framerReady s → held s .busy → 1 ≤ s.cfg.pollInterval →
    writesOk s (cmdWrites s.cfg old.bytes + cmdWrites s.cfg new.bytes + 1) →
    s.build.timing = .exact → s.build.firstPollDelay = 0 →
    n = (s.cfg.opTimeout + s.cfg.pollInterval - 1) / s.cfg.pollInterval →
    List.replicate (n + 1) (busyLevel s.cfg.busyPolarity) <+: s.env.busy →
    ∃ t, exec (.refresh old new) s = .next t ∧ t.phase = .refreshing ∧ t.poisoned = true ∧ t.pollCount = n + 1 ∧
      t.lastError = some ⟨.timeoutError, 3,
        { reason := 1, stage := some [0x72, 0x65, 0x66, 0x72, 0x65, 0x73, 0x68], polls := some (n + 1) }⟩ ∧
      t.result = t.lastError.map .error

/-- STREAM_PIXELS of as many pixels as a valid window has: the window commands, then the pixels in pieces with CS held and DC
set once, and back to Initialized with nothing remaining. Where a write of a piece fails it stays in Streaming, poisoned, with
STREAM_REMAINING the pixels not sent by complete writes, CS asserted and DC at the data level; where a window command fails it
stays in Streaming with STREAM_REMAINING as before (R238, R235, R237, R278, R314). -/
def Obligations.StreamPixelsCompletes : Prop :=
  ∀ (s : State) (win : Window) (pixels : List Byte) (pieces : List (List Byte)),
    gateOpen (.streamPixels win pixels) s → s.cfg.panelKind = .tft → buildLegal s.build = true →
    windowValid win s.cfg.panelWidth s.cfg.panelHeight = true → pixels.length = 2 * windowCount win →
    pieces = splitPieces s.build.maxWriteBytes pixels →
    (framerReady s → writesOk s (windowWrites s.cfg + pieces.length) →
      ∃ t, exec (.streamPixels win pixels) s = .next t ∧ t.result = some .ok ∧ t.phase = .initialized ∧
        t.trace = s.trace ++ windowEvents s.cfg win ++ streamEvents s.cfg pieces ∧
        pieces.flatten = pixels ∧ (∀ m, s.build.maxWriteBytes = some m → ∀ p ∈ pieces, p.length ≤ m) ∧
        t.streamRemaining = 0 ∧ t.lines = framedLines s.cfg (!s.cfg.dcCmdLevel) s.lines ∧
        t.transport = s.transport ∧ t.pollCount = s.pollCount ∧ t.entryIndex = s.entryIndex ∧ sameStatus s t) ∧
    (∀ (sent rest : List (List Byte)) (piece : List Byte) (k : Nat) (ws : List WriteAnswer), framerReady s →
      pieces = sent ++ piece :: rest → k < piece.length →
      s.env.writes = List.replicate (windowWrites s.cfg + sent.length) .ok ++ .fail k :: ws →
      exec (.streamPixels win pixels) s = .next (streamFailed s win (windowCount win) sent piece k ws)) ∧
    (∀ (e : ErrRec) (u : State), windowSet win { s with phase := .streaming } = .err e u →
      ∃ t, exec (.streamPixels win pixels) s = .next t ∧ t.result = some (.error e) ∧ t.phase = .streaming ∧
        t.streamRemaining = s.streamRemaining ∧ t.lines = u.lines ∧ t.trace = u.trace ++ [.error e] ∧
        (u.trace ≠ s.trace → t.poisoned = true))

/-- STREAM_FILL of a valid window: the window commands, then the chunks of the fill, each in pieces, with CS held and DC set
once, and back to Initialized with nothing remaining. Where a write of a piece fails it stays in Streaming, poisoned, with
STREAM_REMAINING the pixels not sent by complete writes, CS asserted and DC at the data level; where a window command fails it
stays in Streaming with STREAM_REMAINING as before (R239, R204, R235, R237, R278, R314). -/
def Obligations.StreamFillCompletes : Prop :=
  ∀ (s : State) (win : Window) (color : U16) (pieces : List (List Byte)),
    gateOpen (.streamFill win color) s → s.cfg.panelKind = .tft → buildLegal s.build = true →
    windowValid win s.cfg.panelWidth s.cfg.panelHeight = true →
    pieces = (fillChunks s.build.chunkPixels color (windowCount win)).flatMap (splitPieces s.build.maxWriteBytes) →
    (framerReady s → writesOk s (windowWrites s.cfg + pieces.length) →
      ∃ t, exec (.streamFill win color) s = .next t ∧ t.result = some .ok ∧ t.phase = .initialized ∧
        t.trace = s.trace ++ windowEvents s.cfg win ++ streamEvents s.cfg pieces ∧
        pieces.flatten = (List.replicate (windowCount win) (be16 color)).flatten ∧
        t.streamRemaining = 0 ∧ t.lines = framedLines s.cfg (!s.cfg.dcCmdLevel) s.lines ∧
        t.transport = s.transport ∧ t.pollCount = s.pollCount ∧ t.entryIndex = s.entryIndex ∧ sameStatus s t) ∧
    (∀ (sent rest : List (List Byte)) (piece : List Byte) (k : Nat) (ws : List WriteAnswer), framerReady s →
      pieces = sent ++ piece :: rest → k < piece.length →
      s.env.writes = List.replicate (windowWrites s.cfg + sent.length) .ok ++ .fail k :: ws →
      exec (.streamFill win color) s = .next (streamFailed s win (windowCount win) sent piece k ws)) ∧
    (∀ (e : ErrRec) (u : State), windowSet win { s with phase := .streaming } = .err e u →
      ∃ t, exec (.streamFill win color) s = .next t ∧ t.result = some (.error e) ∧ t.phase = .streaming ∧
        t.streamRemaining = s.streamRemaining ∧ t.lines = u.lines ∧ t.trace = u.trace ++ [.error e] ∧
        (u.trace ≠ s.trace → t.poisoned = true))

/-- A successful STREAM_FILL and a successful STREAM_PIXELS of as many pixels of that colour are the same to the panel: the
same line events and bytes in the same order, however they are split into writes (R36, R201, R239). -/
def Obligations.FillLooksLikePixels : Prop :=
  ∀ (s t u : State) (win : Window) (color : U16) (pixels : List Byte), buildLegal s.build = true →
    exec (.streamFill win color) s = .next t → t.result = some .ok →
    pixels = (List.replicate (windowCount win) (be16 color)).flatten →
    exec (.streamPixels win pixels) s = .next u → u.result = some .ok →
    panelView (appended s t) = panelView (appended s u)

/-- A stream on an e-paper panel, of a window out of bounds, or of a pixel buffer of the wrong length raises its ConfigError, in
that order, before any action (R238, R239, R280). -/
def Obligations.StreamRejects : Prop :=
  ∀ (s : State) (win : Window) (pixels : List Byte) (color : U16), gateOpen (.streamFill win color) s →
    (s.cfg.panelKind = .ePaper →
      exec (.streamPixels win pixels) s = .next (rejected s ⟨.configError, 4, { reason := 5 }⟩) ∧
      exec (.streamFill win color) s = .next (rejected s ⟨.configError, 4, { reason := 5 }⟩)) ∧
    (s.cfg.panelKind = .tft → windowValid win s.cfg.panelWidth s.cfg.panelHeight = false →
      exec (.streamPixels win pixels) s = .next (rejected s ⟨.configError, 4, { reason := 3 }⟩) ∧
      exec (.streamFill win color) s = .next (rejected s ⟨.configError, 4, { reason := 3 }⟩)) ∧
    (s.cfg.panelKind = .tft → windowValid win s.cfg.panelWidth s.cfg.panelHeight = true →
      pixels.length ≠ 2 * windowCount win →
      exec (.streamPixels win pixels) s = .next (rejected s ⟨.configError, 4, { reason := 2 }⟩))

/-- SLEEP sends the power-off command, waits where the panel has a busy line and only there, sends the deep-sleep command and
its parameters, and leaves phase Sleeping (R240). -/
def Obligations.SleepCompletes : Prop :=
  ∀ (s : State) (k : Nat), gateOpen .sleep s → framerReady s →
    writesOk s (1 + cmdWrites s.cfg s.cfg.deepSleepParams) →
    (s.cfg.busyPresent = true → held s .busy ∧ 1 ≤ s.cfg.pollInterval ∧
      busyAnswers (busyLevel s.cfg.busyPolarity) k <+: s.env.busy ∧
      waitInTime s.build s.cfg.pollInterval s.cfg.opTimeout k) →
    ∃ t, exec .sleep s = .next t ∧ t.result = some .ok ∧ t.phase = .sleeping ∧
      t.trace = s.trace ++ commandEvents s.cfg s.cfg.powerOffCmd ++
        (if s.cfg.busyPresent then
          waitEvents s.build (busyLevel s.cfg.busyPolarity) s.cfg.pollInterval k else []) ++
        cmdEvents s.cfg s.cfg.deepSleepCmd s.cfg.deepSleepParams ∧
      t.pollCount = (if s.cfg.busyPresent then k + 1 else s.pollCount) ∧
      t.lines = framedLines s.cfg
        (if s.cfg.deepSleepParams.isEmpty then s.cfg.dcCmdLevel else !s.cfg.dcCmdLevel) s.lines ∧
      t.transport = s.transport ∧ t.entryIndex = s.entryIndex ∧ t.streamRemaining = s.streamRemaining ∧
      sameStatus s t

/-- TEARDOWN completes in every phase, poisoned or not: the held lines are given back in order, the transport closes, the phase
is Closed, and poisoned and last_error stay; on a closed block it does nothing (R241). -/
def Obligations.TeardownReleasesAll : Prop :=
  ∀ s : State,
    (s.phase = .closed → exec .teardown s = .next { s with result := some .ok }) ∧
    (s.phase ≠ .closed → ∃ t, exec .teardown s = .next t ∧ t.result = some .ok ∧ t.phase = .closed ∧
      t.trace = s.trace ++ releaseEvents s ++ closeEvents s ∧
      (∀ r, t.line r = { s.line r with acquired := false, level := (t.line r).level }) ∧
      t.transport = { s.transport with isOpen := false } ∧ sameCounters s t ∧ sameStatus s t)

/-! ## The whole block -/

/-- The admission gate: every operation but TEARDOWN is refused on a closed block, and raises InvalidState with no action and
no poisoning where the block is poisoned or the phase is not in its admission set; TEARDOWN is always admitted (R277). -/
def Obligations.AdmissionGate : Prop :=
  (∀ (i : Instr) (s : State), i ≠ .teardown →
    (s.phase = .closed → exec i s = .refused .noSession) ∧
    (s.phase ≠ .closed → (s.poisoned = true ∨ admission i s.phase = false) →
      exec i s = .next (rejected s ⟨.configError, 4, { reason := 4 }⟩))) ∧
  (∀ s : State, ∃ t, exec .teardown s = .next t ∧ t.result = some .ok)

/-- Every operation that ends returns either a value, leaving poisoned and last_error as they were and appending no Error event,
or one error: then last_error is that error, the Error event is the last one and the only one, the code is the kind's, and the
block is newly poisoned iff an event came before it (R276, R270, R275, R280). -/
def Obligations.ErrorDelivery : Prop :=
  ∀ (i : Instr) (s t : State), exec i s = .next t →
    ∃ es, (∀ x ∈ es, isError x = false) ∧
      ((∃ v, t.result = some v ∧ isErrorResult v = false ∧ t.trace = s.trace ++ es ∧
          t.poisoned = s.poisoned ∧ t.lastError = s.lastError) ∨
       (∃ e, t.result = some (.error e) ∧ t.trace = s.trace ++ es ++ [.error e] ∧
          t.poisoned = (s.poisoned || !es.isEmpty) ∧ t.lastError = some e ∧
          e.code = (match e.kind with
            | .resourceError => 1
            | .ioError => 2
            | .timeoutError => 3
            | .configError => 4)))

/-- A step only appends to the trace and never changes the configuration or the build parameters (R35, R34). -/
def Obligations.TraceGrowsConfigurationStays : Prop :=
  ∀ s t : State, step s = .next t → s.trace <+: t.trace ∧ t.cfg = s.cfg ∧ t.build = s.build

/-- No operation returns a block to Uninitialized or clears poisoned; after TEARDOWN the block is Closed and refuses every
operation but TEARDOWN (R302). -/
def Obligations.NoWarmReset : Prop :=
  ∀ (i : Instr) (s t : State), exec i s = .next t →
    (t.phase = .uninitialized → s.phase = .uninitialized) ∧
    (s.poisoned = true → t.poisoned = true) ∧
    (i = .teardown → t.phase = .closed ∧ ∀ j : Instr, j ≠ .teardown → exec j t = .refused .noSession)

/-- The phase after an operation: R242's table where it succeeds, and where it fails the phase it held when the error was raised.
That is the phase before, but for a REFRESH or a stream that failed after its validation: it stays in Refreshing or Streaming.
An error that an event of the operation came before, and an error of another kind than ConfigError, came after the validation;
a ConfigError with no event before it is the gate's or the validation's (R242, R278, R234, R238, R239; that the phase is written
where the error then comes before any event is log 18). -/
def Obligations.PhaseTransitions : Prop :=
  ∀ (i : Instr) (s t : State), exec i s = .next t →
    (∀ v, t.result = some v → isErrorResult v = false → t.phase = phaseAfter i s.phase) ∧
    (∀ e, t.result = some (.error e) →
      (phaseInside i = none → t.phase = s.phase) ∧
      (∀ p, phaseInside i = some p →
        ((appended s t ≠ [.error e] ∨ e.kind ≠ .configError) → t.phase = p) ∧
        ((appended s t = [.error e] ∧ e.kind = .configError) → t.phase = s.phase)))

/-- Every step keeps what holds of every reachable state: the fixed fields of the lines, what is held and driven as the trace
says, the transport's configuration, the error registers, a closed block holding nothing, the clock (log 7
and 8). -/
def Obligations.StepKeepsBlockInv : Prop :=
  ∀ s t : State, blockInv s → step s = .next t → blockInv t

/-- A block just created from a legal configuration meets the invariant, the model's reset state, which is configuration E
(log 1 and 2), among them. -/
def Obligations.CreationMeetsBlockInv : Prop :=
  (∀ (c : Cfg) (b : Build) (s : State), create c b = some s → blockInv s) ∧ blockInv State.reset

/-- The end-to-end law: SESSION_OPEN, INITIALIZE, REFRESH and SLEEP of a legal e-paper configuration with favourable draws and
a busy oracle that answers ready within each timeout append exactly these parts in this order (R243). -/
def Obligations.EndToEndSession : Prop :=
  ∀ (c : Cfg) (b : Build) (s : State) (runs : List (Entry × Nat)) (old new : Framebuffer) (k₁ k₂ : Nat)
    (chips owned ds as : List Bool),
    c.panelKind = .ePaper → create c b = some { s with env := (State.created c b).env } →
    (sessionRoles c).Pairwise (fun x y => cfgOffset c x ≠ cfgOffset c y) →
    runs.map Prod.fst = c.initTable →
    (∀ r ∈ runs, entryWellFormed r.1 = true ∧
      (r.1.busyWait = true → waitInTime b c.pollInterval c.opTimeout r.2)) →
    frameFits c old → frameFits c new →
    waitInTime b c.pollInterval c.opTimeout k₁ → waitInTime b c.pollInterval c.opTimeout k₂ →
    s.env.chipOpens = true :: chips → s.env.offsetOwned = List.replicate (sessionRoles c).length false ++ owned →
    s.env.deviceOpens = true :: ds → s.env.deviceAccepts = true :: as →
    writesOk s ((runs.map (entryWrites c)).sum + (cmdWrites c old.bytes + cmdWrites c new.bytes + 1) +
      (1 + cmdWrites c c.deepSleepParams)) →
    runs.flatMap (entryBusy c) ++ busyAnswers (busyLevel c.busyPolarity) k₁ ++
      busyAnswers (busyLevel c.busyPolarity) k₂ <+: s.env.busy →
    ∃ t, runOps [.sessionOpen, .initializePanel, .refresh old new, .sleep] s = some t ∧ t.phase = .sleeping ∧
      c.deepSleepParams.length = 1 ∧
      t.trace = sessionEvents c ++ runs.flatMap (entryEvents c b) ++
        cmdEvents c c.oldDataCmd old.bytes ++ cmdEvents c c.newDataCmd new.bytes ++
        commandEvents c c.refreshCmd ++ waitEvents b (busyLevel c.busyPolarity) c.pollInterval k₁ ++
        commandEvents c c.powerOffCmd ++ waitEvents b (busyLevel c.busyPolarity) c.pollInterval k₂ ++
        cmdEvents c c.deepSleepCmd c.deepSleepParams
end

