-- ==== Sys2Proof/Laws/State.lean ====
section
/-! SUPPORT. One lemma per field per update of State, true by unfolding, for simp. -/

namespace Sys2Proof.Machine

open Sys2Proof

/-! ## emit -/

@[simp] theorem State.emit_phase (s : State) (e : Event) : (s.emit e).phase = s.phase := rfl
@[simp] theorem State.emit_poisoned (s : State) (e : Event) : (s.emit e).poisoned = s.poisoned := rfl
@[simp] theorem State.emit_lastError (s : State) (e : Event) : (s.emit e).lastError = s.lastError := rfl
@[simp] theorem State.emit_lines (s : State) (e : Event) : (s.emit e).lines = s.lines := rfl
@[simp] theorem State.emit_transport (s : State) (e : Event) : (s.emit e).transport = s.transport := rfl
@[simp] theorem State.emit_pollCount (s : State) (e : Event) : (s.emit e).pollCount = s.pollCount := rfl
@[simp] theorem State.emit_entryIndex (s : State) (e : Event) : (s.emit e).entryIndex = s.entryIndex := rfl
@[simp] theorem State.emit_streamRemaining (s : State) (e : Event) : (s.emit e).streamRemaining = s.streamRemaining := rfl
@[simp] theorem State.emit_trace (s : State) (e : Event) : (s.emit e).trace = s.trace ++ [e] := rfl
@[simp] theorem State.emit_cfg (s : State) (e : Event) : (s.emit e).cfg = s.cfg := rfl
@[simp] theorem State.emit_build (s : State) (e : Event) : (s.emit e).build = s.build := rfl
@[simp] theorem State.emit_env (s : State) (e : Event) : (s.emit e).env = s.env := rfl
@[simp] theorem State.emit_input (s : State) (e : Event) : (s.emit e).input = s.input := rfl
@[simp] theorem State.emit_result (s : State) (e : Event) : (s.emit e).result = s.result := rfl
@[simp] theorem State.emit_line (s : State) (e : Event) (q : Role) : (s.emit e).line q = s.line q := rfl

/-! ## setPhase -/

@[simp] theorem State.setPhase_phase (s : State) (p : Phase) : (s.setPhase p).phase = p := rfl
@[simp] theorem State.setPhase_poisoned (s : State) (p : Phase) : (s.setPhase p).poisoned = s.poisoned := rfl
@[simp] theorem State.setPhase_lastError (s : State) (p : Phase) : (s.setPhase p).lastError = s.lastError := rfl
@[simp] theorem State.setPhase_lines (s : State) (p : Phase) : (s.setPhase p).lines = s.lines := rfl
@[simp] theorem State.setPhase_transport (s : State) (p : Phase) : (s.setPhase p).transport = s.transport := rfl
@[simp] theorem State.setPhase_pollCount (s : State) (p : Phase) : (s.setPhase p).pollCount = s.pollCount := rfl
@[simp] theorem State.setPhase_entryIndex (s : State) (p : Phase) : (s.setPhase p).entryIndex = s.entryIndex := rfl
@[simp] theorem State.setPhase_streamRemaining (s : State) (p : Phase) : (s.setPhase p).streamRemaining = s.streamRemaining := rfl
@[simp] theorem State.setPhase_trace (s : State) (p : Phase) : (s.setPhase p).trace = s.trace := rfl
@[simp] theorem State.setPhase_cfg (s : State) (p : Phase) : (s.setPhase p).cfg = s.cfg := rfl
@[simp] theorem State.setPhase_build (s : State) (p : Phase) : (s.setPhase p).build = s.build := rfl
@[simp] theorem State.setPhase_env (s : State) (p : Phase) : (s.setPhase p).env = s.env := rfl
@[simp] theorem State.setPhase_input (s : State) (p : Phase) : (s.setPhase p).input = s.input := rfl
@[simp] theorem State.setPhase_result (s : State) (p : Phase) : (s.setPhase p).result = s.result := rfl
@[simp] theorem State.setPhase_line (s : State) (p : Phase) (q : Role) : (s.setPhase p).line q = s.line q := rfl

/-! ## setTransport -/

@[simp] theorem State.setTransport_phase (s : State) (x : Transport) : (s.setTransport x).phase = s.phase := rfl
@[simp] theorem State.setTransport_poisoned (s : State) (x : Transport) : (s.setTransport x).poisoned = s.poisoned := rfl
@[simp] theorem State.setTransport_lastError (s : State) (x : Transport) : (s.setTransport x).lastError = s.lastError := rfl
@[simp] theorem State.setTransport_lines (s : State) (x : Transport) : (s.setTransport x).lines = s.lines := rfl
@[simp] theorem State.setTransport_transport (s : State) (x : Transport) : (s.setTransport x).transport = x := rfl
@[simp] theorem State.setTransport_pollCount (s : State) (x : Transport) : (s.setTransport x).pollCount = s.pollCount := rfl
@[simp] theorem State.setTransport_entryIndex (s : State) (x : Transport) : (s.setTransport x).entryIndex = s.entryIndex := rfl
@[simp] theorem State.setTransport_streamRemaining (s : State) (x : Transport) : (s.setTransport x).streamRemaining = s.streamRemaining := rfl
@[simp] theorem State.setTransport_trace (s : State) (x : Transport) : (s.setTransport x).trace = s.trace := rfl
@[simp] theorem State.setTransport_cfg (s : State) (x : Transport) : (s.setTransport x).cfg = s.cfg := rfl
@[simp] theorem State.setTransport_build (s : State) (x : Transport) : (s.setTransport x).build = s.build := rfl
@[simp] theorem State.setTransport_env (s : State) (x : Transport) : (s.setTransport x).env = s.env := rfl
@[simp] theorem State.setTransport_input (s : State) (x : Transport) : (s.setTransport x).input = s.input := rfl
@[simp] theorem State.setTransport_result (s : State) (x : Transport) : (s.setTransport x).result = s.result := rfl
@[simp] theorem State.setTransport_line (s : State) (x : Transport) (q : Role) : (s.setTransport x).line q = s.line q := rfl

/-! ## setPollCount -/

@[simp] theorem State.setPollCount_phase (s : State) (n : Nat) : (s.setPollCount n).phase = s.phase := rfl
@[simp] theorem State.setPollCount_poisoned (s : State) (n : Nat) : (s.setPollCount n).poisoned = s.poisoned := rfl
@[simp] theorem State.setPollCount_lastError (s : State) (n : Nat) : (s.setPollCount n).lastError = s.lastError := rfl
@[simp] theorem State.setPollCount_lines (s : State) (n : Nat) : (s.setPollCount n).lines = s.lines := rfl
@[simp] theorem State.setPollCount_transport (s : State) (n : Nat) : (s.setPollCount n).transport = s.transport := rfl
@[simp] theorem State.setPollCount_pollCount (s : State) (n : Nat) : (s.setPollCount n).pollCount = n := rfl
@[simp] theorem State.setPollCount_entryIndex (s : State) (n : Nat) : (s.setPollCount n).entryIndex = s.entryIndex := rfl
@[simp] theorem State.setPollCount_streamRemaining (s : State) (n : Nat) : (s.setPollCount n).streamRemaining = s.streamRemaining := rfl
@[simp] theorem State.setPollCount_trace (s : State) (n : Nat) : (s.setPollCount n).trace = s.trace := rfl
@[simp] theorem State.setPollCount_cfg (s : State) (n : Nat) : (s.setPollCount n).cfg = s.cfg := rfl
@[simp] theorem State.setPollCount_build (s : State) (n : Nat) : (s.setPollCount n).build = s.build := rfl
@[simp] theorem State.setPollCount_env (s : State) (n : Nat) : (s.setPollCount n).env = s.env := rfl
@[simp] theorem State.setPollCount_input (s : State) (n : Nat) : (s.setPollCount n).input = s.input := rfl
@[simp] theorem State.setPollCount_result (s : State) (n : Nat) : (s.setPollCount n).result = s.result := rfl
@[simp] theorem State.setPollCount_line (s : State) (n : Nat) (q : Role) : (s.setPollCount n).line q = s.line q := rfl

/-! ## setEntryIndex -/

@[simp] theorem State.setEntryIndex_phase (s : State) (n : Nat) : (s.setEntryIndex n).phase = s.phase := rfl
@[simp] theorem State.setEntryIndex_poisoned (s : State) (n : Nat) : (s.setEntryIndex n).poisoned = s.poisoned := rfl
@[simp] theorem State.setEntryIndex_lastError (s : State) (n : Nat) : (s.setEntryIndex n).lastError = s.lastError := rfl
@[simp] theorem State.setEntryIndex_lines (s : State) (n : Nat) : (s.setEntryIndex n).lines = s.lines := rfl
@[simp] theorem State.setEntryIndex_transport (s : State) (n : Nat) : (s.setEntryIndex n).transport = s.transport := rfl
@[simp] theorem State.setEntryIndex_pollCount (s : State) (n : Nat) : (s.setEntryIndex n).pollCount = s.pollCount := rfl
@[simp] theorem State.setEntryIndex_entryIndex (s : State) (n : Nat) : (s.setEntryIndex n).entryIndex = n := rfl
@[simp] theorem State.setEntryIndex_streamRemaining (s : State) (n : Nat) : (s.setEntryIndex n).streamRemaining = s.streamRemaining := rfl
@[simp] theorem State.setEntryIndex_trace (s : State) (n : Nat) : (s.setEntryIndex n).trace = s.trace := rfl
@[simp] theorem State.setEntryIndex_cfg (s : State) (n : Nat) : (s.setEntryIndex n).cfg = s.cfg := rfl
@[simp] theorem State.setEntryIndex_build (s : State) (n : Nat) : (s.setEntryIndex n).build = s.build := rfl
@[simp] theorem State.setEntryIndex_env (s : State) (n : Nat) : (s.setEntryIndex n).env = s.env := rfl
@[simp] theorem State.setEntryIndex_input (s : State) (n : Nat) : (s.setEntryIndex n).input = s.input := rfl
@[simp] theorem State.setEntryIndex_result (s : State) (n : Nat) : (s.setEntryIndex n).result = s.result := rfl
@[simp] theorem State.setEntryIndex_line (s : State) (n : Nat) (q : Role) : (s.setEntryIndex n).line q = s.line q := rfl

/-! ## setRemaining -/

@[simp] theorem State.setRemaining_phase (s : State) (n : Nat) : (s.setRemaining n).phase = s.phase := rfl
@[simp] theorem State.setRemaining_poisoned (s : State) (n : Nat) : (s.setRemaining n).poisoned = s.poisoned := rfl
@[simp] theorem State.setRemaining_lastError (s : State) (n : Nat) : (s.setRemaining n).lastError = s.lastError := rfl
@[simp] theorem State.setRemaining_lines (s : State) (n : Nat) : (s.setRemaining n).lines = s.lines := rfl
@[simp] theorem State.setRemaining_transport (s : State) (n : Nat) : (s.setRemaining n).transport = s.transport := rfl
@[simp] theorem State.setRemaining_pollCount (s : State) (n : Nat) : (s.setRemaining n).pollCount = s.pollCount := rfl
@[simp] theorem State.setRemaining_entryIndex (s : State) (n : Nat) : (s.setRemaining n).entryIndex = s.entryIndex := rfl
@[simp] theorem State.setRemaining_streamRemaining (s : State) (n : Nat) : (s.setRemaining n).streamRemaining = n := rfl
@[simp] theorem State.setRemaining_trace (s : State) (n : Nat) : (s.setRemaining n).trace = s.trace := rfl
@[simp] theorem State.setRemaining_cfg (s : State) (n : Nat) : (s.setRemaining n).cfg = s.cfg := rfl
@[simp] theorem State.setRemaining_build (s : State) (n : Nat) : (s.setRemaining n).build = s.build := rfl
@[simp] theorem State.setRemaining_env (s : State) (n : Nat) : (s.setRemaining n).env = s.env := rfl
@[simp] theorem State.setRemaining_input (s : State) (n : Nat) : (s.setRemaining n).input = s.input := rfl
@[simp] theorem State.setRemaining_result (s : State) (n : Nat) : (s.setRemaining n).result = s.result := rfl
@[simp] theorem State.setRemaining_line (s : State) (n : Nat) (q : Role) : (s.setRemaining n).line q = s.line q := rfl

/-! ## setEnv -/

@[simp] theorem State.setEnv_phase (s : State) (x : Env) : (s.setEnv x).phase = s.phase := rfl
@[simp] theorem State.setEnv_poisoned (s : State) (x : Env) : (s.setEnv x).poisoned = s.poisoned := rfl
@[simp] theorem State.setEnv_lastError (s : State) (x : Env) : (s.setEnv x).lastError = s.lastError := rfl
@[simp] theorem State.setEnv_lines (s : State) (x : Env) : (s.setEnv x).lines = s.lines := rfl
@[simp] theorem State.setEnv_transport (s : State) (x : Env) : (s.setEnv x).transport = s.transport := rfl
@[simp] theorem State.setEnv_pollCount (s : State) (x : Env) : (s.setEnv x).pollCount = s.pollCount := rfl
@[simp] theorem State.setEnv_entryIndex (s : State) (x : Env) : (s.setEnv x).entryIndex = s.entryIndex := rfl
@[simp] theorem State.setEnv_streamRemaining (s : State) (x : Env) : (s.setEnv x).streamRemaining = s.streamRemaining := rfl
@[simp] theorem State.setEnv_trace (s : State) (x : Env) : (s.setEnv x).trace = s.trace := rfl
@[simp] theorem State.setEnv_cfg (s : State) (x : Env) : (s.setEnv x).cfg = s.cfg := rfl
@[simp] theorem State.setEnv_build (s : State) (x : Env) : (s.setEnv x).build = s.build := rfl
@[simp] theorem State.setEnv_env (s : State) (x : Env) : (s.setEnv x).env = x := rfl
@[simp] theorem State.setEnv_input (s : State) (x : Env) : (s.setEnv x).input = s.input := rfl
@[simp] theorem State.setEnv_result (s : State) (x : Env) : (s.setEnv x).result = s.result := rfl
@[simp] theorem State.setEnv_line (s : State) (x : Env) (q : Role) : (s.setEnv x).line q = s.line q := rfl

/-! ## setResult -/

@[simp] theorem State.setResult_phase (s : State) (r : Result) : (s.setResult r).phase = s.phase := rfl
@[simp] theorem State.setResult_poisoned (s : State) (r : Result) : (s.setResult r).poisoned = s.poisoned := rfl
@[simp] theorem State.setResult_lastError (s : State) (r : Result) : (s.setResult r).lastError = s.lastError := rfl
@[simp] theorem State.setResult_lines (s : State) (r : Result) : (s.setResult r).lines = s.lines := rfl
@[simp] theorem State.setResult_transport (s : State) (r : Result) : (s.setResult r).transport = s.transport := rfl
@[simp] theorem State.setResult_pollCount (s : State) (r : Result) : (s.setResult r).pollCount = s.pollCount := rfl
@[simp] theorem State.setResult_entryIndex (s : State) (r : Result) : (s.setResult r).entryIndex = s.entryIndex := rfl
@[simp] theorem State.setResult_streamRemaining (s : State) (r : Result) : (s.setResult r).streamRemaining = s.streamRemaining := rfl
@[simp] theorem State.setResult_trace (s : State) (r : Result) : (s.setResult r).trace = s.trace := rfl
@[simp] theorem State.setResult_cfg (s : State) (r : Result) : (s.setResult r).cfg = s.cfg := rfl
@[simp] theorem State.setResult_build (s : State) (r : Result) : (s.setResult r).build = s.build := rfl
@[simp] theorem State.setResult_env (s : State) (r : Result) : (s.setResult r).env = s.env := rfl
@[simp] theorem State.setResult_input (s : State) (r : Result) : (s.setResult r).input = s.input := rfl
@[simp] theorem State.setResult_result (s : State) (r : Result) : (s.setResult r).result = some r := rfl
@[simp] theorem State.setResult_line (s : State) (r : Result) (q : Role) : (s.setResult r).line q = s.line q := rfl

/-! ## setLines -/

@[simp] theorem State.setLines_phase (s : State) (l : Lines) : (s.setLines l).phase = s.phase := rfl
@[simp] theorem State.setLines_poisoned (s : State) (l : Lines) : (s.setLines l).poisoned = s.poisoned := rfl
@[simp] theorem State.setLines_lastError (s : State) (l : Lines) : (s.setLines l).lastError = s.lastError := rfl
@[simp] theorem State.setLines_lines (s : State) (l : Lines) : (s.setLines l).lines = l := rfl
@[simp] theorem State.setLines_transport (s : State) (l : Lines) : (s.setLines l).transport = s.transport := rfl
@[simp] theorem State.setLines_pollCount (s : State) (l : Lines) : (s.setLines l).pollCount = s.pollCount := rfl
@[simp] theorem State.setLines_entryIndex (s : State) (l : Lines) : (s.setLines l).entryIndex = s.entryIndex := rfl
@[simp] theorem State.setLines_streamRemaining (s : State) (l : Lines) : (s.setLines l).streamRemaining = s.streamRemaining := rfl
@[simp] theorem State.setLines_trace (s : State) (l : Lines) : (s.setLines l).trace = s.trace := rfl
@[simp] theorem State.setLines_cfg (s : State) (l : Lines) : (s.setLines l).cfg = s.cfg := rfl
@[simp] theorem State.setLines_build (s : State) (l : Lines) : (s.setLines l).build = s.build := rfl
@[simp] theorem State.setLines_env (s : State) (l : Lines) : (s.setLines l).env = s.env := rfl
@[simp] theorem State.setLines_input (s : State) (l : Lines) : (s.setLines l).input = s.input := rfl
@[simp] theorem State.setLines_result (s : State) (l : Lines) : (s.setLines l).result = s.result := rfl

/-! ## setInput -/

@[simp] theorem State.setInput_phase (s : State) (bs : List Byte) : (s.setInput bs).phase = s.phase := rfl
@[simp] theorem State.setInput_poisoned (s : State) (bs : List Byte) : (s.setInput bs).poisoned = s.poisoned := rfl
@[simp] theorem State.setInput_lastError (s : State) (bs : List Byte) : (s.setInput bs).lastError = s.lastError := rfl
@[simp] theorem State.setInput_lines (s : State) (bs : List Byte) : (s.setInput bs).lines = s.lines := rfl
@[simp] theorem State.setInput_transport (s : State) (bs : List Byte) : (s.setInput bs).transport = s.transport := rfl
@[simp] theorem State.setInput_pollCount (s : State) (bs : List Byte) : (s.setInput bs).pollCount = s.pollCount := rfl
@[simp] theorem State.setInput_entryIndex (s : State) (bs : List Byte) : (s.setInput bs).entryIndex = s.entryIndex := rfl
@[simp] theorem State.setInput_streamRemaining (s : State) (bs : List Byte) : (s.setInput bs).streamRemaining = s.streamRemaining := rfl
@[simp] theorem State.setInput_trace (s : State) (bs : List Byte) : (s.setInput bs).trace = s.trace := rfl
@[simp] theorem State.setInput_cfg (s : State) (bs : List Byte) : (s.setInput bs).cfg = s.cfg := rfl
@[simp] theorem State.setInput_build (s : State) (bs : List Byte) : (s.setInput bs).build = s.build := rfl
@[simp] theorem State.setInput_env (s : State) (bs : List Byte) : (s.setInput bs).env = s.env := rfl
@[simp] theorem State.setInput_input (s : State) (bs : List Byte) : (s.setInput bs).input = bs := rfl
@[simp] theorem State.setInput_result (s : State) (bs : List Byte) : (s.setInput bs).result = s.result := rfl
@[simp] theorem State.setInput_line (s : State) (bs : List Byte) (q : Role) : (s.setInput bs).line q = s.line q := rfl

/-! ## setLine -/

@[simp] theorem State.setLine_phase (s : State) (r : Role) (x : Line) : (s.setLine r x).phase = s.phase := rfl
@[simp] theorem State.setLine_poisoned (s : State) (r : Role) (x : Line) : (s.setLine r x).poisoned = s.poisoned := rfl
@[simp] theorem State.setLine_lastError (s : State) (r : Role) (x : Line) : (s.setLine r x).lastError = s.lastError := rfl
@[simp] theorem State.setLine_lines (s : State) (r : Role) (x : Line) : (s.setLine r x).lines = s.lines.set r x := rfl
@[simp] theorem State.setLine_transport (s : State) (r : Role) (x : Line) : (s.setLine r x).transport = s.transport := rfl
@[simp] theorem State.setLine_pollCount (s : State) (r : Role) (x : Line) : (s.setLine r x).pollCount = s.pollCount := rfl
@[simp] theorem State.setLine_entryIndex (s : State) (r : Role) (x : Line) : (s.setLine r x).entryIndex = s.entryIndex := rfl
@[simp] theorem State.setLine_streamRemaining (s : State) (r : Role) (x : Line) : (s.setLine r x).streamRemaining = s.streamRemaining := rfl
@[simp] theorem State.setLine_trace (s : State) (r : Role) (x : Line) : (s.setLine r x).trace = s.trace := rfl
@[simp] theorem State.setLine_cfg (s : State) (r : Role) (x : Line) : (s.setLine r x).cfg = s.cfg := rfl
@[simp] theorem State.setLine_build (s : State) (r : Role) (x : Line) : (s.setLine r x).build = s.build := rfl
@[simp] theorem State.setLine_env (s : State) (r : Role) (x : Line) : (s.setLine r x).env = s.env := rfl
@[simp] theorem State.setLine_input (s : State) (r : Role) (x : Line) : (s.setLine r x).input = s.input := rfl
@[simp] theorem State.setLine_result (s : State) (r : Role) (x : Line) : (s.setLine r x).result = s.result := rfl

/-! ## Lines -/

@[simp] theorem Lines.get_set_same (l : Lines) (r : Role) (x : Line) : (l.set r x).get r = x := by
  cases r <;> rfl

theorem Lines.get_set_ne (l : Lines) (x : Line) {r q : Role} (h : q ≠ r) : (l.set r x).get q = l.get q := by
  cases r <;> cases q <;> first | rfl | exact absurd rfl h

theorem Lines.get_set (l : Lines) (x : Line) (r q : Role) : (l.set r x).get q = if q = r then x else l.get q := by
  cases r <;> cases q <;> rfl

@[simp] theorem Lines.set_set (l : Lines) (r : Role) (x y : Line) : (l.set r x).set r y = l.set r y := by
  cases r <;> rfl

@[simp] theorem Lines.set_get (l : Lines) (r : Role) : l.set r (l.get r) = l := by
  cases r <;> rfl

theorem Lines.ext_get {l m : Lines} (h : ∀ r, l.get r = m.get r) : l = m := by
  cases l; cases m
  have h1 := h .dc; have h2 := h .rst; have h3 := h .busy; have h4 := h .cs
  simp only [Lines.get] at h1 h2 h3 h4
  simp [h1, h2, h3, h4]

@[simp] theorem State.setLine_line_same (s : State) (r : Role) (x : Line) : (s.setLine r x).line r = x := by
  simp [State.line]

theorem State.setLine_line_ne (s : State) (x : Line) {r q : Role} (h : q ≠ r) :
    (s.setLine r x).line q = s.line q := by
  simp [State.line, Lines.get_set_ne _ _ h]

theorem State.setLine_line (s : State) (x : Line) (r q : Role) :
    (s.setLine r x).line q = if q = r then x else s.line q := by
  simp [State.line, Lines.get_set]

/-! ## deliver and conclude -/

@[simp] theorem deliver_phase (s₀ s : State) (e : ErrRec) : (deliver s₀ s e).phase = s.phase := rfl
@[simp] theorem deliver_poisoned (s₀ s : State) (e : ErrRec) : (deliver s₀ s e).poisoned = (s.poisoned || poisons s₀ s) := rfl
@[simp] theorem deliver_lastError (s₀ s : State) (e : ErrRec) : (deliver s₀ s e).lastError = some e := rfl
@[simp] theorem deliver_lines (s₀ s : State) (e : ErrRec) : (deliver s₀ s e).lines = s.lines := rfl
@[simp] theorem deliver_transport (s₀ s : State) (e : ErrRec) : (deliver s₀ s e).transport = s.transport := rfl
@[simp] theorem deliver_pollCount (s₀ s : State) (e : ErrRec) : (deliver s₀ s e).pollCount = s.pollCount := rfl
@[simp] theorem deliver_entryIndex (s₀ s : State) (e : ErrRec) : (deliver s₀ s e).entryIndex = s.entryIndex := rfl
@[simp] theorem deliver_streamRemaining (s₀ s : State) (e : ErrRec) : (deliver s₀ s e).streamRemaining = s.streamRemaining := rfl
@[simp] theorem deliver_trace (s₀ s : State) (e : ErrRec) : (deliver s₀ s e).trace = s.trace ++ [.error e] := rfl
@[simp] theorem deliver_cfg (s₀ s : State) (e : ErrRec) : (deliver s₀ s e).cfg = s.cfg := rfl
@[simp] theorem deliver_build (s₀ s : State) (e : ErrRec) : (deliver s₀ s e).build = s.build := rfl
@[simp] theorem deliver_env (s₀ s : State) (e : ErrRec) : (deliver s₀ s e).env = s.env := rfl
@[simp] theorem deliver_input (s₀ s : State) (e : ErrRec) : (deliver s₀ s e).input = s.input := rfl
@[simp] theorem deliver_result (s₀ s : State) (e : ErrRec) : (deliver s₀ s e).result = some (.error e) := rfl
@[simp] theorem deliver_line (s₀ s : State) (e : ErrRec) (q : Role) : (deliver s₀ s e).line q = s.line q := rfl
@[simp] theorem conclude_ok (s₀ s : State) (v : Result) : conclude s₀ (.ok v s) = s.setResult v := rfl
@[simp] theorem conclude_err (s₀ s : State) (e : ErrRec) : conclude s₀ (.err e s) = deliver s₀ s e := rfl

/-! ## Draws change only the environment -/

@[simp] theorem drawChipOpens_snd (s : State) : (drawChipOpens s).2 = s.setEnv { s.env with
    chipOpens := (pick s.env.chipOpens Config.freeChipOpens s.env.drawn).2, drawn := s.env.drawn + 1 } := rfl
@[simp] theorem drawOffsetOwned_snd (s : State) : (drawOffsetOwned s).2 = s.setEnv { s.env with
    offsetOwned := (pick s.env.offsetOwned Config.freeOffsetOwned s.env.drawn).2, drawn := s.env.drawn + 1 } := rfl
@[simp] theorem drawDeviceOpens_snd (s : State) : (drawDeviceOpens s).2 = s.setEnv { s.env with
    deviceOpens := (pick s.env.deviceOpens Config.freeDeviceOpens s.env.drawn).2, drawn := s.env.drawn + 1 } := rfl
@[simp] theorem drawDeviceAccepts_snd (s : State) : (drawDeviceAccepts s).2 = s.setEnv { s.env with
    deviceAccepts := (pick s.env.deviceAccepts Config.freeDeviceAccepts s.env.drawn).2, drawn := s.env.drawn + 1 } := rfl
@[simp] theorem drawBusy_snd (s : State) : (drawBusy s).2 = s.setEnv { s.env with
    busy := (pick s.env.busy Config.freeBusyLevel s.env.drawn).2, drawn := s.env.drawn + 1 } := rfl
@[simp] theorem drawReleasedLevel_snd (s : State) : (drawReleasedLevel s).2 = s.setEnv { s.env with
    released := (pick s.env.released Config.freeReleasedLevel s.env.drawn).2, drawn := s.env.drawn + 1 } := rfl
@[simp] theorem drawWrite_snd (s : State) : (drawWrite s).2 = s.setEnv { s.env with
    writes := (pick s.env.writes freeWrite s.env.drawn).2, drawn := s.env.drawn + 1 } := rfl

@[simp] theorem pick_cons {α : Type} (a : α) (rest : List α) (free : Nat → α) (n : Nat) :
    pick (a :: rest) free n = (a, rest) := rfl
@[simp] theorem pick_nil {α : Type} (free : Nat → α) (n : Nat) : pick [] free n = (free n, []) := rfl

/-! ## delay -/

@[simp] theorem delay_phase (s : State) (d : Nat) : (delay d s).phase = s.phase := rfl
@[simp] theorem delay_poisoned (s : State) (d : Nat) : (delay d s).poisoned = s.poisoned := rfl
@[simp] theorem delay_lastError (s : State) (d : Nat) : (delay d s).lastError = s.lastError := rfl
@[simp] theorem delay_lines (s : State) (d : Nat) : (delay d s).lines = s.lines := rfl
@[simp] theorem delay_transport (s : State) (d : Nat) : (delay d s).transport = s.transport := rfl
@[simp] theorem delay_pollCount (s : State) (d : Nat) : (delay d s).pollCount = s.pollCount := rfl
@[simp] theorem delay_entryIndex (s : State) (d : Nat) : (delay d s).entryIndex = s.entryIndex := rfl
@[simp] theorem delay_streamRemaining (s : State) (d : Nat) : (delay d s).streamRemaining = s.streamRemaining := rfl
@[simp] theorem delay_trace (s : State) (d : Nat) : (delay d s).trace = s.trace ++ [.delay d] := rfl
@[simp] theorem delay_cfg (s : State) (d : Nat) : (delay d s).cfg = s.cfg := rfl
@[simp] theorem delay_build (s : State) (d : Nat) : (delay d s).build = s.build := rfl
@[simp] theorem delay_env (s : State) (d : Nat) : (delay d s).env = { s.env with clock := s.env.clock + d } := rfl
@[simp] theorem delay_input (s : State) (d : Nat) : (delay d s).input = s.input := rfl
@[simp] theorem delay_result (s : State) (d : Nat) : (delay d s).result = s.result := rfl
@[simp] theorem delay_line (s : State) (d : Nat) (q : Role) : (delay d s).line q = s.line q := rfl

/-! ## Results of internal forms -/

@[simp] theorem Res.bind_ok {α β : Type} (a : α) (s : State) (f : α → State → Res β) :
    (Res.ok a s).bind f = f a s := rfl
@[simp] theorem Res.bind_err {α β : Type} (e : ErrRec) (s : State) (f : α → State → Res β) :
    (Res.err e s : Res α).bind f = .err e s := rfl
@[simp] theorem Res.map_ok {α β : Type} (f : α → β) (a : α) (s : State) : (Res.ok a s).map f = .ok (f a) s := rfl
@[simp] theorem Res.map_err {α β : Type} (f : α → β) (e : ErrRec) (s : State) :
    (Res.err e s : Res α).map f = .err e s := rfl
@[simp] theorem Res.mapErr_ok {α : Type} (f : ErrRec → ErrRec) (a : α) (s : State) :
    (Res.ok a s).mapErr f = .ok a s := rfl
@[simp] theorem Res.mapErr_err {α : Type} (f : ErrRec → ErrRec) (e : ErrRec) (s : State) :
    (Res.err e s : Res α).mapErr f = .err (f e) s := rfl
@[simp] theorem Res.ofExcept_ok {α : Type} (s : State) (a : α) : Res.ofExcept s (.ok a) = .ok a s := rfl
@[simp] theorem Res.ofExcept_error {α : Type} (s : State) (e : ErrRec) :
    (Res.ofExcept s (.error e) : Res α) = .err e s := rfl

/-- A sequence succeeds iff its first part does and then its second. -/
theorem Res.bind_eq_ok {α β : Type} {r : Res α} {f : α → State → Res β} {b : β} {t : State} :
    r.bind f = .ok b t ↔ ∃ a s, r = .ok a s ∧ f a s = .ok b t := by
  cases r <;> simp

/-- A sequence raises iff its first part does, or that succeeds and its second part does. -/
theorem Res.bind_eq_err {α β : Type} {r : Res α} {f : α → State → Res β} {e : ErrRec} {t : State} :
    r.bind f = .err e t ↔ r = .err e t ∨ ∃ a s, r = .ok a s ∧ f a s = .err e t := by
  cases r <;> simp

theorem Res.map_eq_ok {α β : Type} {r : Res α} {f : α → β} {b : β} {t : State} :
    r.map f = .ok b t ↔ ∃ a, r = .ok a t ∧ f a = b := by
  cases r <;> simp [and_comm]

theorem Res.map_eq_err {α β : Type} {r : Res α} {f : α → β} {e : ErrRec} {t : State} :
    r.map f = .err e t ↔ r = .err e t := by
  cases r <;> simp

end Sys2Proof.Machine
end

