-- ==== Sys2Proof/Laws/Framer.lean ====
section
/-! SUPPORT. What the line, transport and framer operations do: every way each can end, and the exact state a successful
one leaves. -/

namespace Sys2Proof.Machine

open Sys2Proof

/-! ## line_set and line_get -/

/-- Everything `line_set` can do (R121). -/
theorem lineSet_spec (r : Role) (v : Bit) (s : State) :
    ((s.line r).acquired = false ∧ lineSet r v s = .err (errNotAcquired r) s) ∨
    ((s.line r).acquired = true ∧ (s.line r).direction = .input ∧
      lineSet r v s = .err (errWrongDirection r) s) ∨
    ((s.line r).acquired = true ∧ (s.line r).direction = .output ∧
      lineSet r v s = .ok () ((s.setLine r { s.line r with level := v }).emit (.lineSet r v))) := by
  unfold lineSet
  cases ha : (s.line r).acquired
  · simp [ha]
  · cases hd : (s.line r).direction <;> simp [ha, hd]

/-- The state after a line set (R24, R121). -/
def afterSet (s : State) (r : Role) (v : Bit) : State :=
  (s.setLine r { s.line r with level := v }).emit (.lineSet r v)

/-- `line_set` on a held output line succeeds. -/
theorem lineSet_ok {r : Role} {s : State} (v : Bit) (h : held s r) (ho : fixedDirection r = .output) :
    lineSet r v s = .ok () (afterSet s r v) := by
  obtain ⟨ha, hd⟩ := h
  rcases lineSet_spec r v s with ⟨h1, _⟩ | ⟨_, h1, _⟩ | ⟨_, _, h1⟩
  · simp [ha] at h1
  · simp [hd, ho] at h1
  · exact h1

@[simp] theorem afterSet_cfg (s : State) (r : Role) (v : Bit) : (afterSet s r v).cfg = s.cfg := rfl
@[simp] theorem afterSet_build (s : State) (r : Role) (v : Bit) : (afterSet s r v).build = s.build := rfl
@[simp] theorem afterSet_env (s : State) (r : Role) (v : Bit) : (afterSet s r v).env = s.env := rfl
@[simp] theorem afterSet_transport (s : State) (r : Role) (v : Bit) : (afterSet s r v).transport = s.transport := rfl
@[simp] theorem afterSet_trace (s : State) (r : Role) (v : Bit) :
    (afterSet s r v).trace = s.trace ++ [.lineSet r v] := rfl

/-- A level written to a line does not change what is held. -/
@[simp] theorem held_afterSet (s : State) (r q : Role) (v : Bit) : held (afterSet s r v) q ↔ held s q := by
  unfold held afterSet
  rw [State.emit_line, State.setLine_line]
  split <;> simp_all

@[simp] theorem held_emit (s : State) (e : Event) (q : Role) : held (s.emit e) q ↔ held s q := Iff.rfl
@[simp] theorem held_setEnv (s : State) (e : Env) (q : Role) : held (s.setEnv e) q ↔ held s q := Iff.rfl
@[simp] theorem held_setPhase (s : State) (p : Phase) (q : Role) : held (s.setPhase p) q ↔ held s q := Iff.rfl
@[simp] theorem held_setPollCount (s : State) (n : Nat) (q : Role) : held (s.setPollCount n) q ↔ held s q := Iff.rfl
@[simp] theorem held_setEntryIndex (s : State) (n : Nat) (q : Role) : held (s.setEntryIndex n) q ↔ held s q := Iff.rfl
@[simp] theorem held_setRemaining (s : State) (n : Nat) (q : Role) : held (s.setRemaining n) q ↔ held s q := Iff.rfl

/-- Everything `line_get` can do (R122). -/
theorem lineGet_spec (r : Role) (s : State) :
    ((s.line r).acquired = false ∧ lineGet r s = .err (errNotAcquired r) s) ∨
    ((s.line r).acquired = true ∧ (s.line r).direction = .output ∧
      lineGet r s = .err (errWrongDirection r) s) ∨
    ((s.line r).acquired = true ∧ (s.line r).direction = .input ∧
      lineGet r s = .ok (drawBusy s).1 ((drawBusy s).2.emit (.lineGet r (drawBusy s).1))) := by
  unfold lineGet
  cases ha : (s.line r).acquired
  · simp [ha]
  · cases hd : (s.line r).direction <;> simp [ha, hd]

/-! ## spi_write -/

/-- Everything `spi_write` can do (R125, R40). -/
theorem spiWrite_spec (data : List Byte) (s : State) :
    (s.transport.isOpen = false ∧ spiWrite data s = .err errNotOpen s) ∨
    (s.transport.isOpen = true ∧ (drawWrite s).1 = .ok ∧
      spiWrite data s = .ok () ((drawWrite s).2.emit (.spiWrite data true))) ∨
    (s.transport.isOpen = true ∧ ∃ k, (drawWrite s).1 = .fail k ∧
      spiWrite data s = .err (errShortWrite (failedCount k data.length))
        ((drawWrite s).2.emit (.spiWrite (data.take (failedCount k data.length)) false))) := by
  unfold spiWrite
  cases ho : s.transport.isOpen
  · simp
  · cases hd : (drawWrite s).1 <;> simp [hd]

/-- The state after a write answered Ok. -/
def afterWrite (s : State) (data : List Byte) : State :=
  { s with
    env := { s.env with writes := s.env.writes.drop 1, drawn := s.env.drawn + 1 }
    trace := s.trace ++ [.spiWrite data true] }

/-- A write that is answered Ok. -/
theorem spiWrite_ok {s : State} (data : List Byte) (ho : s.transport.isOpen = true) (hw : writesOk s 1) :
    spiWrite data s = .ok () (afterWrite s data) := by
  obtain ⟨ws, hws⟩ := hw
  have hws : s.env.writes = .ok :: ws := by rw [← hws]; rfl
  simp [spiWrite, ho, drawWrite, pick, hws, afterWrite, State.emit, State.setEnv]

/-- A write that fails after `k` bytes (R40). -/
theorem spiWrite_fail {s : State} {data : List Byte} {k : Nat} {ws : List WriteAnswer} (ho : s.transport.isOpen = true)
    (hw : s.env.writes = .fail k :: ws) (hk : k < data.length) :
    spiWrite data s = .err (errShortWrite k) { s with
      env := { s.env with writes := ws, drawn := s.env.drawn + 1 }
      trace := s.trace ++ [.spiWrite (data.take k) false] } := by
  have hd : (drawWrite s).1 = .fail k := by simp [drawWrite, hw]
  have hfc : failedCount k data.length = k := by simp [failedCount]; omega
  simp [spiWrite, ho, hd, hfc, State.emit, State.setEnv, hw]

@[simp] theorem afterWrite_cfg (s : State) (d : List Byte) : (afterWrite s d).cfg = s.cfg := rfl
@[simp] theorem afterWrite_build (s : State) (d : List Byte) : (afterWrite s d).build = s.build := rfl
@[simp] theorem afterWrite_transport (s : State) (d : List Byte) : (afterWrite s d).transport = s.transport := rfl
@[simp] theorem afterWrite_lines (s : State) (d : List Byte) : (afterWrite s d).lines = s.lines := rfl
@[simp] theorem afterWrite_trace (s : State) (d : List Byte) :
    (afterWrite s d).trace = s.trace ++ [.spiWrite d true] := rfl
@[simp] theorem held_afterWrite (s : State) (d : List Byte) (q : Role) : held (afterWrite s d) q ↔ held s q := Iff.rfl

/-! ## framer calls -/

@[simp] theorem writesOk_afterSet (s : State) (r : Role) (v : Bit) (n : Nat) :
    writesOk (afterSet s r v) n ↔ writesOk s n := Iff.rfl

theorem writesOk_le {s : State} {m n : Nat} (h : writesOk s n) (hmn : m ≤ n) : writesOk s m := by
  obtain ⟨ws, hws⟩ := h
  refine ⟨List.replicate (n - m) .ok ++ ws, ?_⟩
  rw [← hws, ← List.append_assoc, List.replicate_append_replicate]
  congr 2
  omega

theorem writesOk_drop {s : State} {m n : Nat} (h : writesOk s (m + n)) {t : State}
    (ht : t.env.writes = s.env.writes.drop m) : writesOk t n := by
  obtain ⟨ws, hws⟩ := h
  refine ⟨ws, ?_⟩
  rw [ht, ← hws]
  simp [List.drop_append]

/-- The writes left after one. -/
theorem writesOk_afterWrite {s : State} {d : List Byte} {n : Nat} (h : writesOk s (1 + n)) :
    writesOk (afterWrite s d) n := writesOk_drop h rfl

theorem framedWrite_ok_none {s : State} {data : List Byte} (dcl : Bit) (hr : framerReady s)
    (hm : s.cfg.csMode = .none) (hw : writesOk s 1) :
    framedWrite dcl data s = .ok () (afterFrame s dcl data) := by
  obtain ⟨ho, hdc, _⟩ := hr
  simp only [framedWrite, hm, lineSet_ok dcl hdc rfl, Res.bind_ok]
  rw [spiWrite_ok data (by simpa using ho) (by simpa using hw)]
  simp [afterWrite, afterSet, afterFrame, framedWrites, framedLines, framedEvents, hm, State.emit, State.setLine,
    State.setLines, State.line, Lines.get]

theorem framedWrite_ok_perCall {s : State} {data : List Byte} (dcl : Bit) (hr : framerReady s)
    (hm : s.cfg.csMode = .perCall) (hw : writesOk s 1) :
    framedWrite dcl data s = .ok () (afterFrame s dcl data) := by
  obtain ⟨ho, hdc, hcs⟩ := hr
  have hcs := hcs (by simp [hm])
  simp only [framedWrite, hm, lineSet_ok _ hcs rfl, Res.bind_ok]
  rw [lineSet_ok dcl (by simpa using hdc) rfl, Res.bind_ok, spiWrite_ok data (by simpa using ho) (by simpa using hw),
    Res.bind_ok, lineSet_ok _ (by simpa using hcs) rfl]
  simp [afterWrite, afterSet, afterFrame, framedWrites, framedLines, framedEvents, hm, State.emit, State.setLine,
    State.setLines, State.line, Lines.get, Lines.set]

/-- The bytes that follow the first in `PerByte` mode. -/
theorem framedBytes_rest {a dcl : Bit} : ∀ (data : List Byte) (s : State), s.transport.isOpen = true → held s .cs →
    writesOk s data.length →
    framedBytes a dcl false data s = .ok ()
      { s with
        lines := if data.isEmpty then s.lines else s.lines.set .cs { s.lines.cs with level := !a }
        env := { s.env with writes := s.env.writes.drop data.length, drawn := s.env.drawn + data.length }
        trace := s.trace ++ data.flatMap fun b => [.lineSet .cs a, .spiWrite [b] true, .lineSet .cs (!a)] } := by
  intro data
  induction data with
  | nil => intro s _ _ _; simp [framedBytes]
  | cons b rest ih =>
    intro s ho hcs hw
    have hw' : writesOk s (1 + rest.length) := by simpa [Nat.add_comm] using hw
    have hw1 : writesOk s 1 := writesOk_le hw' (by omega)
    simp only [framedBytes, lineSet_ok a hcs rfl, Res.bind_ok, Bool.false_eq_true, if_false]
    rw [spiWrite_ok [b] (by simpa using ho) (by simpa using hw1), Res.bind_ok,
      lineSet_ok _ (by simpa using hcs) rfl, Res.bind_ok,
      ih _ (by simpa using ho) (by simpa using hcs)
        (by simpa using writesOk_afterWrite (s := afterSet s .cs a) (d := [b]) (by simpa using hw'))]
    simp [afterWrite, afterSet, State.emit, State.setLine, State.setLines, State.line, Lines.get, Lines.set,
      Nat.add_comm, Nat.add_assoc]

theorem framedWrite_ok_perByte {s : State} {data : List Byte} (dcl : Bit) (hr : framerReady s)
    (hm : s.cfg.csMode = .perByte) (hne : data ≠ []) (hw : writesOk s data.length) :
    framedWrite dcl data s = .ok () (afterFrame s dcl data) := by
  obtain ⟨ho, hdc, hcs⟩ := hr
  have hcs := hcs (by simp [hm])
  obtain ⟨b, rest, rfl⟩ := List.exists_cons_of_ne_nil hne
  have hw' : writesOk s (1 + rest.length) := by simpa [Nat.add_comm] using hw
  have hw1 : writesOk s 1 := writesOk_le hw' (by omega)
  simp only [framedWrite, hm, framedBytes, lineSet_ok _ hcs rfl, Res.bind_ok, if_true]
  rw [lineSet_ok dcl (by simpa using hdc) rfl, Res.bind_ok, spiWrite_ok [b] (by simpa using ho) (by simpa using hw1),
    Res.bind_ok, lineSet_ok _ (by simpa using hcs) rfl, Res.bind_ok,
    framedBytes_rest _ _ (by simpa using ho) (by simpa using hcs)
      (by simpa using writesOk_afterWrite (s := afterSet (afterSet s .cs s.cfg.csActiveLevel) .dc dcl) (d := [b])
            (by simpa using hw'))]
  simp [afterWrite, afterSet, afterFrame, framedWrites, framedLines, framedEvents, hm, State.emit, State.setLine,
    State.setLines, State.line, Lines.get, Lines.set, Nat.add_comm, Nat.add_assoc]

/-- A framer call that finds its lines held, its transport open and its writes answered Ok leaves exactly the state the
rule gives (R152, R156). -/
theorem framedWrite_ok {s : State} {data : List Byte} (dcl : Bit) (hr : framerReady s) (hne : data ≠ [])
    (hw : writesOk s (framedWrites s.cfg data)) :
    framedWrite dcl data s = .ok () (afterFrame s dcl data) := by
  cases hm : s.cfg.csMode with
  | none => exact framedWrite_ok_none dcl hr hm (by simpa [framedWrites, hm] using hw)
  | perCall => exact framedWrite_ok_perCall dcl hr hm (by simpa [framedWrites, hm] using hw)
  | perByte => exact framedWrite_ok_perByte dcl hr hm hne (by simpa [framedWrites, hm] using hw)

theorem sendCommand_ok {s : State} (op : Byte) (hr : framerReady s) (hw : writesOk s 1) :
    sendCommand op s = .ok () (afterFrame s s.cfg.dcCmdLevel [op]) :=
  framedWrite_ok _ hr (by simp) (by simpa [framedWrites] using hw)

theorem sendData_ok {s : State} {data : List Byte} (hr : framerReady s) (hne : data ≠ [])
    (hw : writesOk s (framedWrites s.cfg data)) :
    sendData data s = .ok () (afterFrame s (!s.cfg.dcCmdLevel) data) :=
  framedWrite_ok _ hr hne hw

/-- A framer call keeps what the next one needs. -/
theorem framerReady_afterFrame {s : State} {dcl : Bit} {data : List Byte} (h : framerReady s) :
    framerReady (afterFrame s dcl data) := by
  obtain ⟨ho, hdc, hcs⟩ := h
  refine ⟨ho, ?_, fun hm => ?_⟩
  · simp only [held, State.line, Lines.get, afterFrame, framedLines] at hdc ⊢
    split <;> simpa [Lines.set] using hdc
  · have hcs := hcs hm
    simp only [held, State.line, Lines.get, afterFrame, framedLines] at hcs ⊢
    split <;> simpa [Lines.set] using hcs

/-- A framer call does not touch the BUSY line. -/
theorem held_busy_afterFrame {s : State} {dcl : Bit} {data : List Byte} :
    held (afterFrame s dcl data) .busy ↔ held s .busy := by
  simp only [held, State.line, Lines.get, afterFrame, framedLines]
  split <;> simp [Lines.set]

theorem writesOk_afterFrame {s : State} {dcl : Bit} {data : List Byte} {n : Nat}
    (h : writesOk s (framedWrites s.cfg data + n)) : writesOk (afterFrame s dcl data) n :=
  writesOk_drop h rfl

/-- Only the last framer call shows in the lines. -/
theorem framedLines_framedLines (c : Cfg) (d e : Bit) (l : Lines) :
    framedLines c e (framedLines c d l) = framedLines c e l := by
  unfold framedLines
  split <;> simp [Lines.set]

/-! ## What any successful call appended -/

/-- A line set that succeeded appended its event and left the configuration. -/
theorem lineSet_trace {r : Role} {v : Bit} {s t : State} (h : lineSet r v s = .ok () t) :
    t.trace = s.trace ++ [.lineSet r v] ∧ t.cfg = s.cfg := by
  rcases lineSet_spec r v s with ⟨_, h1⟩ | ⟨_, _, h1⟩ | ⟨_, _, h1⟩ <;> rw [h1] at h <;> cases h
  exact ⟨rfl, rfl⟩

/-- A write that succeeded appended its event and left the configuration. -/
theorem spiWrite_trace {data : List Byte} {s t : State} (h : spiWrite data s = .ok () t) :
    t.trace = s.trace ++ [.spiWrite data true] ∧ t.cfg = s.cfg := by
  rcases spiWrite_spec data s with ⟨_, h1⟩ | ⟨_, _, h1⟩ | ⟨_, _, _, h1⟩ <;> rw [h1] at h <;> cases h
  exact ⟨rfl, rfl⟩

theorem framedBytes_trace {a dcl : Bit} : ∀ (data : List Byte) (s t : State), framedBytes a dcl false data s = .ok () t →
    t.trace = s.trace ++ (data.flatMap fun b => [.lineSet .cs a, .spiWrite [b] true, .lineSet .cs (!a)]) ∧ t.cfg = s.cfg
  | [], s, t, h => by
    simp only [framedBytes, Res.ok.injEq, true_and] at h
    subst h
    simp
  | b :: rest, s, t, h => by
    simp only [framedBytes, Res.bind_eq_ok] at h
    obtain ⟨_, s1, h1, _, s2, h2, _, s3, h3, _, s4, h4, h5⟩ := h
    simp only [Bool.false_eq_true, if_false, Res.ok.injEq, true_and] at h2
    subst h2
    obtain ⟨t1, c1⟩ := lineSet_trace h1
    obtain ⟨t3, c3⟩ := spiWrite_trace h3
    obtain ⟨t4, c4⟩ := lineSet_trace h4
    obtain ⟨t5, c5⟩ := framedBytes_trace rest s4 t h5
    refine ⟨?_, by rw [c5, c4, c3, c1]⟩
    rw [t5, t4, t3, t1]
    simp

/-- A framer call that succeeded appended exactly the events of R152, whatever the draws were. -/
theorem framedWrite_trace {dcl : Bit} {data : List Byte} {s t : State} (h : framedWrite dcl data s = .ok () t) :
    t.trace = s.trace ++ framedEvents s.cfg dcl data ∧ t.cfg = s.cfg := by
  unfold framedWrite at h
  cases hm : s.cfg.csMode with
  | none =>
    simp only [hm, Res.bind_eq_ok] at h
    obtain ⟨_, s1, h1, h2⟩ := h
    obtain ⟨t1, c1⟩ := lineSet_trace h1
    obtain ⟨t2, c2⟩ := spiWrite_trace h2
    exact ⟨by rw [t2, t1]; simp [framedEvents, hm], by rw [c2, c1]⟩
  | perCall =>
    simp only [hm, Res.bind_eq_ok] at h
    obtain ⟨_, s1, h1, _, s2, h2, _, s3, h3, h4⟩ := h
    obtain ⟨t1, c1⟩ := lineSet_trace h1
    obtain ⟨t2, c2⟩ := lineSet_trace h2
    obtain ⟨t3, c3⟩ := spiWrite_trace h3
    obtain ⟨t4, c4⟩ := lineSet_trace h4
    exact ⟨by rw [t4, t3, t2, t1]; simp [framedEvents, hm], by rw [c4, c3, c2, c1]⟩
  | perByte =>
    simp only [hm] at h
    cases data with
    | nil =>
      simp only [framedBytes, Res.ok.injEq, true_and] at h
      subst h
      simp [framedEvents, hm]
    | cons b rest =>
      simp only [framedBytes, if_true, Res.bind_eq_ok] at h
      obtain ⟨_, s1, h1, _, s2, h2, _, s3, h3, _, s4, h4, h5⟩ := h
      obtain ⟨t1, c1⟩ := lineSet_trace h1
      obtain ⟨t2, c2⟩ := lineSet_trace h2
      obtain ⟨t3, c3⟩ := spiWrite_trace h3
      obtain ⟨t4, c4⟩ := lineSet_trace h4
      obtain ⟨t5, c5⟩ := framedBytes_trace rest s4 t h5
      exact ⟨by rw [t5, t4, t3, t2, t1]; simp [framedEvents, hm], by rw [c5, c4, c3, c2, c1]⟩

/-! ## What a framer call raises -/

/-- What a framer action raises is no ConfigError: a line that is not held, or a transport that does not take the bytes (R121,
R125, R155). -/
theorem lineSet_kind {r : Role} {v : Bit} {s u : State} {e : ErrRec} (h : lineSet r v s = .err e u) : e.kind ≠ .configError := by
  rcases lineSet_spec r v s with ⟨_, h1⟩ | ⟨_, _, h1⟩ | ⟨_, _, h1⟩ <;> rw [h1] at h <;> cases h <;>
    simp [errNotAcquired, errWrongDirection, errOf]

theorem spiWrite_kind {data : List Byte} {s u : State} {e : ErrRec} (h : spiWrite data s = .err e u) :
    e.kind ≠ .configError := by
  rcases spiWrite_spec data s with ⟨_, h1⟩ | ⟨_, _, h1⟩ | ⟨_, _, _, h1⟩ <;> rw [h1] at h <;> cases h <;>
    simp [errNotOpen, errShortWrite, errOf]

theorem framedBytes_kind {a dcl : Bit} : ∀ (data : List Byte) (first : Bool) {s u : State} {e : ErrRec},
    framedBytes a dcl first data s = .err e u → e.kind ≠ .configError
  | [], _, _, _, _, h => by cases h
  | b :: rest, first, s, u, e, h => by
    simp only [framedBytes, Res.bind_eq_err] at h
    rcases h with h | ⟨_, _, _, h | ⟨_, _, _, h | ⟨_, _, _, h | ⟨_, _, _, h⟩⟩⟩⟩
    · exact lineSet_kind h
    · cases first
      · cases h
      · exact lineSet_kind h
    · exact spiWrite_kind h
    · exact lineSet_kind h
    · exact framedBytes_kind rest false h

/-- A framer call never raises a ConfigError (R155). -/
theorem framedWrite_kind {dcl : Bit} {data : List Byte} {s u : State} {e : ErrRec} (h : framedWrite dcl data s = .err e u) :
    e.kind ≠ .configError := by
  unfold framedWrite at h
  split at h <;> simp only [Res.bind_eq_err] at h
  · rcases h with h | ⟨_, _, _, h⟩
    · exact lineSet_kind h
    · exact spiWrite_kind h
  · rcases h with h | ⟨_, _, _, h | ⟨_, _, _, h | ⟨_, _, _, h⟩⟩⟩
    · exact lineSet_kind h
    · exact lineSet_kind h
    · exact spiWrite_kind h
    · exact lineSet_kind h
  · exact framedBytes_kind _ _ h

end Sys2Proof.Machine
end

