-- ==== Sys2Proof/Laws/BusySync.lean ====
section
/-! SUPPORT. What reading the time and the busy-wait do: every way a wait can end, and the exact end of one that becomes
ready. -/

namespace Sys2Proof.Machine

open Sys2Proof

/-! ## Now() and Delay -/

/-- Under Exact timing `Now()` reads the clock and changes nothing (R38). -/
theorem now_exact {s : State} (h : s.build.timing = .exact) : now s = (s.env.clock, s) := by
  simp [now, h]

/-- `Now()` changes only the environment (R37). -/
theorem now_state (s : State) : (now s).2 = s.setEnv (now s).2.env := by
  unfold now; split <;> rfl

/-- The time read does not depend on POLL_COUNT. -/
theorem now_setPollCount (s : State) (n : Nat) : (now (s.setPollCount n)).1 = (now s).1 := by
  unfold now; simp only [State.setPollCount_build, State.setPollCount_env]; split <;> rfl

/-- `Now()` never goes back, and the clock is then what it read (R38). -/
theorem now_clock (s : State) : s.env.clock ≤ (now s).1 ∧ (now s).2.env.clock = (now s).1 := by
  unfold now; split <;> simp [State.setEnv]

/-- `Now()` uses up no answer of another kind of draw. -/
theorem now_env (s : State) :
    (now s).2.env.busy = s.env.busy ∧ (now s).2.env.writes = s.env.writes ∧
    (now s).2.env.released = s.env.released ∧ (now s).2.env.chipOpens = s.env.chipOpens ∧
    (now s).2.env.offsetOwned = s.env.offsetOwned ∧ (now s).2.env.deviceOpens = s.env.deviceOpens ∧
    (now s).2.env.deviceAccepts = s.env.deviceAccepts := by
  unfold now; split <;> simp [State.setEnv]

theorem held_eq_of_lines {s t : State} (h : t.lines = s.lines) (r : Role) : held t r ↔ held s r := by
  simp [held, State.line, h]

/-! ## The poll loop -/

/-- The events of `k` polls that read busy, each followed by its delay (R170). -/
def busyPolls (busy : Bit) (interval k : Nat) : List Event :=
  (List.replicate k [Event.lineGet .busy busy, .delay interval]).flatten

theorem busyPolls_succ (busy : Bit) (interval k : Nat) :
    busyPolls busy interval (k + 1) = [.lineGet .busy busy, .delay interval] ++ busyPolls busy interval k := by
  simp [busyPolls, List.replicate_succ]

/-- One poll of a held BUSY line (R122, R170). -/
theorem lineGet_ok {s : State} (h : held s .busy) :
    lineGet .busy s = .ok (drawBusy s).1 ((drawBusy s).2.emit (.lineGet .busy (drawBusy s).1)) := by
  obtain ⟨ha, hd⟩ := h
  rcases lineGet_spec .busy s with ⟨h1, _⟩ | ⟨_, h1, _⟩ | ⟨_, _, h1⟩
  · simp [ha] at h1
  · simp [hd, fixedDirection] at h1
  · exact h1

/-- The state after one poll (R170). -/
def afterPoll (s : State) : State :=
  ((drawBusy s).2.emit (.lineGet .busy (drawBusy s).1)).setPollCount (s.pollCount + 1)

@[simp] theorem afterPoll_trace (s : State) :
    (afterPoll s).trace = s.trace ++ [.lineGet .busy (drawBusy s).1] := rfl
@[simp] theorem afterPoll_clock (s : State) : (afterPoll s).env.clock = s.env.clock := rfl
@[simp] theorem drawBusy_clock (s : State) : (drawBusy s).2.env.clock = s.env.clock := rfl

/-- One round of the loop with the line held (R170, R173). -/
theorem pollLoop_succ {busy : Bit} {interval timeout : Nat} {stage : Text} {t0 fuel : Nat} {s : State}
    (h : held s .busy) :
    pollLoop busy interval timeout stage t0 (fuel + 1) s =
      if (drawBusy s).1 ≠ busy then .ok (s.pollCount + 1) (afterPoll s)
      else if (now (afterPoll s)).1 - t0 ≥ timeout then
        .err (errTimeout stage (now (afterPoll s)).2.pollCount) (now (afterPoll s)).2
      else pollLoop busy interval timeout stage t0 fuel (delay interval (now (afterPoll s)).2) := by
  rw [pollLoop, lineGet_ok h]
  rfl

/-- Nothing but POLL_COUNT, the trace and the environment differs. -/
def waitKeeps (s t : State) : Prop :=
  t.phase = s.phase ∧ t.poisoned = s.poisoned ∧ t.lastError = s.lastError ∧ t.lines = s.lines ∧
    t.transport = s.transport ∧ t.entryIndex = s.entryIndex ∧ t.streamRemaining = s.streamRemaining ∧
    t.cfg = s.cfg ∧ t.build = s.build ∧ t.input = s.input ∧ t.result = s.result

theorem waitKeeps_trans {s u t : State} (h : waitKeeps s u) (h' : waitKeeps u t) : waitKeeps s t := by
  unfold waitKeeps at *
  obtain ⟨a1, a2, a3, a4, a5, a6, a7, a8, a9, a10, a11⟩ := h
  obtain ⟨b1, b2, b3, b4, b5, b6, b7, b8, b9, b10, b11⟩ := h'
  exact ⟨b1.trans a1, b2.trans a2, b3.trans a3, b4.trans a4, b5.trans a5, b6.trans a6, b7.trans a7, b8.trans a8,
    b9.trans a9, b10.trans a10, b11.trans a11⟩

theorem waitKeeps_round (s : State) (e : Env) (interval : Nat) :
    waitKeeps s ((afterPoll s).setEnv e) ∧ waitKeeps s (delay interval ((afterPoll s).setEnv e)) := by
  simp [waitKeeps, afterPoll]

theorem waitKeeps_poll (s : State) : waitKeeps s (afterPoll s) := by
  simp [waitKeeps, afterPoll]

/-- Everything the poll loop can do with the BUSY line held, where `n` rounds of at least `interval` each reach the
timeout: it becomes ready after `k < n` busy polls, or it times out at busy poll `k + 1 ≤ n` (R170, R173, R174). The rest of
the state is as before. -/
theorem pollLoop_spec {busy : Bit} {interval timeout : Nat} {stage : Text} {t0 : Nat} :
    ∀ (n fuel : Nat) (s : State), held s .busy → n ≤ fuel → t0 ≤ s.env.clock → 1 ≤ n →
    timeout ≤ s.env.clock - t0 + (n - 1) * interval →
    ∃ k t, k < n ∧ t.pollCount = s.pollCount + k + 1 ∧
      waitKeeps s t ∧
      t.env.writes = s.env.writes ∧ t.env.released = s.env.released ∧
      s.env.clock + k * interval ≤ t.env.clock ∧
      ((pollLoop busy interval timeout stage t0 fuel s = .ok t.pollCount t ∧
          t.trace = s.trace ++ busyPolls busy interval k ++ [.lineGet .busy (!busy)]) ∨
       (pollLoop busy interval timeout stage t0 fuel s = .err (errTimeout stage t.pollCount) t ∧
          t.trace = s.trace ++ busyPolls busy interval k ++ [.lineGet .busy busy] ∧
          timeout ≤ t.env.clock - t0)) := by
  intro n
  induction n with
  | zero => intro fuel s _ _ _ h1; omega
  | succ n ih =>
    intro fuel s hh hfuel ht0 _ htime
    obtain ⟨fuel, rfl⟩ : ∃ m, fuel = m + 1 := ⟨fuel - 1, by omega⟩
    rw [pollLoop_succ hh]
    by_cases hv : (drawBusy s).1 = busy
    · -- the poll read busy
      have hc := now_clock (afterPoll s)
      have hst := now_state (afterPoll s)
      have hen := now_env (afterPoll s)
      simp only [hv, ne_eq, not_true_eq_false, if_false]
      generalize now (afterPoll s) = p at hc hst hen
      obtain ⟨tm, s2⟩ := p
      obtain ⟨e, rfl⟩ : ∃ e, s2 = (afterPoll s).setEnv e := ⟨_, hst⟩
      obtain ⟨hclk, hce⟩ := hc
      simp only [State.setEnv_env, afterPoll_clock] at hclk hce hen
      obtain ⟨_, hew, her, _⟩ := hen
      have htr : (afterPoll s).trace = s.trace ++ [.lineGet .busy busy] := by simp [hv]
      by_cases htm : tm - t0 ≥ timeout
      · -- and the timeout has elapsed
        refine ⟨0, (afterPoll s).setEnv e, by omega, rfl, (waitKeeps_round s e interval).1, hew, her, ?_, Or.inr ⟨?_, ?_, ?_⟩⟩
        · simp only [State.setEnv_env]; omega
        · rw [if_pos htm]
        · simp [busyPolls, hv]
        · simp only [State.setEnv_env]; omega
      · -- and the loop goes on
        rw [if_neg htm]
        have hn : n ≠ 0 := by
          rintro rfl
          simp at htime
          omega
        have hmul : (n + 1 - 1) * interval = (n - 1) * interval + interval := by
          obtain ⟨m, rfl⟩ : ∃ m, n = m + 1 := ⟨n - 1, by omega⟩
          simp [Nat.add_mul]
        have hcl : (delay interval ((afterPoll s).setEnv e)).env.clock = tm + interval := by
          simp [delay, hce]
        have hl : (delay interval ((afterPoll s).setEnv e)).lines = s.lines := rfl
        obtain ⟨k, t, hk, hpc, ht, hw, hr, hck, hres⟩ := ih fuel (delay interval ((afterPoll s).setEnv e))
          ((held_eq_of_lines (s := s) hl .busy).mpr hh) (by omega) (by rw [hcl]; omega) (by omega) (by rw [hcl]; omega)
        refine ⟨k + 1, t, by omega, ?_, waitKeeps_trans (waitKeeps_round s e interval).2 ht, hw.trans hew, hr.trans her, ?_, ?_⟩
        · rw [hpc]; simp [delay, afterPoll]; omega
        · rw [hcl] at hck
          have : (k + 1) * interval = k * interval + interval := by simp [Nat.add_mul]
          omega
        · have htr' : (delay interval ((afterPoll s).setEnv e)).trace =
              s.trace ++ [.lineGet .busy busy, .delay interval] := by simp [delay, hv]
          rw [htr'] at hres
          simpa [busyPolls_succ] using hres
    · -- the poll read ready
      have hv' : (drawBusy s).1 = !busy := by
        cases h1 : (drawBusy s).1 <;> cases busy <;> simp_all
      refine ⟨0, afterPoll s, by omega, rfl, waitKeeps_poll s, rfl, rfl, by simp, Or.inl ⟨?_, ?_⟩⟩
      · rw [if_pos hv]; rfl
      · simp [busyPolls, hv']

/-- The poll loop under Exact timing, the busy oracle reading busy `k` times and then ready, with no timeout before (R176). -/
theorem pollLoop_ready {busy : Bit} {interval timeout : Nat} {stage : Text} {t0 : Nat} :
    ∀ (k fuel : Nat) (s : State), held s .busy → k < fuel → busyAnswers busy k <+: s.env.busy →
    (k = 0 ∨ (s.build.timing = .exact ∧ s.env.clock + (k - 1) * interval - t0 < timeout)) →
    pollLoop busy interval timeout stage t0 fuel s = .ok (s.pollCount + k + 1)
      { s with
        pollCount := s.pollCount + k + 1
        env := { s.env with
          busy := s.env.busy.drop (k + 1)
          drawn := s.env.drawn + k + 1
          clock := s.env.clock + k * interval }
        trace := s.trace ++ busyPolls busy interval k ++ [.lineGet .busy (!busy)] } := by
  intro k
  induction k with
  | zero =>
    intro fuel s hh hf hb _
    obtain ⟨fuel, rfl⟩ : ∃ m, fuel = m + 1 := ⟨fuel - 1, by omega⟩
    obtain ⟨rest, hrest⟩ := hb
    have hbs : s.env.busy = (!busy) :: rest := by rw [← hrest]; rfl
    rw [pollLoop_succ hh]
    simp [drawBusy, pick, hbs, afterPoll, busyPolls, State.emit, State.setEnv, State.setPollCount]
  | succ k ih =>
    intro fuel s hh hf hb ht
    obtain ⟨fuel, rfl⟩ : ∃ m, fuel = m + 1 := ⟨fuel - 1, by omega⟩
    obtain ⟨rest, hrest⟩ := hb
    have hbs : s.env.busy = busy :: (busyAnswers busy k ++ rest) := by
      rw [← hrest]; simp [busyAnswers, List.replicate_succ]
    rcases ht with h0 | ⟨hex, htm⟩
    · omega
    · rw [pollLoop_succ hh]
      have hd : (drawBusy s).1 = busy := by simp [drawBusy, pick, hbs]
      have hap : (afterPoll s).build.timing = .exact := hex
      rw [now_exact hap]
      have hclk : (afterPoll s).env.clock = s.env.clock := by simp [afterPoll, drawBusy]
      have hno : ¬ ((afterPoll s).env.clock - t0 ≥ timeout) := by
        rw [hclk]
        have : s.env.clock ≤ s.env.clock + (k + 1 - 1) * interval := by omega
        omega
      simp only [hd, ne_eq, not_true_eq_false, if_false, hno]
      rw [ih fuel]
      · simp [delay, afterPoll, drawBusy, pick, hbs, busyPolls_succ, State.emit, State.setEnv, State.setPollCount,
          Nat.add_mul, Nat.add_assoc, Nat.add_comm]
        exact ⟨by omega, by rw [Nat.add_comm 1, List.drop_succ_cons], by omega, by omega⟩
      · exact hh
      · omega
      · refine ⟨rest, ?_⟩
        simp [delay, afterPoll, drawBusy, pick, hbs]
      · by_cases hk : k = 0
        · exact Or.inl hk
        · right
          refine ⟨hex, ?_⟩
          simp only [delay, State.setEnv_env, hclk]
          have : (k + 1 - 1) * interval = (k - 1) * interval + interval := by
            obtain ⟨m, rfl⟩ : ∃ m, k = m + 1 := ⟨k - 1, by omega⟩
            simp [Nat.add_mul]
          omega

/-- The poll loop under Exact timing, the first `k + 1` polls reading busy and poll `k + 1` the first not before the timeout
(R175). -/
theorem pollLoop_timeout {busy : Bit} {interval timeout : Nat} {stage : Text} {t0 : Nat} :
    ∀ (k fuel : Nat) (s : State), held s .busy → k < fuel → List.replicate (k + 1) busy <+: s.env.busy →
    s.build.timing = .exact → (k = 0 ∨ s.env.clock + (k - 1) * interval - t0 < timeout) →
    timeout ≤ s.env.clock + k * interval - t0 →
    pollLoop busy interval timeout stage t0 fuel s = .err (errTimeout stage (s.pollCount + k + 1))
      { s with
        pollCount := s.pollCount + k + 1
        env := { s.env with
          busy := s.env.busy.drop (k + 1)
          drawn := s.env.drawn + k + 1
          clock := s.env.clock + k * interval }
        trace := s.trace ++ busyPolls busy interval k ++ [.lineGet .busy busy] } := by
  intro k
  induction k with
  | zero =>
    intro fuel s hh hf hb hex _ hto
    obtain ⟨fuel, rfl⟩ : ∃ m, fuel = m + 1 := ⟨fuel - 1, by omega⟩
    obtain ⟨rest, hrest⟩ := hb
    have hbs : s.env.busy = busy :: rest := by rw [← hrest]; rfl
    have hd : (drawBusy s).1 = busy := by simp [drawBusy, hbs]
    have hap : (afterPoll s).build.timing = .exact := hex
    rw [pollLoop_succ hh, now_exact hap]
    have hclk : (afterPoll s).env.clock = s.env.clock := by simp
    simp only [hd, ne_eq, not_true_eq_false, if_false, hclk]
    rw [if_pos (by omega)]
    simp [afterPoll, hbs, hd, busyPolls, State.emit, State.setEnv, State.setPollCount]
  | succ k ih =>
    intro fuel s hh hf hb hex ht hto
    obtain ⟨fuel, rfl⟩ : ∃ m, fuel = m + 1 := ⟨fuel - 1, by omega⟩
    obtain ⟨rest, hrest⟩ := hb
    have hbs : s.env.busy = busy :: (List.replicate (k + 1) busy ++ rest) := by
      rw [← hrest]; simp [List.replicate_succ]
    have ht : s.env.clock + k * interval - t0 < timeout := by rcases ht with h | h <;> simp_all
    have hd : (drawBusy s).1 = busy := by simp [drawBusy, hbs]
    have hap : (afterPoll s).build.timing = .exact := hex
    rw [pollLoop_succ hh, now_exact hap]
    have hclk : (afterPoll s).env.clock = s.env.clock := by simp
    have hno : ¬ (s.env.clock - t0 ≥ timeout) := by
      have : s.env.clock ≤ s.env.clock + k * interval := by omega
      omega
    have hmul : (k + 1) * interval = k * interval + interval := by simp [Nat.add_mul]
    simp only [hd, ne_eq, not_true_eq_false, if_false, hclk, hno]
    rw [ih fuel]
    · simp [delay, afterPoll, hbs, hd, busyPolls_succ, State.emit, State.setEnv, State.setPollCount,
        Nat.add_mul, Nat.add_assoc, Nat.add_comm]
      refine ⟨by congr 1; omega, by omega, ?_, by omega, by omega⟩
      rw [Nat.add_comm 1, List.drop_succ_cons, List.drop_left' (by simp)]
    · exact hh
    · omega
    · exact ⟨rest, by simp [delay, afterPoll, hbs]⟩
    · exact hex
    · by_cases hk : k = 0
      · exact Or.inl hk
      · right
        simp only [delay_env, hclk]
        have : k * interval = (k - 1) * interval + interval := by
          obtain ⟨m, rfl⟩ : ∃ m, k = m + 1 := ⟨k - 1, by omega⟩
          simp [Nat.add_mul]
        omega
    · simp only [delay_env, hclk]
      omega

end Sys2Proof.Machine
end

