-- ==== Sys2Proof/Laws/Actions.lean ====
section
/-! SUPPORT. What holds across every internal form because it holds across every single action: a reflexive and transitive
relation of states that each action keeps, each internal form keeps (spec/00_scope.md R10, R11). An invariant of the block
and "what stays as it was" are both such relations, and each is then proved once, action by action. -/

namespace Sys2Proof.Machine

open Sys2Proof

/-- The state a form ends in. -/
def Res.state {α : Type} : Res α → State
  | .ok _ s => s
  | .err _ s => s

@[simp] theorem Res.state_ok {α : Type} (a : α) (s : State) : (Res.ok a s).state = s := rfl
@[simp] theorem Res.state_err {α : Type} (e : ErrRec) (s : State) : (Res.err e s : Res α).state = s := rfl
@[simp] theorem Res.state_map {α β : Type} (f : α → β) (r : Res α) : (r.map f).state = r.state := by
  cases r <;> rfl
@[simp] theorem Res.state_mapErr {α : Type} (f : ErrRec → ErrRec) (r : Res α) : (r.mapErr f).state = r.state := by
  cases r <;> rfl
@[simp] theorem Res.state_ofExcept {α : Type} (s : State) (x : Except ErrRec α) : (Res.ofExcept s x).state = s := by
  cases x <;> rfl

/-- A relation between states that every action of the block keeps (R37). The writes of `phase`, ENTRY_INDEX and
STREAM_REMAINING are no part of it: the forms that make them take them as hypotheses. -/
structure Actions (R : State → State → Prop) : Prop where
  refl : ∀ s, R s s
  trans : ∀ {s t u}, R s t → R t u → R s u
  set : ∀ s r v, (s.line r).acquired = true → (s.line r).direction = .output → R s (afterSet s r v)
  get : ∀ s r v, (s.line r).acquired = true → (s.line r).direction = .input → R s (s.emit (.lineGet r v))
  write : ∀ s bs c, s.transport.isOpen = true → R s (s.emit (.spiWrite bs c))
  delay : ∀ s d, R s (delay d s)
  env : ∀ s e, e.clock = s.env.clock → R s (s.setEnv e)
  now : ∀ s, R s (now s).2
  polls : ∀ s n, R s (s.setPollCount n)
  grant : ∀ s sp, sp.direction = fixedDirection sp.role → rolePresent s.cfg sp.role = true → R s (grantLine sp s)
  release : ∀ s r v, (s.line r).acquired = true →
    R s ((s.setLine r { s.line r with acquired := false, level := v }).emit (.release r))
  opened : ∀ s path clockHz mode bits, mode ≤ 3 → bits = 8 → clockHz ≠ 0 → s.transport.isOpen = false →
    R s ((s.setTransport ⟨true, path, clockHz, mode, bits, s.cfg.spiBitOrder⟩).emit
      (.opened path clockHz mode bits s.cfg.spiBitOrder))
  closed : ∀ s, s.transport.isOpen = true →
    R s ((s.setTransport { s.transport with isOpen := false }).emit .closed)

namespace Actions

variable {R : State → State → Prop} (h : Actions R)
include h

theorem bind {α β : Type} {s : State} {r : Res α} {f : α → State → Res β} (h1 : R s r.state)
    (h2 : ∀ a u, r = .ok a u → R u (f a u).state) : R s (r.bind f).state := by
  cases r with
  | ok a u => exact h.trans h1 (h2 a u rfl)
  | err e u => exact h1

/-! ## lines, transport, framer -/

theorem lineSet (r : Role) (v : Bit) (s : State) : R s (lineSet r v s).state := by
  rcases lineSet_spec r v s with ⟨_, h1⟩ | ⟨_, _, h1⟩ | ⟨ha, hd, h1⟩ <;> rw [h1]
  · exact h.refl s
  · exact h.refl s
  · exact h.set s r v ha hd

theorem lineGet (r : Role) (s : State) : R s (lineGet r s).state := by
  rcases lineGet_spec r s with ⟨_, h1⟩ | ⟨_, _, h1⟩ | ⟨ha, hd, h1⟩ <;> rw [h1]
  · exact h.refl s
  · exact h.refl s
  · exact h.trans (t := (drawBusy s).2) (h.env s _ rfl) (h.get _ r _ ha hd)

theorem spiWrite (data : List Byte) (s : State) : R s (spiWrite data s).state := by
  rcases spiWrite_spec data s with ⟨_, h1⟩ | ⟨ho, _, h1⟩ | ⟨ho, _, _, h1⟩ <;> rw [h1]
  · exact h.refl s
  · exact h.trans (t := (drawWrite s).2) (h.env s _ rfl) (h.write _ _ _ ho)
  · exact h.trans (t := (drawWrite s).2) (h.env s _ rfl) (h.write _ _ _ ho)

theorem spiOpen (path : Text) (clockHz mode bits : Nat) (s : State) :
    R s (spiOpen path clockHz mode bits s).state := by
  unfold Machine.spiOpen
  cases ho : s.transport.isOpen
  · have h1 : R s (drawDeviceOpens s).2 := h.env s _ rfl
    simp only [Bool.false_eq_true, if_false]
    split
    · exact h1
    · split
      · exact h1
      · rename_i hc
        have h2 : R (drawDeviceOpens s).2 (drawDeviceAccepts (drawDeviceOpens s).2).2 := h.env _ _ rfl
        split
        · exact h.trans h1 h2
        · refine h.trans h1 (h.trans h2 (h.opened _ path clockHz mode bits ?_ ?_ ?_ ho)) <;> omega
  · exact h.refl s

theorem spiClose (s : State) : R s (spiClose s) := by
  unfold Machine.spiClose
  split
  · rename_i ho; exact h.closed s ho
  · exact h.refl s

theorem releaseLine (r : Role) (s : State) : R s (releaseLine r s) := by
  unfold Machine.releaseLine
  simp only
  split
  · rename_i ha; exact h.trans (t := (drawReleasedLevel s).2) (h.env s _ rfl) (h.release _ r _ ha)
  · exact h.refl s

theorem lineRelease (s : State) : R s (lineRelease s) :=
  h.trans (h.releaseLine .dc s) (h.trans (h.releaseLine .rst _) (h.trans (h.releaseLine .busy _) (h.releaseLine .cs _)))

theorem drawOwnership : ∀ (specs : List LineSpec) (s : State), R s (drawOwnership specs s).state
  | [], s => h.refl s
  | sp :: rest, s => by
    have h1 : R s (drawOffsetOwned s).2 := h.env s _ rfl
    unfold Machine.drawOwnership
    simp only
    split
    · exact h1
    · exact h.trans h1 (drawOwnership rest _)

theorem grantLines : ∀ (specs : List LineSpec) (s : State),
    (∀ sp ∈ specs, sp.direction = fixedDirection sp.role ∧ rolePresent s.cfg sp.role = true) → R s (grantLines specs s)
  | [], s, _ => h.refl s
  | sp :: rest, s, hs =>
    h.trans (h.grant s sp (hs sp (by simp)).1 (hs sp (by simp)).2)
      (grantLines rest _ fun x hx => hs x (by simp [hx]))

theorem framedBytes (a dcl : Bit) : ∀ (data : List Byte) (first : Bool) (s : State),
    R s (framedBytes a dcl first data s).state
  | [], _, s => h.refl s
  | b :: rest, first, s => by
    unfold Machine.framedBytes
    refine h.bind (h.lineSet _ _ _) fun _ s _ => h.bind ?_ fun _ s _ => h.bind (h.spiWrite _ _) fun _ s _ =>
      h.bind (h.lineSet _ _ _) fun _ s _ => framedBytes a dcl rest false s
    split
    · exact h.lineSet _ _ _
    · exact h.refl _

theorem framedWrite (dcl : Bit) (data : List Byte) (s : State) : R s (framedWrite dcl data s).state := by
  unfold Machine.framedWrite
  simp only
  split
  · exact h.bind (h.lineSet _ _ _) fun _ s _ => h.spiWrite _ s
  · exact h.bind (h.lineSet _ _ _) fun _ s _ => h.bind (h.lineSet _ _ _) fun _ s _ =>
      h.bind (h.spiWrite _ _) fun _ s _ => h.lineSet _ _ s
  · exact h.framedBytes _ _ _ _ _

theorem sendCommand (op : Byte) (s : State) : R s (sendCommand op s).state := h.framedWrite _ _ s

theorem sendData (data : List Byte) (s : State) : R s (sendData data s).state := h.framedWrite _ _ s

/-! ## busy-wait -/

theorem pollLoop (busy : Bit) (interval timeout : Nat) (stage : Text) (t0 : Nat) : ∀ (fuel : Nat) (s : State),
    R s (pollLoop busy interval timeout stage t0 fuel s).state
  | 0, s => h.refl s
  | fuel + 1, s => by
    unfold Machine.pollLoop
    refine h.bind (h.lineGet _ _) fun v s _ => ?_
    have h1 := h.polls s (s.pollCount + 1)
    simp only
    split
    · exact h1
    · have h2 := h.now (s.setPollCount (s.pollCount + 1))
      split
      · exact h.trans h1 h2
      · exact h.trans h1 (h.trans h2 (h.trans (h.delay _ _) (pollLoop busy interval timeout stage t0 fuel _)))

theorem waitReady (p : Polarity) (interval timeout : Nat) (stage : Text) (s : State) :
    R s (waitReady p interval timeout stage s).state := by
  unfold Machine.waitReady
  split
  · exact h.refl s
  · refine h.trans (h.polls s 0) (h.trans (h.now _) ?_)
    simp only
    refine h.trans ?_ (h.pollLoop _ _ _ _ _ _ _)
    unfold Machine.firstPollDelay
    split
    · exact h.delay _ _
    · exact h.refl _

theorem waitConfigured (stage : Text) (s : State) : R s (waitConfigured stage s).state := h.waitReady _ _ _ _ s

/-! ## the sequencer's forms -/

theorem applyEntry (e : Entry) (s : State) : R s (applyEntry e s).state := by
  unfold Machine.applyEntry
  split
  · exact h.refl s
  · refine h.bind (h.sendCommand _ _) fun _ s _ => h.bind ?_ fun _ s _ => h.bind ?_ fun _ s _ => h.delay s _
    · split
      · exact h.sendData _ _
      · exact h.refl _
    · split
      · simpa using h.waitConfigured stageInit s
      · exact h.refl _

theorem applyEntries (he : ∀ s n, R s (s.setEntryIndex n)) : ∀ (table : List Entry) (i : Nat) (s : State), R s (applyEntries i table s).state
  | [], _, s => h.refl s
  | e :: rest, i, s => by
    unfold Machine.applyEntries
    refine h.bind ?_ fun _ s _ => applyEntries he rest (i + 1) s
    simpa using h.trans (he s i) (h.applyEntry e _)

theorem applyTable (he : ∀ s n, R s (s.setEntryIndex n)) (table : List Entry) (s : State) : R s (applyTable table s).state :=
  h.bind (h.applyEntries he table 1 s) fun _ s _ => he s 0

theorem resetSteps : ∀ (steps : List ResetStep) (s : State), R s (resetSteps steps s).state
  | [], s => h.refl s
  | st :: rest, s => by
    unfold Machine.resetSteps
    exact h.bind (h.lineSet _ _ _) fun _ s _ => h.trans (h.delay s _) (resetSteps rest _)

theorem windowSet (win : Window) (s : State) : R s (windowSet win s).state := by
  unfold Machine.windowSet
  refine h.bind (h.sendCommand _ _) fun _ s _ => h.bind (h.sendData _ _) fun _ s _ =>
    h.bind (h.sendCommand _ _) fun _ s _ => h.bind (h.sendData _ _) fun _ s _ => ?_
  split
  · exact h.sendCommand _ _
  · exact h.refl _

theorem writePieces (hr : ∀ s n, R s (s.setRemaining n)) : ∀ (pieces : List (List Byte)) (s : State), R s (writePieces pieces s).state
  | [], s => h.refl s
  | p :: rest, s => by
    unfold Machine.writePieces
    exact h.bind (h.spiWrite _ _) fun _ s _ => h.trans (hr s _) (writePieces hr rest _)

theorem streamCs (level : Bit) (s : State) : R s (streamCs level s).state := by
  unfold Machine.streamCs
  split
  · exact h.lineSet _ _ _
  · exact h.refl _

theorem streamBody (hr : ∀ s n, R s (s.setRemaining n)) (chunks : List (List Byte)) (n : Nat) (s : State) : R s (streamBody chunks n s).state := by
  unfold Machine.streamBody
  exact h.trans (hr s n) (h.bind (h.streamCs _ _) fun _ s _ => h.bind (h.lineSet _ _ _) fun _ s _ =>
    h.bind (h.writePieces hr _ _) fun _ s _ => h.streamCs _ _)

end Actions

/-! ## The checks of LINE_ACQUIRE -/

/-- No spec fails its check iff each is in its role's direction, present and not held (R120). -/
theorem specsError_eq_none {s : State} : ∀ {specs : List LineSpec}, specsError s specs = none ↔
    ∀ sp ∈ specs, sp.direction = fixedDirection sp.role ∧ rolePresent s.cfg sp.role = true ∧
      (s.line sp.role).acquired = false
  | [] => by simp [specsError]
  | sp :: rest => by
    have ih := specsError_eq_none (s := s) (specs := rest)
    unfold specsError specError
    by_cases hd : sp.direction = fixedDirection sp.role
    · cases hp : rolePresent s.cfg sp.role
      · simp [hd, hp]
      · cases ha : (s.line sp.role).acquired
        · simp [hd, hp, ha, ih]
        · simp [hd, hp, ha]
    · simp [hd]

theorem Actions.lineAcquire {R : State → State → Prop} (h : Actions R) (chip : Text) (specs : List LineSpec) (s : State) :
    R s (lineAcquire chip specs s).state := by
  unfold Machine.lineAcquire
  split
  · exact h.refl s
  · split
    · exact h.refl s
    · rename_i hs
      have h1 : R s (drawChipOpens s).2 := h.env s _ rfl
      simp only
      split
      · exact h1
      · refine h.trans h1 (h.bind (h.drawOwnership _ _) fun _ u hu => h.grantLines specs u fun sp hsp => ?_)
        have hcfg : u.cfg = s.cfg := by
          have hc : ∀ (l : List LineSpec) (a b : State), Machine.drawOwnership l a = .ok () b → b.cfg = a.cfg := by
            intro l
            induction l with
            | nil => intro a b hab; simp only [Machine.drawOwnership, Res.ok.injEq, true_and] at hab; rw [hab]
            | cons x xs ih =>
              intro a b hab
              simp only [Machine.drawOwnership] at hab
              split at hab
              · cases hab
              · simpa using ih _ _ hab
          simpa using hc _ _ _ hu
        obtain ⟨hd, hp, _⟩ := specsError_eq_none.mp hs sp hsp
        exact ⟨hd, by rw [hcfg]; exact hp⟩

end Sys2Proof.Machine
end

