-- ==== Sys2Proof/Laws/Codec.lean ====
section
/-! SUPPORT. Each operand form of spec/30_encoding.md R101, read back and written again: what the encoder writes the decoder
reads, and what the decoder reads is what the encoder writes. -/

namespace Sys2Proof

/-! ## Fixed forms -/

theorem getU8_putU8 {n : Nat} (r : List Byte) (h : n < 256) : getU8 (putU8 n ++ r) = some (n, r) := by
  simp [getU8, putU8, Nat.mod_eq_of_lt h]

theorem getU8_some {bs r : List Byte} {n : Nat} (h : getU8 bs = some (n, r)) : n < 256 ∧ bs = putU8 n ++ r := by
  cases bs with
  | nil => simp [getU8] at h
  | cons b t =>
    simp only [getU8, Option.some.injEq, Prod.mk.injEq] at h
    obtain ⟨rfl, rfl⟩ := h
    exact ⟨b.isLt, by simp [putU8]⟩

theorem getU16_putU16 {n : Nat} (r : List Byte) (h : n < 65536) : getU16 (putU16 n ++ r) = some (n, r) := by
  simp only [getU16, putU16, List.cons_append, List.nil_append, BitVec.toNat_ofNat, Option.some.injEq, Prod.mk.injEq,
    and_true]
  omega

theorem getU16_some {bs r : List Byte} {n : Nat} (h : getU16 bs = some (n, r)) : n < 65536 ∧ bs = putU16 n ++ r := by
  match bs, h with
  | a :: b :: t, h =>
    simp only [getU16, Option.some.injEq, Prod.mk.injEq] at h
    obtain ⟨rfl, rfl⟩ := h
    have ha := a.isLt
    have hb := b.isLt
    refine ⟨by omega, ?_⟩
    simp only [putU16, List.cons_append, List.nil_append, List.cons.injEq, and_true]
    constructor <;> apply BitVec.eq_of_toNat_eq <;> simp only [BitVec.toNat_ofNat] <;> omega

theorem getU32_putU32 {n : Nat} (r : List Byte) (h : n < 4294967296) : getU32 (putU32 n ++ r) = some (n, r) := by
  simp only [getU32, putU32, List.cons_append, List.nil_append, BitVec.toNat_ofNat, Option.some.injEq, Prod.mk.injEq,
    and_true]
  omega

theorem getU32_some {bs r : List Byte} {n : Nat} (h : getU32 bs = some (n, r)) : n < 4294967296 ∧ bs = putU32 n ++ r := by
  match bs, h with
  | a :: b :: c :: d :: t, h =>
    simp only [getU32, Option.some.injEq, Prod.mk.injEq] at h
    obtain ⟨rfl, rfl⟩ := h
    have ha := a.isLt
    have hb := b.isLt
    have hc := c.isLt
    have hd := d.isLt
    refine ⟨by omega, ?_⟩
    simp only [putU32, List.cons_append, List.nil_append, List.cons.injEq, and_true]
    refine ⟨?_, ?_, ?_, ?_⟩ <;> apply BitVec.eq_of_toNat_eq <;> simp only [BitVec.toNat_ofNat] <;> omega

theorem getN_append (a r : List Byte) : getN a.length (a ++ r) = some (a, r) := by
  simp [getN]

theorem getN_some {n : Nat} {bs a r : List Byte} (h : getN n bs = some (a, r)) : a.length = n ∧ bs = a ++ r := by
  unfold getN at h
  split at h
  · cases h
  · simp only [Option.some.injEq, Prod.mk.injEq] at h
    obtain ⟨rfl, rfl⟩ := h
    exact ⟨by rw [List.length_take]; omega, (List.take_append_drop n bs).symm⟩

theorem getBit_putBit (b : Bool) (r : List Byte) : getBit (putBit b ++ r) = some (b, r) := by
  cases b <;> simp [getBit, putBit]

theorem getBit_some {bs r : List Byte} {b : Bool} (h : getBit bs = some (b, r)) : bs = putBit b ++ r := by
  cases bs with
  | nil => simp [getBit] at h
  | cons x t =>
    simp only [getBit] at h
    repeat' split at h
    all_goals simp_all [putBit]

theorem getRole_putRole (x : Role) (r : List Byte) : getRole (putRole x ++ r) = some (x, r) := by
  cases x <;> simp [getRole, putRole]

theorem getRole_some {bs r : List Byte} {x : Role} (h : getRole bs = some (x, r)) : bs = putRole x ++ r := by
  cases bs with
  | nil => simp [getRole] at h
  | cons y t =>
    simp only [getRole] at h
    repeat' split at h
    all_goals simp only [Option.some.injEq, Prod.mk.injEq, reduceCtorEq] at h
    all_goals obtain ⟨rfl, rfl⟩ := h
    all_goals simp_all [putRole]

theorem getDirection_putDirection (x : Direction) (r : List Byte) :
    getDirection (putDirection x ++ r) = some (x, r) := by
  cases x <;> simp [getDirection, putDirection]

theorem getDirection_some {bs r : List Byte} {x : Direction} (h : getDirection bs = some (x, r)) :
    bs = putDirection x ++ r := by
  cases bs with
  | nil => simp [getDirection] at h
  | cons y t =>
    simp only [getDirection] at h
    repeat' split at h
    all_goals simp only [Option.some.injEq, Prod.mk.injEq, reduceCtorEq] at h
    all_goals obtain ⟨rfl, rfl⟩ := h
    all_goals simp_all [putDirection]

theorem getPolarity_putPolarity (x : Polarity) (r : List Byte) : getPolarity (putPolarity x ++ r) = some (x, r) := by
  cases x <;> simp [getPolarity, putPolarity]

theorem getPolarity_some {bs r : List Byte} {x : Polarity} (h : getPolarity bs = some (x, r)) :
    bs = putPolarity x ++ r := by
  cases bs with
  | nil => simp [getPolarity] at h
  | cons y t =>
    simp only [getPolarity] at h
    repeat' split at h
    all_goals simp only [Option.some.injEq, Prod.mk.injEq, reduceCtorEq] at h
    all_goals obtain ⟨rfl, rfl⟩ := h
    all_goals simp_all [putPolarity]

theorem getEncoding_putEncoding (x : Encoding) (r : List Byte) : getEncoding (putEncoding x ++ r) = some (x, r) := by
  cases x <;> simp [getEncoding, putEncoding]

theorem getEncoding_some {bs r : List Byte} {x : Encoding} (h : getEncoding bs = some (x, r)) :
    bs = putEncoding x ++ r := by
  cases bs with
  | nil => simp [getEncoding] at h
  | cons y t =>
    simp only [getEncoding] at h
    repeat' split at h
    all_goals simp only [Option.some.injEq, Prod.mk.injEq, reduceCtorEq] at h
    all_goals obtain ⟨rfl, rfl⟩ := h
    all_goals simp_all [putEncoding]

/-! ## Sequences -/

theorem getBytes_putBytes (a r : List Byte) (h : a.length < 4294967296) : getBytes (putBytes a ++ r) = some (a, r) := by
  simp [getBytes, putBytes, getU32_putU32 _ h, getN_append]

theorem getBytes_some {bs a r : List Byte} (h : getBytes bs = some (a, r)) :
    a.length < 4294967296 ∧ bs = putBytes a ++ r := by
  simp only [getBytes, Option.bind_eq_bind, Option.bind_eq_some_iff] at h
  obtain ⟨⟨n, t⟩, h1, h2⟩ := h
  obtain ⟨hn, rfl⟩ := getU32_some h1
  obtain ⟨rfl, rfl⟩ := getN_some h2
  exact ⟨hn, by simp [putBytes]⟩

theorem getText_putText (a : Text) (r : List Byte) (h : a.length < 256) : getText (putText a ++ r) = some (a, r) := by
  simp [getText, putText, getU8_putU8 _ h, getN_append]

theorem getText_some {bs r : List Byte} {a : Text} (h : getText bs = some (a, r)) :
    a.length < 256 ∧ bs = putText a ++ r := by
  simp only [getText, Option.bind_eq_bind, Option.bind_eq_some_iff] at h
  obtain ⟨⟨n, t⟩, h1, h2⟩ := h
  obtain ⟨hn, rfl⟩ := getU8_some h1
  obtain ⟨rfl, rfl⟩ := getN_some h2
  exact ⟨hn, by simp [putText]⟩

/-- A list of items is read back where each item is. -/
theorem getMany_flatMap {α : Type} {p : List Byte → Option (α × List Byte)} {q : α → List Byte} (r : List Byte) :
    ∀ (xs : List α), (∀ x ∈ xs, ∀ t, p (q x ++ t) = some (x, t)) → getMany p xs.length (xs.flatMap q ++ r) = some (xs, r)
  | [], _ => rfl
  | x :: xs, h => by
    simp only [List.length_cons, getMany, List.flatMap_cons, List.append_assoc]
    rw [h x (by simp)]
    simp only
    rw [getMany_flatMap r xs fun y hy => h y (by simp [hy])]

/-- What is read as a list of items is their serial forms. -/
theorem getMany_some {α : Type} {p : List Byte → Option (α × List Byte)} {q : α → List Byte} {P : α → Prop}
    (hp : ∀ bs x t, p bs = some (x, t) → P x ∧ bs = q x ++ t) : ∀ (n : Nat) (bs r : List Byte) (xs : List α),
    getMany p n bs = some (xs, r) → xs.length = n ∧ (∀ x ∈ xs, P x) ∧ bs = xs.flatMap q ++ r
  | 0, bs, r, xs, h => by
    simp only [getMany, Option.some.injEq, Prod.mk.injEq] at h
    obtain ⟨rfl, rfl⟩ := h
    simp
  | n + 1, bs, r, xs, h => by
    simp only [getMany] at h
    split at h
    · cases h
    · rename_i a t ha
      split at h
      · cases h
      · rename_i as t' has
        simp only [Option.some.injEq, Prod.mk.injEq] at h
        obtain ⟨rfl, rfl⟩ := h
        obtain ⟨h1, rfl⟩ := hp _ _ _ ha
        obtain ⟨h2, h3, rfl⟩ := getMany_some hp n _ _ _ has
        refine ⟨by simp [h2], ?_, by simp⟩
        intro x hx
        rcases List.mem_cons.mp hx with rfl | hx
        · exact h1
        · exact h3 x hx

/-! ## Records -/

theorem getLineSpec_putLineSpec {l : LineSpec} (r : List Byte) (h : l.wf = true) :
    getLineSpec (putLineSpec l ++ r) = some (l, r) := by
  have ho : l.offset < 4294967296 := by simpa [LineSpec.wf, fitsU32] using h
  simp [getLineSpec, putLineSpec, getRole_putRole, getU32_putU32 _ ho, getDirection_putDirection, getBit_putBit]

theorem getLineSpec_some (bs : List Byte) (l : LineSpec) (r : List Byte) (h : getLineSpec bs = some (l, r)) :
    l.wf = true ∧ bs = putLineSpec l ++ r := by
  simp only [getLineSpec, Option.bind_eq_bind, Option.bind_eq_some_iff] at h
  obtain ⟨⟨a, t1⟩, h1, ⟨b, t2⟩, h2, ⟨c, t3⟩, h3, ⟨d, t4⟩, h4, h5⟩ := h
  simp only [Option.some.injEq, Prod.mk.injEq] at h5
  obtain ⟨rfl, rfl⟩ := h5
  obtain rfl := getRole_some h1
  obtain ⟨hb, rfl⟩ := getU32_some h2
  obtain rfl := getDirection_some h3
  obtain rfl := getBit_some h4
  exact ⟨by simp [LineSpec.wf, fitsU32, hb], by simp [putLineSpec]⟩

theorem map_toNat_map_ofNat {l : List Nat} (h : ∀ p ∈ l, p < 256) : (l.map (BitVec.ofNat 8)).map BitVec.toNat = l := by
  rw [List.map_map]
  conv_rhs => rw [← List.map_id l]
  apply List.map_congr_left
  intro p hp
  simp [Nat.mod_eq_of_lt (h p hp)]

theorem map_ofNat_map_toNat (l : List Byte) : (l.map BitVec.toNat).map (BitVec.ofNat 8) = l := by
  rw [List.map_map]
  conv_rhs => rw [← List.map_id l]
  apply List.map_congr_left
  intro p _
  simp

theorem getEntry_putEntry {e : Entry} (r : List Byte) (h : e.wf = true) :
    getEntry (putEntry e ++ r) = some (e, r) := by
  simp only [Entry.wf, Entry.wellFormed, fitsU8, fitsU32, Bool.and_eq_true, decide_eq_true_eq, List.all_eq_true] at h
  obtain ⟨⟨⟨h1, h2⟩, h3⟩, h4⟩ := h
  have hp := map_toNat_map_ofNat h2
  simp only [getEntry, putEntry, List.append_assoc]
  rw [getU8_putU8 _ h1]
  simp only [Option.bind_eq_bind, Option.bind_some]
  rw [getBytes_putBytes _ _ (by simpa using h3)]
  simp only [Option.bind_some]
  rw [getU32_putU32 _ h4]
  simp [getBit_putBit, hp]

theorem getEntry_some (bs : List Byte) (e : Entry) (r : List Byte) (h : getEntry bs = some (e, r)) :
    e.wf = true ∧ bs = putEntry e ++ r := by
  simp only [getEntry, Option.bind_eq_bind, Option.bind_eq_some_iff] at h
  obtain ⟨⟨a, t1⟩, h1, ⟨b, t2⟩, h2, ⟨c, t3⟩, h3, ⟨d, t4⟩, h4, h5⟩ := h
  simp only [Option.some.injEq, Prod.mk.injEq] at h5
  obtain ⟨rfl, rfl⟩ := h5
  obtain ⟨ha, rfl⟩ := getU8_some h1
  obtain ⟨hb, rfl⟩ := getBytes_some h2
  obtain ⟨hc, rfl⟩ := getU32_some h3
  obtain rfl := getBit_some h4
  refine ⟨?_, ?_⟩
  · simp only [Entry.wf, Entry.wellFormed, fitsU8, fitsU32, Bool.and_eq_true, decide_eq_true_eq, List.all_eq_true,
      List.length_map]
    exact ⟨⟨⟨ha, fun p hp => by
      obtain ⟨x, _, rfl⟩ := List.mem_map.mp hp
      exact x.isLt⟩, hb⟩, hc⟩
  · simp only [putEntry]
    rw [map_ofNat_map_toNat]
    simp

theorem getWindow_putWindow {w : Window} (r : List Byte) (h : w.wf = true) :
    getWindow (putWindow w ++ r) = some (w, r) := by
  simp only [Window.wf, fitsU16, Bool.and_eq_true, decide_eq_true_eq] at h
  obtain ⟨⟨⟨h1, h2⟩, h3⟩, h4⟩ := h
  simp [getWindow, putWindow, getU16_putU16 _ h1, getU16_putU16 _ h2, getU16_putU16 _ h3, getU16_putU16 _ h4]

theorem getWindow_some {bs r : List Byte} {w : Window} (h : getWindow bs = some (w, r)) :
    w.wf = true ∧ bs = putWindow w ++ r := by
  simp only [getWindow, Option.bind_eq_bind, Option.bind_eq_some_iff] at h
  obtain ⟨⟨a, t1⟩, h1, ⟨b, t2⟩, h2, ⟨c, t3⟩, h3, ⟨d, t4⟩, h4, h5⟩ := h
  simp only [Option.some.injEq, Prod.mk.injEq] at h5
  obtain ⟨rfl, rfl⟩ := h5
  obtain ⟨ha, rfl⟩ := getU16_some h1
  obtain ⟨hb, rfl⟩ := getU16_some h2
  obtain ⟨hc, rfl⟩ := getU16_some h3
  obtain ⟨hd, rfl⟩ := getU16_some h4
  exact ⟨by simp [Window.wf, fitsU16, ha, hb, hc, hd], by simp [putWindow]⟩

theorem getFramebuffer_putFramebuffer {f : Framebuffer} (r : List Byte) (h : f.wf = true) :
    getFramebuffer (putFramebuffer f ++ r) = some (f, r) := by
  simp only [Framebuffer.wf, bytesWf, fitsU16, fitsU32, Bool.and_eq_true, decide_eq_true_eq] at h
  obtain ⟨⟨h1, h2⟩, h3⟩ := h
  simp [getFramebuffer, putFramebuffer, getU16_putU16 _ h1, getU16_putU16 _ h2, getEncoding_putEncoding,
    getBytes_putBytes _ _ h3]

theorem getFramebuffer_some {bs r : List Byte} {f : Framebuffer} (h : getFramebuffer bs = some (f, r)) :
    f.wf = true ∧ bs = putFramebuffer f ++ r := by
  simp only [getFramebuffer, Option.bind_eq_bind, Option.bind_eq_some_iff] at h
  obtain ⟨⟨a, t1⟩, h1, ⟨b, t2⟩, h2, ⟨c, t3⟩, h3, ⟨d, t4⟩, h4, h5⟩ := h
  simp only [Option.some.injEq, Prod.mk.injEq] at h5
  obtain ⟨rfl, rfl⟩ := h5
  obtain ⟨ha, rfl⟩ := getU16_some h1
  obtain ⟨hb, rfl⟩ := getU16_some h2
  obtain rfl := getEncoding_some h3
  obtain ⟨hd, rfl⟩ := getBytes_some h4
  exact ⟨by simp [Framebuffer.wf, bytesWf, fitsU16, fitsU32, ha, hb, hd], by simp [putFramebuffer]⟩

theorem getColor_putColor (c : U16) (r : List Byte) : getColor (putColor c ++ r) = some (c, r) := by
  have := c.isLt
  simp only [getColor, putColor, putU16, List.cons_append, List.nil_append, BitVec.toNat_ofNat, Option.some.injEq,
    Prod.mk.injEq, and_true]
  apply BitVec.eq_of_toNat_eq
  simp only [BitVec.toNat_ofNat]
  omega

theorem getColor_some (bs : List Byte) (c : U16) (r : List Byte) (h : getColor bs = some (c, r)) :
    True ∧ bs = putColor c ++ r := by
  match bs, h with
  | a :: b :: t, h =>
    simp only [getColor, Option.some.injEq, Prod.mk.injEq] at h
    obtain ⟨rfl, rfl⟩ := h
    have ha := a.isLt
    have hb := b.isLt
    refine ⟨trivial, ?_⟩
    simp only [putColor, putU16, List.cons_append, List.nil_append, List.cons.injEq, and_true]
    constructor <;> apply BitVec.eq_of_toNat_eq <;> simp only [BitVec.toNat_ofNat] <;> omega

end Sys2Proof
end

