-- ==== Sys2Proof/Laws/Lines.lean ====
section
/-! SUPPORT. What acquiring and releasing lines and opening and closing the transport do: the exact end for every answer of
the draws. -/

namespace Sys2Proof.Machine

open Sys2Proof

/-! ## LINE_ACQUIRE -/

/-- Two specs do not clash (R120). -/
def apart (a b : LineSpec) : Prop := a.role ≠ b.role ∧ a.offset ≠ b.offset

/-- No spec clashes with a later one iff none is a duplicate (R120). -/
theorem duplicateRole_eq_none : ∀ {specs : List LineSpec}, duplicateRole specs = none ↔ specs.Pairwise apart
  | [] => by simp [duplicateRole]
  | a :: rest => by
    have ih := duplicateRole_eq_none (specs := rest)
    unfold duplicateRole
    rw [List.pairwise_cons, ← ih]
    by_cases h : rest.any (fun t => decide (a.role = t.role) || decide (a.offset = t.offset)) = true
    · rw [if_pos h]
      simp only [List.any_eq_true, Bool.or_eq_true, decide_eq_true_eq] at h
      obtain ⟨x, hx, hc⟩ := h
      constructor
      · intro h; simp at h
      · rintro ⟨h, -⟩
        exact absurd hc (not_or.mpr (h x hx))
    · rw [if_neg h]
      simp only [List.any_eq_true, Bool.or_eq_true, decide_eq_true_eq, not_exists, not_and, not_or] at h
      exact ⟨fun hd => ⟨fun x hx => h x hx, hd⟩, fun hd => hd.2⟩

/-- The first spec that clashes with a later one (R120). -/
theorem duplicateRole_first : ∀ (pre : List LineSpec) (a : LineSpec) (rest : List LineSpec),
    pre.Pairwise apart → (∀ x ∈ pre, ∀ y ∈ a :: rest, apart x y) → (∃ b ∈ rest, ¬ apart a b) →
    duplicateRole (pre ++ a :: rest) = some a.role
  | [], a, rest, _, _, ⟨b, hb, hc⟩ => by
    simp only [List.nil_append, duplicateRole]
    rw [if_pos]
    simp only [List.any_eq_true, Bool.or_eq_true, decide_eq_true_eq]
    refine ⟨b, hb, ?_⟩
    unfold apart at hc
    by_cases h : a.role = b.role
    · exact Or.inl h
    · exact Or.inr (by simpa [h] using hc)
  | x :: pre, a, rest, hp, hx, hb => by
    rw [List.pairwise_cons] at hp
    simp only [List.cons_append, duplicateRole]
    rw [if_neg]
    · exact duplicateRole_first pre a rest hp.2 (fun z hz => hx z (by simp [hz])) hb
    · simp only [List.any_eq_true, Bool.or_eq_true, decide_eq_true_eq, not_exists, not_and, not_or]
      intro y hy
      rcases List.mem_append.mp hy with hy | hy
      · exact hp.1 y hy
      · exact hx x (by simp) y hy

/-- The first spec that fails its check names the error (R120). -/
theorem specsError_first {s : State} {sp : LineSpec} {post : List LineSpec} {e : ErrRec} (he : specError s sp = some e) :
    ∀ (pre : List LineSpec), (∀ x ∈ pre, x.direction = fixedDirection x.role ∧ rolePresent s.cfg x.role = true ∧
      (s.line x.role).acquired = false) → specsError s (pre ++ sp :: post) = some e
  | [], _ => by simp [specsError, he]
  | x :: pre, h => by
    obtain ⟨h1, h2, h3⟩ := h x (by simp)
    have hx : specError s x = none := by simp [specError, h1, h2, h3]
    simp only [List.cons_append, specsError, hx]
    exact specsError_first he pre fun y hy => h y (by simp [hy])

/-- No offset owned elsewhere: the draws are used up (R41, R120). -/
theorem drawOwnership_ok : ∀ (specs : List LineSpec) (s : State) (owned : List Bool),
    s.env.offsetOwned = List.replicate specs.length false ++ owned →
    drawOwnership specs s = .ok () (s.setEnv { s.env with
      offsetOwned := owned, drawn := s.env.drawn + specs.length })
  | [], s, owned, h => by
    simp only [List.length_nil, List.replicate_zero, List.nil_append] at h
    simp [drawOwnership, ← h, State.setEnv]
  | sp :: rest, s, owned, h => by
    have h' : s.env.offsetOwned = false :: (List.replicate rest.length false ++ owned) := by
      rw [h]; simp [List.replicate_succ]
    simp only [drawOwnership, drawOffsetOwned_snd]
    have hd : (drawOffsetOwned s).1 = false := by simp [drawOffsetOwned, h']
    rw [hd, if_neg (by simp), drawOwnership_ok rest _ owned (by simp [h'])]
    simp [State.setEnv]
    omega

/-- The first offset owned elsewhere ends the draws (R120). -/
theorem drawOwnership_busy (sp : LineSpec) (post : List LineSpec) : ∀ (pre : List LineSpec) (s : State)
    (owned : List Bool), s.env.offsetOwned = List.replicate pre.length false ++ true :: owned →
    drawOwnership (pre ++ sp :: post) s = .err (errOffsetBusy sp.offset) (s.setEnv { s.env with
      offsetOwned := owned, drawn := s.env.drawn + (pre.length + 1) })
  | [], s, owned, h => by
    simp only [List.length_nil, List.replicate_zero, List.nil_append] at h
    simp [drawOwnership, drawOffsetOwned, h]
  | x :: pre, s, owned, h => by
    have h' : s.env.offsetOwned = false :: (List.replicate pre.length false ++ true :: owned) := by
      rw [h]; simp [List.replicate_succ]
    simp only [List.cons_append, drawOwnership, drawOffsetOwned_snd]
    have hd : (drawOffsetOwned s).1 = false := by simp [drawOffsetOwned, h']
    rw [hd, if_neg (by simp), drawOwnership_busy sp post pre _ owned (by simp [h'])]
    simp [State.setEnv]
    omega

/-- The record of a granted line (R120). -/
def granted (c : Cfg) (sp : LineSpec) : Line := ⟨true, sp.offset, sp.direction, activeLevel c sp.role, sp.init⟩

/-- The lines after grants (R120). -/
def grantedLines (c : Cfg) (specs : List LineSpec) (l : Lines) : Lines :=
  specs.foldl (fun l sp => l.set sp.role (granted c sp)) l

/-- Granting changes the lines and the trace, and nothing else (R120). -/
theorem grantLines_eq : ∀ (specs : List LineSpec) (s : State),
    grantLines specs s = { s with
      lines := grantedLines s.cfg specs s.lines
      trace := s.trace ++ specs.map acquireEvent }
  | [], s => by simp [grantLines, grantedLines]
  | sp :: rest, s => by
    rw [grantLines, grantLines_eq rest]
    simp [grantLine, grantedLines, granted, State.emit, State.setLine, State.setLines, acquireEvent]

/-- A line that no spec names is as before. -/
theorem grantedLines_get_ne (c : Cfg) {r : Role} : ∀ (specs : List LineSpec) (l : Lines), (∀ sp ∈ specs, sp.role ≠ r) →
    (grantedLines c specs l).get r = l.get r
  | [], l, _ => rfl
  | sp :: rest, l, h => by
    have hne : r ≠ sp.role := fun he => h sp (by simp) he.symm
    show (grantedLines c rest (l.set sp.role (granted c sp))).get r = l.get r
    rw [grantedLines_get_ne c rest _ fun x hx => h x (by simp [hx]), Lines.get_set_ne _ _ hne]

/-- A granted line has the record its spec asks for. -/
theorem grantedLines_get (c : Cfg) {sp : LineSpec} (specs : List LineSpec) (l : Lines)
    (hp : specs.Pairwise (fun a b => a.role ≠ b.role)) (hm : sp ∈ specs) :
    (grantedLines c specs l).get sp.role = granted c sp := by
  induction specs generalizing l with
  | nil => simp at hm
  | cons x rest ih =>
    rw [List.pairwise_cons] at hp
    show (grantedLines c rest (l.set x.role (granted c x))).get sp.role = _
    rcases List.mem_cons.mp hm with h | h
    · subst h
      rw [grantedLines_get_ne c rest _ fun y hy => (hp.1 y hy).symm, Lines.get_set_same]
    · exact ih _ hp.2 h

/-- A bad spec is a ResourceError (R120, R270). -/
theorem specError_kind {s : State} {sp : LineSpec} {e : ErrRec} (h : specError s sp = some e) :
    e.kind = .resourceError ∧ e.code = 1 := by
  unfold specError at h
  split at h
  · simp only [Option.some.injEq] at h; subst h; exact ⟨rfl, rfl⟩
  · split at h
    · simp only [Option.some.injEq] at h; subst h; exact ⟨rfl, rfl⟩
    · split at h
      · simp only [Option.some.injEq] at h; subst h; exact ⟨rfl, rfl⟩
      · cases h

theorem specsError_kind {s : State} {e : ErrRec} : ∀ {specs : List LineSpec}, specsError s specs = some e →
    e.kind = .resourceError ∧ e.code = 1
  | [], h => by simp [specsError] at h
  | sp :: rest, h => by
    unfold specsError at h
    split at h
    · rename_i heq
      simp only [Option.some.injEq] at h
      subst h
      exact specError_kind heq
    · exact specsError_kind h

/-- The ownership draws change only the environment (R41). -/
theorem drawOwnership_spec : ∀ (specs : List LineSpec) (s : State), ∃ env : Env, env.clock = s.env.clock ∧
    (drawOwnership specs s = .ok () (s.setEnv env) ∨
      ∃ o, drawOwnership specs s = .err (errOffsetBusy o) (s.setEnv env))
  | [], s => ⟨s.env, rfl, Or.inl rfl⟩
  | sp :: rest, s => by
    obtain ⟨env, h1, h2⟩ := drawOwnership_spec rest (drawOffsetOwned s).2
    unfold drawOwnership
    simp only
    split
    · exact ⟨(drawOffsetOwned s).2.env, rfl, Or.inr ⟨sp.offset, rfl⟩⟩
    · exact ⟨env, h1, h2⟩

/-- Everything `line_acquire` can do (R120): it fails before the first grant, with nothing but the draws changed, or it
grants every requested line. -/
theorem lineAcquire_spec (chip : Text) (specs : List LineSpec) (s : State) : ∃ env : Env, env.clock = s.env.clock ∧
    ((∃ e, e.kind = .resourceError ∧ e.code = 1 ∧ lineAcquire chip specs s = .err e (s.setEnv env)) ∨
     (specs.Pairwise apart ∧ specsError s specs = none ∧
      lineAcquire chip specs s = .ok () { s with
        lines := grantedLines s.cfg specs s.lines
        env := env
        trace := s.trace ++ specs.map acquireEvent })) := by
  unfold lineAcquire
  cases hd : duplicateRole specs with
  | some r => exact ⟨s.env, rfl, Or.inl ⟨errDuplicateLine r, rfl, rfl, rfl⟩⟩
  | none =>
    cases he : specsError s specs with
    | some e => exact ⟨s.env, rfl, Or.inl ⟨e, (specsError_kind he).1, (specsError_kind he).2, rfl⟩⟩
    | none =>
      simp only
      cases hc : (drawChipOpens s).1
      · exact ⟨(drawChipOpens s).2.env, rfl, Or.inl ⟨errChipOpen, rfl, rfl, rfl⟩⟩
      · obtain ⟨env, h1, h2 | ⟨o, h2⟩⟩ := drawOwnership_spec specs (drawChipOpens s).2
        · refine ⟨env, h1, Or.inr ⟨duplicateRole_eq_none.mp hd, trivial, ?_⟩⟩
          rw [h2, Res.bind_ok, grantLines_eq]
          rfl
        · refine ⟨env, h1, Or.inl ⟨errOffsetBusy o, rfl, rfl, ?_⟩⟩
          rw [h2]
          rfl

/-- LINE_ACQUIRE with every check passed and every draw favourable (R120). -/
theorem lineAcquire_ok (chip : Text) {specs : List LineSpec} {s : State} {chips owned : List Bool}
    (hd : specs.Pairwise apart) (hs : ∀ sp ∈ specs, sp.direction = fixedDirection sp.role ∧
      rolePresent s.cfg sp.role = true ∧ (s.line sp.role).acquired = false)
    (hc : s.env.chipOpens = true :: chips) (ho : s.env.offsetOwned = List.replicate specs.length false ++ owned) :
    lineAcquire chip specs s = .ok () { s with
      lines := grantedLines s.cfg specs s.lines
      env := { s.env with
        chipOpens := chips
        offsetOwned := owned
        drawn := s.env.drawn + 1 + specs.length }
      trace := s.trace ++ specs.map acquireEvent } := by
  unfold lineAcquire
  rw [duplicateRole_eq_none.mpr hd, specsError_eq_none.mpr hs]
  have h1 : (drawChipOpens s).1 = true := by simp [drawChipOpens, hc]
  simp only [h1, Bool.not_true, Bool.false_eq_true, if_false, drawChipOpens_snd]
  rw [drawOwnership_ok specs _ owned (by simpa using ho), Res.bind_ok, grantLines_eq]
  simp [State.setEnv, hc]

/-! ## SPI_OPEN and SPI_CLOSE -/

/-- Everything `spi_open` can do (R124). -/
theorem spiOpen_spec (path : Text) (clockHz mode bits : Nat) (s : State) :
    (s.transport.isOpen = true ∧ spiOpen path clockHz mode bits s = .err errInvalidState s) ∨
    (s.transport.isOpen = false ∧ (drawDeviceOpens s).1 = false ∧
      spiOpen path clockHz mode bits s = .err errOpen (drawDeviceOpens s).2) ∨
    (s.transport.isOpen = false ∧ (drawDeviceOpens s).1 = true ∧ (mode > 3 ∨ bits ≠ 8 ∨ clockHz = 0) ∧
      spiOpen path clockHz mode bits s = .err errConfigure (drawDeviceOpens s).2) ∨
    (s.transport.isOpen = false ∧ (drawDeviceOpens s).1 = true ∧ mode ≤ 3 ∧ bits = 8 ∧ 1 ≤ clockHz ∧
      (drawDeviceAccepts (drawDeviceOpens s).2).1 = false ∧
      spiOpen path clockHz mode bits s = .err errConfigure (drawDeviceAccepts (drawDeviceOpens s).2).2) ∨
    (s.transport.isOpen = false ∧ (drawDeviceOpens s).1 = true ∧ mode ≤ 3 ∧ bits = 8 ∧ 1 ≤ clockHz ∧
      (drawDeviceAccepts (drawDeviceOpens s).2).1 = true ∧
      spiOpen path clockHz mode bits s = .ok ()
        (((drawDeviceAccepts (drawDeviceOpens s).2).2.setTransport
          ⟨true, path, clockHz, mode, bits, s.cfg.spiBitOrder⟩).emit
          (.opened path clockHz mode bits s.cfg.spiBitOrder))) := by
  unfold spiOpen
  cases ho : s.transport.isOpen
  · cases hd : (drawDeviceOpens s).1
    · refine Or.inr (Or.inl ⟨rfl, rfl, ?_⟩)
      simp only [hd, Bool.false_eq_true, if_false, Bool.not_false, if_true]
    · by_cases hc : mode > 3 ∨ bits ≠ 8 ∨ clockHz = 0
      · refine Or.inr (Or.inr (Or.inl ⟨rfl, rfl, hc, ?_⟩))
        simp only [hd, Bool.false_eq_true, if_false, Bool.not_true, hc, if_true]
      · have h1 : mode ≤ 3 ∧ bits = 8 ∧ 1 ≤ clockHz := by omega
        obtain ⟨hm, hb, hz⟩ := h1
        cases ha : (drawDeviceAccepts (drawDeviceOpens s).2).1
        · refine Or.inr (Or.inr (Or.inr (Or.inl ⟨rfl, rfl, hm, hb, hz, rfl, ?_⟩)))
          simp only [hd, Bool.false_eq_true, if_false, Bool.not_true, hc, ha, Bool.not_false, if_true]
        · refine Or.inr (Or.inr (Or.inr (Or.inr ⟨rfl, rfl, hm, hb, hz, rfl, ?_⟩)))
          simp only [hd, Bool.false_eq_true, if_false, Bool.not_true, hc, ha]
          rfl
  · simp

/-- SPI_OPEN of a legal configuration on a device that opens and accepts it (R124). -/
theorem spiOpen_ok {s : State} (path : Text) {clockHz mode bits : Nat} {ds as : List Bool}
    (ho : s.transport.isOpen = false) (hm : mode ≤ 3) (hb : bits = 8) (hz : 1 ≤ clockHz)
    (hd : s.env.deviceOpens = true :: ds) (ha : s.env.deviceAccepts = true :: as) :
    spiOpen path clockHz mode bits s = .ok () { s with
      transport := ⟨true, path, clockHz, mode, bits, s.cfg.spiBitOrder⟩
      env := { s.env with deviceOpens := ds, deviceAccepts := as, drawn := s.env.drawn + 2 }
      trace := s.trace ++ [.opened path clockHz mode bits s.cfg.spiBitOrder] } := by
  have h1 : (drawDeviceOpens s).1 = true := by simp [drawDeviceOpens, hd]
  have h2 : (drawDeviceAccepts (drawDeviceOpens s).2).1 = true := by simp [drawDeviceAccepts, ha]
  rcases spiOpen_spec path clockHz mode bits s with ⟨h, _⟩ | ⟨_, h, _⟩ | ⟨_, _, h, _⟩ | ⟨_, _, _, _, _, h, _⟩ |
    ⟨_, _, _, _, _, _, h⟩
  · rw [ho] at h; cases h
  · rw [h1] at h; cases h
  · omega
  · rw [h2] at h; cases h
  · rw [h]
    simp [State.emit, State.setTransport, State.setEnv, hd, ha]

/-- SPI_CLOSE (R126). -/
theorem spiClose_eq (s : State) : spiClose s = { s with
    transport := { s.transport with isOpen := false }
    trace := s.trace ++ closeEvents s } := by
  unfold spiClose closeEvents
  cases ho : s.transport.isOpen
  · have : s.transport = { s.transport with isOpen := false } := by rw [← ho]
    simp only [Bool.false_eq_true, if_false, List.append_nil]
    rw [← this]
  · simp [State.emit, State.setTransport]

/-! ## LINE_RELEASE -/

/-- One line given back, if it is held (R123): only its `acquired` and its level change. -/
theorem releaseLine_spec (r : Role) (s : State) : ∃ (v : Bit) (env : Env), env.clock = s.env.clock ∧
    ((s.line r).acquired = false → v = (s.line r).level ∧ env = s.env) ∧
    releaseLine r s = { s with
      lines := s.lines.set r { s.line r with acquired := false, level := v }
      env := env
      trace := s.trace ++ (if (s.line r).acquired then [.release r] else []) } := by
  unfold releaseLine
  cases ha : (s.line r).acquired
  · refine ⟨(s.line r).level, s.env, rfl, fun _ => ⟨rfl, rfl⟩, ?_⟩
    have : ({ s.line r with acquired := false, level := (s.line r).level } : Line) = s.line r := by rw [← ha]
    rw [this]
    simp only [ha, Bool.false_eq_true, if_false, List.append_nil]
    simp only [State.line, Lines.set_get]
  · refine ⟨(drawReleasedLevel s).1, (drawReleasedLevel s).2.env, rfl, fun h => absurd h (by decide), ?_⟩
    simp only [ha, if_true]
    rfl

/-- LINE_RELEASE (R123): every held line is given back, in order; a line not held stays as it is. -/
theorem lineRelease_spec (s : State) : ∃ (l : Lines) (env : Env), env.clock = s.env.clock ∧
    (∀ r, l.get r = { s.line r with acquired := false, level := (l.get r).level }) ∧
    (∀ r, (s.line r).acquired = false → l.get r = s.line r) ∧
    ((∀ r, (s.line r).acquired = false) → env = s.env) ∧
    lineRelease s = { s with lines := l, env := env, trace := s.trace ++ releaseEvents s } := by
  obtain ⟨v1, e1, c1, n1, h1⟩ := releaseLine_spec .dc s
  obtain ⟨v2, e2, c2, n2, h2⟩ := releaseLine_spec .rst (releaseLine .dc s)
  obtain ⟨v3, e3, c3, n3, h3⟩ := releaseLine_spec .busy (releaseLine .rst (releaseLine .dc s))
  obtain ⟨v4, e4, c4, n4, h4⟩ := releaseLine_spec .cs (releaseLine .busy (releaseLine .rst (releaseLine .dc s)))
  rw [h3, h2, h1] at c4 n4 h4
  rw [h2, h1] at c3 n3 h3
  rw [h1] at c2 n2 h2
  simp only [State.line, Lines.get, Lines.set] at *
  refine ⟨⟨{ s.lines.dc with acquired := false, level := v1 }, { s.lines.rst with acquired := false, level := v2 },
    { s.lines.busy with acquired := false, level := v3 }, { s.lines.cs with acquired := false, level := v4 }⟩, e4,
    ?_, ?_, ?_, ?_, ?_⟩
  · rw [c4, c3, c2, c1]
  · intro r; cases r <;> rfl
  · have hline : ∀ (l : Line) (v : Bit), l.acquired = false → v = l.level →
        ({ l with acquired := false, level := v } : Line) = l := by
      intro l v ha hv; subst hv; rw [← ha]
    intro r; cases r <;> intro ha
    · exact hline _ _ ha (n1 ha).1
    · exact hline _ _ ha (n2 ha).1
    · exact hline _ _ ha (n3 ha).1
    · exact hline _ _ ha (n4 ha).1
  · intro h
    rw [(n4 (h .cs)).2, (n3 (h .busy)).2, (n2 (h .rst)).2, (n1 (h .dc)).2]
  · unfold lineRelease
    rw [h1, h2, h3, h4]
    congr 1
    simp only [releaseEvents, State.line, Lines.get]
    rcases Bool.eq_false_or_eq_true s.lines.dc.acquired with h1 | h1 <;>
      rcases Bool.eq_false_or_eq_true s.lines.rst.acquired with h2 | h2 <;>
      rcases Bool.eq_false_or_eq_true s.lines.busy.acquired with h3 | h3 <;>
      rcases Bool.eq_false_or_eq_true s.lines.cs.acquired with h4 | h4 <;> simp [h1, h2, h3, h4]

/-! ## Admission -/

/-- Everything the gate can do (R277). -/
theorem admitted_spec (adm : Phase → Bool) (s : State) (run : Out) :
    (s.phase = .closed ∧ admitted adm s run = .refused .noSession) ∨
    (s.phase ≠ .closed ∧ (s.poisoned = true ∨ adm s.phase = false) ∧
      admitted adm s run = .next (rejected s errInvalidState)) ∨
    (s.phase ≠ .closed ∧ s.poisoned = false ∧ adm s.phase = true ∧ admitted adm s run = run) := by
  unfold admitted
  by_cases hc : s.phase = .closed
  · simp [hc]
  · cases hp : s.poisoned
    · cases ha : adm s.phase
      · simp [hc, deliver, rejected, poisons, hp]
      · simp [hc]
    · simp [hc, deliver, rejected, poisons, hp]

/-- An error raised before any action (R276). -/
theorem deliver_self (s : State) (e : ErrRec) : deliver s s e = rejected s e := by
  simp [deliver, rejected, poisons]

end Sys2Proof.Machine
end

