-- ==== Sys2Proof/Laws/Sequencer.lean ====
section
/-! SUPPORT. The exact end of the composite forms when every draw is favourable: commands with parameters, the busy-wait, Init
Table entries, the reset pulse, the window commands and the pixel stream; and every way a busy-wait can end. -/

namespace Sys2Proof.Machine

open Sys2Proof

/-! ## Commands with parameters -/

/-- The DC level a command with these parameters leaves (R156). -/
def cmdLevel (c : Cfg) (params : List Byte) : Bit := if params.isEmpty then c.dcCmdLevel else !c.dcCmdLevel

/-- The state after a command and its parameters, if it has any (R105). -/
def afterCmd (s : State) (op : Byte) (params : List Byte) : State :=
  { s with
    lines := framedLines s.cfg (cmdLevel s.cfg params) s.lines
    env := { s.env with
      writes := s.env.writes.drop (cmdWrites s.cfg params)
      drawn := s.env.drawn + cmdWrites s.cfg params }
    trace := s.trace ++ cmdEvents s.cfg op params }

theorem afterFrame_eq_afterCmd (s : State) (op : Byte) : afterFrame s s.cfg.dcCmdLevel [op] = afterCmd s op [] := by
  simp [afterFrame, afterCmd, cmdLevel, cmdWrites, framedWrites, cmdEvents, commandEvents, dataEvents]

theorem afterFrame_afterFrame (s : State) (op : Byte) {params : List Byte} (h : params ≠ []) :
    afterFrame (afterFrame s s.cfg.dcCmdLevel [op]) (!s.cfg.dcCmdLevel) params = afterCmd s op params := by
  have h0 : params.isEmpty = false := by simpa using h
  have h1 : framedWrites s.cfg [op] = 1 := by simp [framedWrites]
  simp [afterFrame, afterCmd, cmdLevel, cmdWrites, cmdEvents, commandEvents, dataEvents, framedLines_framedLines, h, h1,
    Nat.add_assoc, Nat.add_comm]

/-- A command and its parameters, if it has any. -/
theorem cmd_ok {s : State} (op : Byte) (params : List Byte) (hr : framerReady s)
    (hw : writesOk s (cmdWrites s.cfg params)) :
    ((sendCommand op s).bind fun _ s => if params.length > 0 then sendData params s else .ok () s) =
      .ok () (afterCmd s op params) := by
  rw [sendCommand_ok op hr (writesOk_le hw (by simp [cmdWrites])), Res.bind_ok]
  cases params with
  | nil => simp [afterFrame_eq_afterCmd]
  | cons b rest =>
    have hw' : writesOk s (framedWrites s.cfg [op] + framedWrites s.cfg (b :: rest)) := by
      refine writesOk_le hw ?_
      simp [cmdWrites, framedWrites]
    rw [if_pos (by simp), sendData_ok (framerReady_afterFrame hr) (by simp) (writesOk_afterFrame hw')]
    exact congrArg _ (afterFrame_afterFrame s op (by simp))

@[simp] theorem afterCmd_cfg (s : State) (op : Byte) (p : List Byte) : (afterCmd s op p).cfg = s.cfg := rfl
@[simp] theorem afterCmd_build (s : State) (op : Byte) (p : List Byte) : (afterCmd s op p).build = s.build := rfl

/-- What is held and what the framer finds are as before a call. -/
theorem framerReady_afterCmd {s : State} {op : Byte} {p : List Byte} (h : framerReady s) :
    framerReady (afterCmd s op p) :=
  framerReady_afterFrame (s := s) (dcl := cmdLevel s.cfg p) (data := [op]) h

theorem held_busy_afterCmd {s : State} {op : Byte} {p : List Byte} : held (afterCmd s op p) .busy ↔ held s .busy :=
  held_busy_afterFrame (s := s) (dcl := cmdLevel s.cfg p) (data := [op])

theorem writesOk_afterCmd {s : State} {op : Byte} {p : List Byte} {n : Nat}
    (h : writesOk s (cmdWrites s.cfg p + n)) : writesOk (afterCmd s op p) n := writesOk_drop h rfl

theorem framerReady_of_lines {s t : State} (h : framerReady s) (hl : t.lines = s.lines)
    (ht : t.transport = s.transport) (hc : t.cfg = s.cfg) : framerReady t := by
  obtain ⟨h1, h2, h3⟩ := h
  exact ⟨ht ▸ h1, (held_eq_of_lines hl _).mpr h2, fun hm => (held_eq_of_lines hl _).mpr (h3 (hc ▸ hm))⟩

/-! ## The busy-wait -/

/-- A busy-wait whose polls 1 to `k` read busy and whose poll `k + 1` reads ready in time (R176). -/
theorem waitReady_ok {s : State} {p : Polarity} {interval timeout k : Nat} (stage : Text) (hh : held s .busy)
    (hi : 1 ≤ interval) (hb : busyAnswers (busyLevel p) k <+: s.env.busy)
    (ht : waitInTime s.build interval timeout k) :
    ∃ e : Env, e.writes = s.env.writes ∧ e.busy = s.env.busy.drop (k + 1) ∧
      waitReady p interval timeout stage s = .ok (k + 1)
        { s with
          pollCount := k + 1
          env := e
          trace := s.trace ++ waitEvents s.build (busyLevel p) interval k } := by
  unfold waitReady
  rw [if_neg (by omega)]
  have hst := now_state (s.setPollCount 0)
  have hen := now_env (s.setPollCount 0)
  have hck := now_clock (s.setPollCount 0)
  have hex := @now_exact (s.setPollCount 0)
  simp only
  generalize now (s.setPollCount 0) = q at hst hen hck hex
  obtain ⟨t0, s2⟩ := q
  obtain ⟨e, rfl⟩ : ∃ e, s2 = (s.setPollCount 0).setEnv e := ⟨_, hst⟩
  simp only [State.setEnv_env] at hen hck
  obtain ⟨hbusy, hwr, -⟩ := hen
  simp only [State.setPollCount_env] at hbusy hwr
  -- the state the loop starts in
  obtain ⟨s3, hs3, h3⟩ : ∃ s3, firstPollDelay ((s.setPollCount 0).setEnv e) = s3 ∧
      s3 = { s with
        pollCount := 0
        env := { e with clock := e.clock + s.build.firstPollDelay }
        trace := s.trace ++ (if s.build.firstPollDelay > 0 then [.delay s.build.firstPollDelay] else []) } := by
    refine ⟨_, rfl, ?_⟩
    unfold firstPollDelay
    by_cases hf : s.build.firstPollDelay > 0
    · simp [hf, delay, State.emit, State.setEnv, State.setPollCount]
    · simp [show s.build.firstPollDelay = 0 by omega, State.setEnv, State.setPollCount]
  rw [hs3]
  have hfuel : k < pollFuel interval timeout := by
    rcases ht with rfl | ⟨_, ht⟩
    · simp [pollFuel]
    · have h1 : (k - 1) * interval < timeout := by omega
      have h2 : k - 1 ≤ timeout / interval := by
        rw [Nat.le_div_iff_mul_le hi]; omega
      simp only [pollFuel]; omega
  have key := pollLoop_ready (busy := busyLevel p) (interval := interval) (timeout := timeout) (stage := stage)
    (t0 := t0) k (pollFuel interval timeout) s3 (by rw [h3]; exact hh) hfuel
    (by rw [h3]; simpa [hbusy] using hb)
    (by
      rcases ht with rfl | ⟨hexact, htm⟩
      · exact Or.inl rfl
      · refine Or.inr ⟨by rw [h3]; exact hexact, ?_⟩
        have := hex hexact
        simp only [Prod.mk.injEq] at this
        obtain ⟨h1, h2⟩ := this
        have h4 : e = s.env := by
          have := congrArg State.env h2
          simpa using this
        rw [h3, h1, h4]
        simp only [State.setPollCount_env]
        omega)
  refine ⟨{ e with
      busy := e.busy.drop (k + 1)
      drawn := e.drawn + k + 1
      clock := e.clock + s.build.firstPollDelay + k * interval }, hwr, by simp [hbusy], ?_⟩
  rw [key, h3]
  simp [waitEvents, busyPolls]

/-- Everything a busy-wait on a held BUSY line can do (R170, R173, R174): ready at poll `k + 1` or a timeout at busy poll
`k + 1`, for a `k` that the timeout bounds. -/
theorem waitReady_spec {s : State} {p : Polarity} {interval timeout : Nat} (stage : Text) (hh : held s .busy)
    (hi : 1 ≤ interval) :
    ∃ k t, k ≤ (timeout + interval - 1) / interval ∧ t.pollCount = k + 1 ∧ waitKeeps s t ∧
      t.env.writes = s.env.writes ∧
      ((waitReady p interval timeout stage s = .ok (k + 1) t ∧
          t.trace = s.trace ++ waitEvents s.build (busyLevel p) interval k) ∨
       (waitReady p interval timeout stage s = .err (errTimeout stage (k + 1)) t ∧
          t.trace = s.trace ++ (waitEvents s.build (busyLevel p) interval k).dropLast ++
            [.lineGet .busy (busyLevel p)] ∧
          (now s).1 + timeout ≤ t.env.clock)) := by
  unfold waitReady
  rw [if_neg (by omega)]
  have hst := now_state (s.setPollCount 0)
  have hen := now_env (s.setPollCount 0)
  have hck := now_clock (s.setPollCount 0)
  rw [← now_setPollCount s 0]
  simp only
  generalize now (s.setPollCount 0) = q at hst hen hck
  obtain ⟨t0, s2⟩ := q
  obtain ⟨e, rfl⟩ : ∃ e, s2 = (s.setPollCount 0).setEnv e := ⟨_, hst⟩
  simp only [State.setEnv_env] at hen hck
  obtain ⟨-, hwr, -⟩ := hen
  simp only [State.setPollCount_env] at hwr
  obtain ⟨s3, hs3, h3⟩ : ∃ s3, firstPollDelay ((s.setPollCount 0).setEnv e) = s3 ∧
      s3 = { s with
        pollCount := 0
        env := { e with clock := e.clock + s.build.firstPollDelay }
        trace := s.trace ++ (if s.build.firstPollDelay > 0 then [.delay s.build.firstPollDelay] else []) } := by
    refine ⟨_, rfl, ?_⟩
    unfold firstPollDelay
    by_cases hf : s.build.firstPollDelay > 0
    · simp [hf, delay, State.emit, State.setEnv, State.setPollCount]
    · simp [show s.build.firstPollDelay = 0 by omega, State.setEnv, State.setPollCount]
  rw [hs3]
  have hc1 : timeout ≤ (timeout + interval - 1) / interval * interval := by
    have h1 := Nat.div_add_mod (timeout + interval - 1) interval
    have h2 := Nat.mod_lt (timeout + interval - 1) (show 0 < interval by omega)
    rw [Nat.mul_comm] at h1
    omega
  have hc2 : (timeout + interval - 1) / interval ≤ timeout / interval + 1 := by
    rw [← Nat.add_div_right timeout (show 0 < interval by omega)]
    exact Nat.div_le_div_right (by omega)
  obtain ⟨k, t, hk, hpc, hkeep, hw, -, hclk, hres⟩ := pollLoop_spec (busy := busyLevel p) (interval := interval)
    (timeout := timeout) (stage := stage) (t0 := t0) ((timeout + interval - 1) / interval + 1)
    (pollFuel interval timeout) s3 (by rw [h3]; exact hh) (by unfold pollFuel; exact Nat.succ_le_succ hc2)
    (by rw [h3]; simp only; omega) (Nat.le_add_left 1 _)
    (by rw [Nat.add_sub_cancel]; exact Nat.le_trans hc1 (Nat.le_add_left _ _))
  have hk0 : s3.pollCount = 0 := by rw [h3]
  rw [hk0, Nat.zero_add] at hpc
  have hks : waitKeeps s t := waitKeeps_trans (by rw [h3]; simp [waitKeeps]) hkeep
  refine ⟨k, t, Nat.lt_succ_iff.mp hk, hpc, hks, by rw [hw, h3]; exact hwr, ?_⟩
  have htr : s3.trace = s.trace ++ (if s.build.firstPollDelay > 0 then [.delay s.build.firstPollDelay] else []) := by
    rw [h3]
  rw [htr] at hres
  have hstart : t0 ≤ s3.env.clock := by rw [h3]; simp only; omega
  rcases hres with ⟨h1, h2⟩ | ⟨h1, h2, h4⟩
  · exact Or.inl ⟨by rw [h1, hpc], by rw [h2]; simp [waitEvents, busyPolls]⟩
  · exact Or.inr ⟨by rw [h1, hpc], by rw [h2]; simp [waitEvents, busyPolls], by
      have := Nat.le_trans (Nat.le_add_right _ _) hclk
      simp only
      omega⟩

/-- A busy line stuck at the busy level, under Exact timing with no delay before the first poll: the wait times out at the
first poll that is not before the timeout (R175). -/
theorem waitReady_timeout {s : State} {p : Polarity} {interval timeout n : Nat} (stage : Text) (hh : held s .busy)
    (hi : 1 ≤ interval) (hex : s.build.timing = .exact) (hf : s.build.firstPollDelay = 0)
    (hn : n = (timeout + interval - 1) / interval) (hb : List.replicate (n + 1) (busyLevel p) <+: s.env.busy) :
    timeout ≤ n * interval ∧ n * interval < timeout + interval ∧
      waitReady p interval timeout stage s = .err (errTimeout stage (n + 1))
        { s with
          pollCount := n + 1
          env := { s.env with
            busy := s.env.busy.drop (n + 1)
            drawn := s.env.drawn + n + 1
            clock := s.env.clock + n * interval }
          trace := s.trace ++ busyPolls (busyLevel p) interval n ++ [.lineGet .busy (busyLevel p)] } := by
  have h1 := Nat.div_add_mod (timeout + interval - 1) interval
  have h2 := Nat.mod_lt (timeout + interval - 1) (show 0 < interval by omega)
  rw [← hn, Nat.mul_comm] at h1
  have hlo : timeout ≤ n * interval := by omega
  have hhi : n * interval < timeout + interval := by omega
  refine ⟨hlo, hhi, ?_⟩
  have hn1 : n = 0 ∨ (n - 1) * interval < timeout := by
    by_cases h0 : n = 0
    · exact Or.inl h0
    · right
      obtain ⟨m, rfl⟩ : ∃ m, n = m + 1 := ⟨n - 1, by omega⟩
      rw [Nat.add_mul] at hhi
      simp only [Nat.add_sub_cancel]
      omega
  have hfuel : n < pollFuel interval timeout := by
    have : n ≤ timeout / interval + 1 := by
      rw [hn, ← Nat.add_div_right timeout (show 0 < interval by omega)]
      exact Nat.div_le_div_right (by omega)
    unfold pollFuel
    omega
  unfold waitReady
  rw [if_neg (by omega), now_exact (s := s.setPollCount 0) hex]
  have hfp : firstPollDelay (s.setPollCount 0) = s.setPollCount 0 := by simp [firstPollDelay, hf]
  simp only [hfp]
  rw [pollLoop_timeout n (pollFuel interval timeout) (s.setPollCount 0) hh hfuel hb hex
    (by simp only [State.setPollCount_env]; omega) (by simp only [State.setPollCount_env]; omega)]
  simp [State.setPollCount]

/-! ## Init Table entries -/

/-- One entry that runs to its end (R230). -/
theorem applyEntry_ok {s : State} {r : Entry × Nat} (hr : framerReady s) (he : entryRuns s r)
    (hw : writesOk s (entryWrites s.cfg r)) (hb : entryBusy s.cfg r <+: s.env.busy) :
    ∃ (e : Env) (n : Nat), e.writes = s.env.writes.drop (entryWrites s.cfg r) ∧
      e.busy = s.env.busy.drop (entryBusy s.cfg r).length ∧
      applyEntry r.1 s = .ok () { s with
        pollCount := n
        lines := framedLines s.cfg (cmdLevel s.cfg (r.1.params.map (BitVec.ofNat 8))) s.lines
        env := e
        trace := s.trace ++ entryEvents s.cfg s.build r } := by
  obtain ⟨en, k⟩ := r
  obtain ⟨hwf, hbw⟩ := he
  simp only at hwf hbw
  unfold applyEntry
  simp only [hwf, Bool.not_true, Bool.false_eq_true, if_false]
  have hcmd := cmd_ok (s := s) (BitVec.ofNat 8 en.opcode) (en.params.map (BitVec.ofNat 8)) hr hw
  rw [List.length_map] at hcmd
  have hassoc : ∀ {α β γ : Type} (r : Res α) (f : α → State → Res β) (g : β → State → Res γ),
      (r.bind fun a s => (f a s).bind g) = (r.bind f).bind g := by
    intro α β γ r f g; cases r <;> rfl
  rw [hassoc, hcmd, Res.bind_ok]
  cases hbusy : en.busyWait
  · refine ⟨{ (afterCmd s (BitVec.ofNat 8 en.opcode) (en.params.map (BitVec.ofNat 8))).env with
        clock := s.env.clock + en.postDelay }, s.pollCount, rfl, ?_, ?_⟩
    · simp [entryBusy, hbusy, afterCmd]
    · simp [entryEvents, hbusy, delay, State.emit, State.setEnv, afterCmd]
  · obtain ⟨hh, hi, ht⟩ := hbw hbusy
    have hb' : busyAnswers (busyLevel s.cfg.busyPolarity) k <+: s.env.busy := by simpa [entryBusy, hbusy] using hb
    obtain ⟨e, hew, heb, heq⟩ := waitReady_ok
      (s := afterCmd s (BitVec.ofNat 8 en.opcode) (en.params.map (BitVec.ofNat 8))) (p := s.cfg.busyPolarity)
      (interval := s.cfg.pollInterval) (timeout := s.cfg.opTimeout) stageInit (held_busy_afterCmd.mpr hh) hi hb' ht
    refine ⟨{ e with clock := e.clock + en.postDelay }, k + 1, ?_, ?_, ?_⟩
    · exact hew
    · have hl : (entryBusy s.cfg (en, k)).length = k + 1 := by simp [entryBusy, hbusy, busyAnswers]
      rw [hl]; exact heb
    · simp only [if_true, waitConfigured, afterCmd_cfg] at heq ⊢
      rw [heq]
      simp [entryEvents, hbusy, delay, State.emit, State.setEnv, afterCmd]

/-- The lines after framer calls: only the levels of DC and CS can differ. -/
def framerLines (l m : Lines) : Prop :=
  m.rst = l.rst ∧ m.busy = l.busy ∧ m.dc = { l.dc with level := m.dc.level } ∧ m.cs = { l.cs with level := m.cs.level }

theorem framerLines_refl (l : Lines) : framerLines l l := ⟨rfl, rfl, rfl, rfl⟩

theorem framerLines_trans {l m n : Lines} (h : framerLines l m) (h' : framerLines m n) : framerLines l n := by
  obtain ⟨a, b, c, d⟩ := h
  obtain ⟨a', b', c', d'⟩ := h'
  refine ⟨a'.trans a, b'.trans b, ?_, ?_⟩
  · rw [c', c]
  · rw [d', d]

theorem framerLines_framedLines (c : Cfg) (v : Bit) (l : Lines) : framerLines l (framedLines c v l) := by
  unfold framedLines framerLines
  split <;> simp [Lines.set]

/-- A line after framer calls. -/
theorem framerLines_get {l m : Lines} (h : framerLines l m) (r : Role) :
    m.get r = { l.get r with level := (m.get r).level } := by
  obtain ⟨a, b, c, d⟩ := h
  cases r <;> simp only [Lines.get]
  · exact c
  · rw [a]
  · rw [b]
  · exact d

/-- What is held stays held. -/
theorem held_of_framerLines {s t : State} (h : framerLines s.lines t.lines) (r : Role) : held t r ↔ held s r := by
  simp only [held, State.line]
  rw [framerLines_get h r]

theorem framerReady_of_framerLines {s t : State} (hr : framerReady s) (h : framerLines s.lines t.lines)
    (ht : t.transport = s.transport) (hc : t.cfg = s.cfg) : framerReady t := by
  obtain ⟨h1, h2, h3⟩ := hr
  exact ⟨ht ▸ h1, (held_of_framerLines h _).mpr h2, fun hm => (held_of_framerLines h _).mpr (h3 (hc ▸ hm))⟩

/-- Entries that all run to their end, from number `i` on (R230). -/
theorem applyEntries_ok : ∀ (runs : List (Entry × Nat)) (i : Nat) (s : State), (runs ≠ [] → framerReady s) →
    (∀ r ∈ runs, entryRuns s r) → writesOk s ((runs.map (entryWrites s.cfg)).sum) →
    runs.flatMap (entryBusy s.cfg) <+: s.env.busy →
    ∃ (e : Env) (n m : Nat) (l : Lines), framerLines s.lines l ∧
      e.writes = s.env.writes.drop ((runs.map (entryWrites s.cfg)).sum) ∧
      e.busy = s.env.busy.drop (runs.flatMap (entryBusy s.cfg)).length ∧
      applyEntries i (runs.map Prod.fst) s = .ok () { s with
        pollCount := n
        entryIndex := m
        lines := l
        env := e
        trace := s.trace ++ runs.flatMap (entryEvents s.cfg s.build) }
  | [], i, s, _, _, _, _ =>
    ⟨s.env, s.pollCount, s.entryIndex, s.lines, framerLines_refl _, by simp, by simp, by simp [applyEntries]⟩
  | r :: runs, i, s, hr, he, hw, hb => by
    have hr := hr (by simp)
    simp only [List.map_cons, List.sum_cons] at hw
    simp only [List.flatMap_cons] at hb
    obtain ⟨e₁, n₁, hew, heb, heq⟩ := applyEntry_ok (s := s.setEntryIndex i) (r := r) hr (he r (by simp))
      (writesOk_le (s := s) hw (Nat.le_add_right _ _)) ((List.prefix_append _ _).trans hb)
    simp only [State.setEntryIndex_env, State.setEntryIndex_cfg, State.setEntryIndex_lines, State.setEntryIndex_trace,
      State.setEntryIndex_build] at hew heb heq
    -- the state after this entry
    obtain ⟨s₁, hs₁⟩ : ∃ s₁ : State, s₁ = { s.setEntryIndex i with
        pollCount := n₁
        lines := framedLines s.cfg (cmdLevel s.cfg (r.1.params.map (BitVec.ofNat 8))) s.lines
        env := e₁
        trace := s.trace ++ entryEvents s.cfg s.build r } := ⟨_, rfl⟩
    have hl : framerLines s.lines s₁.lines := by rw [hs₁]; exact framerLines_framedLines _ _ _
    have hc : s₁.cfg = s.cfg := by rw [hs₁]; rfl
    have hbd : s₁.build = s.build := by rw [hs₁]; rfl
    have ht : s₁.transport = s.transport := by rw [hs₁]; rfl
    have hw₁ : s₁.env.writes = s.env.writes.drop (entryWrites s.cfg r) := by rw [hs₁]; exact hew
    have hb₁ : s₁.env.busy = s.env.busy.drop (entryBusy s.cfg r).length := by rw [hs₁]; exact heb
    obtain ⟨e, n, m, l, h1, h2, h3, h4⟩ := applyEntries_ok runs (i + 1) s₁
      (fun _ => framerReady_of_framerLines hr hl ht hc)
      (fun q hq => by
        obtain ⟨a, b⟩ := he q (by simp [hq])
        refine ⟨a, fun h => ?_⟩
        rw [hc, hbd]
        exact ⟨(held_of_framerLines hl _).mpr (b h).1, (b h).2⟩)
      (by rw [hc]; exact writesOk_drop hw hw₁)
      (by
        rw [hc, hb₁]
        obtain ⟨rest, hrest⟩ := hb
        exact ⟨rest, by rw [← hrest]; simp⟩)
    refine ⟨e, n, m, l, framerLines_trans hl h1, ?_, ?_, ?_⟩
    · rw [h2, hc, hw₁]; simp
    · rw [h3, hc, hb₁]; simp
    · simp only [List.map_cons, applyEntries]
      rw [heq, Res.mapErr_ok, Res.bind_ok]
      refine Eq.trans (b := applyEntries (i + 1) (runs.map Prod.fst) s₁) (by rw [hs₁]; rfl) ?_
      rw [h4, hc, hbd, hs₁]
      simp [State.setEntryIndex]

/-- A table whose entries all run to their end (R230). -/
theorem applyTable_ok (runs : List (Entry × Nat)) (s : State) (hr : runs ≠ [] → framerReady s)
    (he : ∀ r ∈ runs, entryRuns s r) (hw : writesOk s ((runs.map (entryWrites s.cfg)).sum))
    (hb : runs.flatMap (entryBusy s.cfg) <+: s.env.busy) :
    ∃ (e : Env) (n : Nat) (l : Lines), framerLines s.lines l ∧
      e.writes = s.env.writes.drop ((runs.map (entryWrites s.cfg)).sum) ∧
      e.busy = s.env.busy.drop (runs.flatMap (entryBusy s.cfg)).length ∧
      applyTable (runs.map Prod.fst) s = .ok () { s with
        pollCount := n
        entryIndex := 0
        lines := l
        env := e
        trace := s.trace ++ runs.flatMap (entryEvents s.cfg s.build) } := by
  obtain ⟨e, n, m, l, h1, h2, h3, h4⟩ := applyEntries_ok runs 1 s hr he hw hb
  exact ⟨e, n, l, h1, h2, h3, by rw [applyTable, h4]; rfl⟩

/-! ## The reset pulse -/

/-- The state after steps of a reset sequence (R231). -/
theorem resetSteps_ok : ∀ (steps : List ResetStep) (s : State), held s .rst →
    resetSteps steps s = .ok () { s with
      lines := s.lines.set .rst { s.lines.rst with level := (steps.map ResetStep.level).getLastD s.lines.rst.level }
      env := { s.env with clock := s.env.clock + (steps.map ResetStep.hold).sum }
      trace := s.trace ++ steps.flatMap fun st => [.lineSet .rst st.level, .delay st.hold] }
  | [], s, _ => by simp [resetSteps, Lines.set]
  | st :: rest, s, h => by
    simp only [resetSteps, lineSet_ok _ h rfl, Res.bind_ok]
    rw [resetSteps_ok rest _ (by simpa [held] using (held_afterSet s .rst .rst st.level).mpr h)]
    have hg : ∀ (a b : Bit) (l : List Bit), (a :: l).getLastD b = l.getLastD a := by
      intro a b l; cases l <;> rfl
    simp only [List.map_cons, hg]
    simp [delay, afterSet, State.emit, State.setEnv, State.setLine, State.setLines, Lines.set, Nat.add_assoc,
      State.line, Lines.get]

/-! ## The window commands and the pixel stream -/

/-- The window commands (R235): the lines and the answers they use up. -/
theorem windowSet_ok {s : State} (win : Window) (hr : framerReady s) (hw : writesOk s (windowWrites s.cfg)) :
    windowSet win s = .ok () { s with
      lines := framedLines s.cfg (if s.cfg.ramWriteCmd.isSome then s.cfg.dcCmdLevel else !s.cfg.dcCmdLevel) s.lines
      env := { s.env with
        writes := s.env.writes.drop (windowWrites s.cfg)
        drawn := s.env.drawn + windowWrites s.cfg }
      trace := s.trace ++ windowEvents s.cfg win } := by
  have hpair : ∀ (f : WindowFormat) (a b : Nat), windowParams f a b =
      be16 (BitVec.ofNat 16 a) ++ be16 (BitVec.ofNat 16 b) := by intro f a b; cases f; rfl
  have hlen : ∀ a b : Nat, cmdWrites s.cfg (be16 (BitVec.ofNat 16 a) ++ be16 (BitVec.ofNat 16 b)) =
      cmdWrites s.cfg (List.replicate 4 0) := by
    intro a b; simp [cmdWrites, framedWrites, be16]
  have hcmd : ∀ {u : State} (op : Byte) (a b : Nat), framerReady u → u.cfg = s.cfg →
      writesOk u (cmdWrites s.cfg (List.replicate 4 0)) → ∀ {β : Type} (f : Unit → State → Res β),
      (sendCommand op u).bind (fun _ v => (sendData (be16 (BitVec.ofNat 16 a) ++ be16 (BitVec.ofNat 16 b)) v).bind f) =
        f () (afterCmd u op (be16 (BitVec.ofNat 16 a) ++ be16 (BitVec.ofNat 16 b))) := by
    intro u op a b hu hc hwu β f
    have := cmd_ok op (be16 (BitVec.ofNat 16 a) ++ be16 (BitVec.ofNat 16 b)) hu (by rw [hc, hlen]; exact hwu)
    simp only [show (be16 (BitVec.ofNat 16 a) ++ be16 (BitVec.ofNat 16 b)).length > 0 by simp [be16], if_true] at this
    have hassoc : ∀ {α β γ : Type} (r : Res α) (f : α → State → Res β) (g : β → State → Res γ),
        (r.bind fun a s => (f a s).bind g) = (r.bind f).bind g := by
      intro α β γ r f g; cases r <;> rfl
    rw [hassoc, this]
    rfl
  have hne : ∀ a b : Nat, (be16 (BitVec.ofNat 16 a) ++ be16 (BitVec.ofNat 16 b)).isEmpty = false := by
    intro a b; simp [be16]
  unfold windowSet
  simp only [hpair]
  rw [hcmd _ _ _ hr rfl (writesOk_le hw (by simp [windowWrites]; omega))]
  have hw1 : writesOk s (cmdWrites s.cfg (List.replicate 4 0) +
      (cmdWrites s.cfg (List.replicate 4 0) + if s.cfg.ramWriteCmd.isSome then 1 else 0)) :=
    writesOk_le hw (by simp [windowWrites]; omega)
  have hw2 : writesOk (afterCmd s s.cfg.winXCmd (be16 (BitVec.ofNat 16 win.x0) ++ be16 (BitVec.ofNat 16 win.x1)))
      (cmdWrites s.cfg (List.replicate 4 0) + if s.cfg.ramWriteCmd.isSome then 1 else 0) :=
    writesOk_afterCmd (by rw [hlen]; exact hw1)
  rw [hcmd _ _ _ (framerReady_afterCmd hr) rfl (writesOk_le hw2 (by omega))]
  cases hram : s.cfg.ramWriteCmd with
  | none =>
    simp [afterCmd, hram, windowEvents, windowWrites, hlen, cmdLevel, hne, framedLines_framedLines, Nat.two_mul,
      Nat.add_assoc]
  | some op =>
    simp only [hram, Option.isSome_some, if_true] at hw2
    have hw3 := writesOk_afterCmd (s := afterCmd s s.cfg.winXCmd
      (be16 (BitVec.ofNat 16 win.x0) ++ be16 (BitVec.ofNat 16 win.x1))) (op := s.cfg.winYCmd)
      (p := be16 (BitVec.ofNat 16 win.y0) ++ be16 (BitVec.ofNat 16 win.y1)) (n := 1)
      (by rw [afterCmd_cfg, hlen]; exact hw2)
    dsimp only
    rw [sendCommand_ok _ (framerReady_afterCmd (framerReady_afterCmd hr)) hw3, afterFrame_eq_afterCmd]
    simp [afterCmd, hram, windowEvents, windowWrites, hlen, cmdLevel, framedLines_framedLines, Nat.two_mul,
      Nat.add_assoc, cmdEvents, dataEvents]
    simp [cmdWrites]

/-- The transport writes of a stream, every one answered Ok (R237). -/
theorem writePieces_ok : ∀ (pieces : List (List Byte)) (s : State), s.transport.isOpen = true →
    writesOk s pieces.length →
    writePieces pieces s = .ok () { s with
      streamRemaining := pieces.foldl (fun n p => n - p.length / 2) s.streamRemaining
      env := { s.env with writes := s.env.writes.drop pieces.length, drawn := s.env.drawn + pieces.length }
      trace := s.trace ++ pieces.map fun p => .spiWrite p true }
  | [], s, _, _ => by simp [writePieces]
  | p :: rest, s, ho, hw => by
    have hw' : writesOk s (1 + rest.length) := by simpa [Nat.add_comm] using hw
    simp only [writePieces]
    rw [spiWrite_ok p ho (writesOk_le hw' (by omega)), Res.bind_ok,
      writePieces_ok rest _ ?ho ?hw]
    case ho => exact ho
    case hw => exact writesOk_afterWrite (s := s) (d := p) hw'
    simp [afterWrite, State.setRemaining, Nat.add_assoc, Nat.add_comm]

/-- The transport writes of a stream, the one after `sent` failing after `k` bytes (R237). -/
theorem writePieces_fail {piece : List Byte} {rest : List (List Byte)} {k : Nat} {ws : List WriteAnswer} :
    ∀ (sent : List (List Byte)) (s : State), s.transport.isOpen = true → k < piece.length →
    s.env.writes = List.replicate sent.length .ok ++ .fail k :: ws →
    writePieces (sent ++ piece :: rest) s = .err (errShortWrite k) { s with
      streamRemaining := sent.foldl (fun n p => n - p.length / 2) s.streamRemaining
      env := { s.env with writes := ws, drawn := s.env.drawn + (sent.length + 1) }
      trace := s.trace ++ sent.map (fun p => .spiWrite p true) ++ [.spiWrite (piece.take k) false] }
  | [], s, ho, hk, hw => by
    simp only [List.nil_append, writePieces]
    rw [spiWrite_fail (ws := ws) ho (by simpa using hw) hk]
    simp
  | p :: sent, s, ho, hk, hw => by
    have hw1 : writesOk s 1 := ⟨List.replicate sent.length .ok ++ .fail k :: ws, by rw [hw]; rfl⟩
    simp only [List.cons_append, writePieces]
    rw [spiWrite_ok p ho hw1, Res.bind_ok, writePieces_fail (ws := ws) sent _ ?ho hk ?hw]
    case ho => exact ho
    case hw => simp [afterWrite, hw, State.setRemaining, List.replicate_succ]
    simp [afterWrite, State.setRemaining]
    omega

/-- Pieces that hold whole pixels count down to what they leave. -/
theorem pieces_countdown : ∀ (pieces : List (List Byte)) (n : Nat), (∀ p ∈ pieces, p.length % 2 = 0) →
    pieces.foldl (fun n p => n - p.length / 2) n = n - pieces.flatten.length / 2
  | [], n, _ => by simp
  | p :: rest, n, h => by
    have h1 := h p (by simp)
    rw [List.foldl_cons, pieces_countdown rest _ fun q hq => h q (by simp [hq])]
    simp only [List.flatten_cons, List.length_append]
    omega

/-- The pixel stream, every write answered Ok (R237). -/
theorem streamBody_ok {s : State} (chunks pieces : List (List Byte)) (n : Nat) (hr : framerReady s)
    (hp : pieces = chunks.flatMap (splitPieces s.build.maxWriteBytes)) (hw : writesOk s pieces.length) :
    streamBody chunks n s = .ok () { s with
      streamRemaining := pieces.foldl (fun n p => n - p.length / 2) n
      lines := framedLines s.cfg (!s.cfg.dcCmdLevel) s.lines
      env := { s.env with writes := s.env.writes.drop pieces.length, drawn := s.env.drawn + pieces.length }
      trace := s.trace ++ streamEvents s.cfg pieces } := by
  obtain ⟨ho, hdc, hcs⟩ := hr
  unfold streamBody streamCs
  simp only [State.setRemaining_cfg]
  by_cases hm : s.cfg.csMode = .none
  · simp only [hm, ne_eq, not_true_eq_false, if_false, Res.bind_ok]
    rw [lineSet_ok _ (by simpa using hdc) rfl, Res.bind_ok, afterSet_build, State.setRemaining_build, ← hp,
      writePieces_ok pieces _ ?ho ?hw, Res.bind_ok]
    case ho => exact ho
    case hw => exact hw
    simp [afterSet, hm, framedLines, streamEvents, State.emit, State.setLine, State.setLines, State.setRemaining,
      State.line, Lines.get]
  · have hcs := hcs hm
    simp only [hm, ne_eq, not_false_eq_true, if_true]
    rw [lineSet_ok _ (by simpa using hcs) rfl, Res.bind_ok, lineSet_ok _ (by simpa using hdc) rfl, Res.bind_ok,
      afterSet_build, afterSet_build, State.setRemaining_build, ← hp,
      writePieces_ok pieces _ ?ho ?hw, Res.bind_ok]
    case ho => exact ho
    case hw => exact hw
    simp only [afterSet_cfg, State.setRemaining_cfg, hm, not_false_eq_true, if_true]
    rw [lineSet_ok _ (by
      refine (held_eq_of_lines (s := afterSet (afterSet (s.setRemaining n) .cs s.cfg.csActiveLevel) .dc
        (!s.cfg.dcCmdLevel)) rfl .cs).mpr ?_
      simpa using hcs) rfl]
    simp [afterSet, hm, framedLines, streamEvents, State.emit, State.setLine, State.setLines, State.setRemaining,
      State.line, Lines.get, Lines.set]

/-- The pixel stream, the write after the pieces `sent` failing after `k` bytes (R237, R314). -/
theorem streamBody_fail {s : State} (chunks sent rest : List (List Byte)) (piece : List Byte) (n k : Nat)
    (ws : List WriteAnswer) (hr : framerReady s)
    (hp : chunks.flatMap (splitPieces s.build.maxWriteBytes) = sent ++ piece :: rest) (hk : k < piece.length)
    (hw : s.env.writes = List.replicate sent.length .ok ++ .fail k :: ws) :
    streamBody chunks n s = .err (errShortWrite k) { s with
      streamRemaining := sent.foldl (fun n p => n - p.length / 2) n
      lines := failedFrameLines s.cfg (!s.cfg.dcCmdLevel) s.lines
      env := { s.env with writes := ws, drawn := s.env.drawn + (sent.length + 1) }
      trace := s.trace ++ failedStreamEvents s.cfg sent (piece.take k) } := by
  obtain ⟨ho, hdc, hcs⟩ := hr
  unfold streamBody streamCs
  simp only [State.setRemaining_cfg]
  by_cases hm : s.cfg.csMode = .none
  · simp only [hm, ne_eq, not_true_eq_false, if_false, Res.bind_ok]
    rw [lineSet_ok _ (by simpa using hdc) rfl, Res.bind_ok, afterSet_build, State.setRemaining_build, hp,
      writePieces_fail (ws := ws) sent _ ?ho hk ?hw, Res.bind_err]
    case ho => exact ho
    case hw => exact hw
    simp [afterSet, hm, failedFrameLines, failedStreamEvents, State.emit, State.setLine, State.setLines,
      State.setRemaining, State.line, Lines.get]
  · have hcs := hcs hm
    simp only [hm, ne_eq, not_false_eq_true, if_true]
    rw [lineSet_ok _ (by simpa using hcs) rfl, Res.bind_ok, lineSet_ok _ (by simpa using hdc) rfl, Res.bind_ok,
      afterSet_build, afterSet_build, State.setRemaining_build, hp,
      writePieces_fail (ws := ws) sent _ ?ho hk ?hw, Res.bind_err]
    case ho => exact ho
    case hw => exact hw
    simp [afterSet, hm, failedFrameLines, failedStreamEvents, State.emit, State.setLine, State.setLines,
      State.setRemaining, State.line, Lines.get, Lines.set]

/-- A failed write leaves only its own lines, whatever framer calls came before. -/
theorem failedFrameLines_framedLines (c : Cfg) (d e : Bit) (l : Lines) :
    failedFrameLines c e (framedLines c d l) = failedFrameLines c e l := by
  unfold failedFrameLines framedLines
  split <;> simp [Lines.set]

end Sys2Proof.Machine
end

