-- ==== Sys2Proof/Laws/Frame.lean ====
section
/-! SUPPORT. What no internal form changes, read off the relation of Laws/Actions.lean, and what applying a table does when
it fails. -/

namespace Sys2Proof.Machine

open Sys2Proof

/-- The registers that only the delivery of an error or the end of an operation writes, and the configuration; the trace has
only grown, by events of which none is an Error (R34, R35, R275). -/
def kept (s t : State) : Prop :=
  t.cfg = s.cfg ∧ t.build = s.build ∧ t.input = s.input ∧ t.poisoned = s.poisoned ∧ t.lastError = s.lastError ∧
    t.result = s.result ∧ ∃ es, t.trace = s.trace ++ es ∧ ∀ x ∈ es, isError x = false

theorem kept_of_trace {s t : State} (es : List Event) (h1 : t.cfg = s.cfg) (h2 : t.build = s.build) (h3 : t.input = s.input)
    (h4 : t.poisoned = s.poisoned) (h5 : t.lastError = s.lastError) (h6 : t.result = s.result)
    (h7 : t.trace = s.trace ++ es) (h8 : ∀ x ∈ es, isError x = false) : kept s t :=
  ⟨h1, h2, h3, h4, h5, h6, es, h7, h8⟩

theorem kept_nothing {s t : State} (h1 : t.cfg = s.cfg) (h2 : t.build = s.build) (h3 : t.input = s.input)
    (h4 : t.poisoned = s.poisoned) (h5 : t.lastError = s.lastError) (h6 : t.result = s.result) (h7 : t.trace = s.trace) :
    kept s t := kept_of_trace [] h1 h2 h3 h4 h5 h6 (by simp [h7]) (by simp)

/-- Every action leaves them (R37). -/
theorem kept_actions : Actions kept where
  refl s := kept_nothing rfl rfl rfl rfl rfl rfl rfl
  trans := by
    rintro s t u ⟨a1, a2, a3, a4, a5, a6, es, a7, a8⟩ ⟨b1, b2, b3, b4, b5, b6, fs, b7, b8⟩
    refine ⟨b1.trans a1, b2.trans a2, b3.trans a3, b4.trans a4, b5.trans a5, b6.trans a6, es ++ fs, ?_, ?_⟩
    · rw [b7, a7, List.append_assoc]
    · intro x hx
      rcases List.mem_append.mp hx with hx | hx
      · exact a8 x hx
      · exact b8 x hx
  set s r v _ _ := kept_of_trace [.lineSet r v] rfl rfl rfl rfl rfl rfl rfl (by simp [isError])
  get s r v _ _ := kept_of_trace [.lineGet r v] rfl rfl rfl rfl rfl rfl rfl (by simp [isError])
  write s bs c _ := kept_of_trace [.spiWrite bs c] rfl rfl rfl rfl rfl rfl rfl (by simp [isError])
  delay s d := kept_of_trace [.delay d] rfl rfl rfl rfl rfl rfl rfl (by simp [isError])
  env s e _ := kept_nothing rfl rfl rfl rfl rfl rfl rfl
  now s := by rw [now_state]; exact kept_nothing rfl rfl rfl rfl rfl rfl rfl
  polls s n := kept_nothing rfl rfl rfl rfl rfl rfl rfl
  grant s sp _ _ := kept_of_trace [acquireEvent sp] rfl rfl rfl rfl rfl rfl rfl (by simp [isError, acquireEvent])
  release s r v _ := kept_of_trace [.release r] rfl rfl rfl rfl rfl rfl rfl (by simp [isError])
  opened s path clockHz mode bits _ _ _ _ :=
    kept_of_trace [.opened path clockHz mode bits s.cfg.spiBitOrder] rfl rfl rfl rfl rfl rfl rfl (by simp [isError])
  closed s _ := kept_of_trace [.closed] rfl rfl rfl rfl rfl rfl rfl (by simp [isError])

theorem kept_setEntryIndex (s : State) (n : Nat) : kept s (s.setEntryIndex n) :=
  kept_nothing rfl rfl rfl rfl rfl rfl rfl
theorem kept_setRemaining (s : State) (n : Nat) : kept s (s.setRemaining n) :=
  kept_nothing rfl rfl rfl rfl rfl rfl rfl
theorem kept_setPhase (s : State) (p : Phase) : kept s (s.setPhase p) :=
  kept_nothing rfl rfl rfl rfl rfl rfl rfl

/-- `phase`, ENTRY_INDEX and STREAM_REMAINING are written by no action (R21, R30, R31). -/
theorem position_actions : Actions fun s t =>
    t.phase = s.phase ∧ t.entryIndex = s.entryIndex ∧ t.streamRemaining = s.streamRemaining where
  refl s := ⟨rfl, rfl, rfl⟩
  trans h h' := ⟨h'.1.trans h.1, h'.2.1.trans h.2.1, h'.2.2.trans h.2.2⟩
  set s r v _ _ := ⟨rfl, rfl, rfl⟩
  get s r v _ _ := ⟨rfl, rfl, rfl⟩
  write s bs c _ := ⟨rfl, rfl, rfl⟩
  delay s d := ⟨rfl, rfl, rfl⟩
  env s e _ := ⟨rfl, rfl, rfl⟩
  now s := by rw [now_state]; exact ⟨rfl, rfl, rfl⟩
  polls s n := ⟨rfl, rfl, rfl⟩
  grant s sp _ _ := ⟨rfl, rfl, rfl⟩
  release s r v _ := ⟨rfl, rfl, rfl⟩
  opened s path clockHz mode bits _ _ _ _ := ⟨rfl, rfl, rfl⟩
  closed s _ := ⟨rfl, rfl, rfl⟩

/-- `phase` alone: also the writes of the counters leave it (R21). -/
theorem phase_actions : Actions fun s t => t.phase = s.phase where
  refl s := rfl
  trans h h' := h'.trans h
  set s r v _ _ := rfl
  get s r v _ _ := rfl
  write s bs c _ := rfl
  delay s d := rfl
  env s e _ := rfl
  now s := by rw [now_state]; rfl
  polls s n := rfl
  grant s sp _ _ := rfl
  release s r v _ := rfl
  opened s path clockHz mode bits _ _ _ _ := rfl
  closed s _ := rfl

/-- A table that fails: the entries before the failing one ran to their end, and the error carries its number (R230, R236). -/
theorem applyEntries_err : ∀ (table : List Entry) (i : Nat) (s u : State) (e : ErrRec),
    applyEntries i table s = .err e u →
    ∃ pre en post s₁ e₀, table = pre ++ en :: post ∧ applyEntries i pre s = .ok () s₁ ∧
      applyEntry en (s₁.setEntryIndex (pre.length + i)) = .err e₀ u ∧ e = withEntry (pre.length + i) e₀ := by
  intro table
  induction table with
  | nil => intro i s u e h; simp [applyEntries] at h
  | cons x xs ih =>
    intro i s u e h
    rw [applyEntries] at h
    cases hx : applyEntry x (s.setEntryIndex i) with
    | err e₀ u₀ =>
      rw [hx] at h
      simp only [Res.mapErr_err, Res.bind_err, Res.err.injEq] at h
      obtain ⟨rfl, rfl⟩ := h
      exact ⟨[], x, xs, s, e₀, rfl, rfl, by rw [List.length_nil, Nat.zero_add]; exact hx, by simp⟩
    | ok a u₀ =>
      rw [hx] at h
      simp only [Res.mapErr_ok, Res.bind_ok] at h
      obtain ⟨pre, en, post, s₁, e₀, h1, h2, h3, h4⟩ := ih _ _ _ _ h
      have hl : (x :: pre).length + i = pre.length + (i + 1) := by rw [List.length_cons]; omega
      refine ⟨x :: pre, en, post, s₁, e₀, by simp [h1], ?_, by rw [hl]; exact h3, by rw [hl]; exact h4⟩
      rw [applyEntries, hx]
      exact h2

end Sys2Proof.Machine
end

