-- ==== Sys2Proof/Laws/Gate.lean ====
section
/-! SUPPORT. Each operation with the gate open: what exec answers is the end of the operation's internal form. With these a
proof about an operation starts at its internal form (spec/00_scope.md R11, spec/60_exceptions.md R277). -/

namespace Sys2Proof.Machine

open Sys2Proof

/-- An open gate lets the operation run (R277). -/
theorem admitted_of_gateOpen {adm : Phase → Bool} {i : Instr} {s : State} {run : Out} (hg : gateOpen i s)
    (h : ∀ p, admission i p = adm p) (hc : adm .closed = false) : admitted adm s run = run := by
  obtain ⟨hp, ha⟩ := hg
  rw [h] at ha
  rcases admitted_spec adm s run with ⟨h1, _⟩ | ⟨_, h1, _⟩ | ⟨_, _, _, h1⟩
  · rw [h1, hc] at ha; cases ha
  · rw [hp, ha] at h1; simp at h1
  · exact h1

theorem exec_lineAcquire {s : State} {chip : Text} {specs : List LineSpec} (hg : gateOpen (.lineAcquire chip specs) s) :
    exec (.lineAcquire chip specs) s = .next (conclude s ((lineAcquire chip specs s).map fun _ => .ok)) :=
  admitted_of_gateOpen hg (fun p => by cases p <;> rfl) rfl

theorem exec_lineSet {s : State} {r : Role} {v : Bit} (hg : gateOpen (.lineSet r v) s) :
    exec (.lineSet r v) s = .next (conclude s ((lineSet r v s).map fun _ => .ok)) :=
  admitted_of_gateOpen hg (fun p => by cases p <;> rfl) rfl

theorem exec_lineGet {s : State} {r : Role} (hg : gateOpen (.lineGet r) s) :
    exec (.lineGet r) s = .next (conclude s ((lineGet r s).map .level)) :=
  admitted_of_gateOpen hg (fun p => by cases p <;> rfl) rfl

theorem exec_lineRelease {s : State} (hg : gateOpen .lineRelease s) :
    exec .lineRelease s = .next ((lineRelease s).setResult .ok) :=
  admitted_of_gateOpen hg (fun p => by cases p <;> rfl) rfl

theorem exec_spiOpen {s : State} {path : Text} {clockHz mode bits : Nat}
    (hg : gateOpen (.spiOpen path clockHz mode bits) s) :
    exec (.spiOpen path clockHz mode bits) s =
      .next (conclude s ((spiOpen path clockHz mode bits s).map fun _ => .ok)) :=
  admitted_of_gateOpen hg (fun p => by cases p <;> rfl) rfl

theorem exec_spiWrite {s : State} {data : List Byte} (hg : gateOpen (.spiWrite data) s) :
    exec (.spiWrite data) s =
      if data.isEmpty then .refused .emptyTransfer else .next (conclude s ((spiWrite data s).map fun _ => .ok)) :=
  admitted_of_gateOpen hg (fun p => by cases p <;> rfl) rfl

theorem exec_spiClose {s : State} (hg : gateOpen .spiClose s) :
    exec .spiClose s = .next ((spiClose s).setResult .ok) :=
  admitted_of_gateOpen hg (fun p => by cases p <;> rfl) rfl

theorem exec_delay {s : State} {d : Nat} (hg : gateOpen (.delay d) s) :
    exec (.delay d) s = .next ((delay d s).setResult .ok) :=
  admitted_of_gateOpen hg (fun p => by cases p <;> rfl) rfl

theorem exec_sendCommand {s : State} {op : Byte} (hg : gateOpen (.sendCommand op) s) :
    exec (.sendCommand op) s = .next (conclude s ((sendCommand op s).map fun _ => .ok)) :=
  admitted_of_gateOpen hg (fun p => by cases p <;> rfl) rfl

theorem exec_sendData {s : State} {data : List Byte} (hg : gateOpen (.sendData data) s) :
    exec (.sendData data) s =
      if data.isEmpty then .refused .emptyTransfer else .next (conclude s ((sendData data s).map fun _ => .ok)) :=
  admitted_of_gateOpen hg (fun p => by cases p <;> rfl) rfl

theorem exec_waitReady {s : State} {p : Polarity} {interval timeout : Nat} {stage : Text}
    (hg : gateOpen (.waitReady p interval timeout stage) s) :
    exec (.waitReady p interval timeout stage) s =
      .next (conclude s ((waitReady p interval timeout stage s).map .ready)) :=
  admitted_of_gateOpen hg (fun p => by cases p <;> rfl) rfl

theorem exec_fbCheck {s : State} {fb : Framebuffer} (hg : gateOpen (.fbCheck fb) s) :
    exec (.fbCheck fb) s = .next (conclude s ((Res.ofExcept s (fbCheck fb)).map fun _ => .ok)) :=
  admitted_of_gateOpen hg (fun p => by cases p <;> rfl) rfl

theorem exec_encodeMono {s : State} {w h : Nat} {m : List Byte} (hg : gateOpen (.encodeMono w h m) s) :
    exec (.encodeMono w h m) s = .next (conclude s ((Res.ofExcept s (encodeMono w h m)).map .frame)) :=
  admitted_of_gateOpen hg (fun p => by cases p <;> rfl) rfl

theorem exec_decodeMono {s : State} {fb : Framebuffer} (hg : gateOpen (.decodeMono fb) s) :
    exec (.decodeMono fb) s = .next (conclude s ((Res.ofExcept s (decodeMono fb)).map .blackmap)) :=
  admitted_of_gateOpen hg (fun p => by cases p <;> rfl) rfl

theorem exec_encodeRgb565 {s : State} {w h : Nat} {cs : List U16} (hg : gateOpen (.encodeRgb565 w h cs) s) :
    exec (.encodeRgb565 w h cs) s = .next (conclude s ((Res.ofExcept s (encodeRgb565 w h cs)).map .frame)) :=
  admitted_of_gateOpen hg (fun p => by cases p <;> rfl) rfl

theorem exec_fillChunks {s : State} {color : U16} {count : Nat} (hg : gateOpen (.fillChunks color count) s) :
    exec (.fillChunks color count) s = .next (s.setResult (.chunks (fillChunks s.build.chunkPixels color count))) :=
  admitted_of_gateOpen hg (fun p => by cases p <;> rfl) rfl

theorem exec_windowCheck {s : State} {w h : Nat} {win : Window} (hg : gateOpen (.windowCheck w h win) s) :
    exec (.windowCheck w h win) s = .next (conclude s ((Res.ofExcept s (windowCheck w h win)).map .count)) :=
  admitted_of_gateOpen hg (fun p => by cases p <;> rfl) rfl

theorem exec_initApply {s : State} {table : List Entry} (hg : gateOpen (.initApply table) s) :
    exec (.initApply table) s = .next (conclude s ((applyTable table s).map fun _ => .ok)) :=
  admitted_of_gateOpen hg (fun p => by cases p <;> rfl) rfl

theorem exec_sessionOpen {s : State} (hg : gateOpen .sessionOpen s) :
    exec .sessionOpen s = .next (conclude s ((sessionOpen s).map fun _ => .ok)) :=
  admitted_of_gateOpen hg (fun p => by cases p <;> rfl) rfl

theorem exec_initializePanel {s : State} (hg : gateOpen .initializePanel s) :
    exec .initializePanel s = .next (conclude s ((initializePanel s).map fun _ => .ok)) :=
  admitted_of_gateOpen hg (fun p => by cases p <;> rfl) rfl

theorem exec_refresh {s : State} {old new : Framebuffer} (hg : gateOpen (.refresh old new) s) :
    exec (.refresh old new) s = .next (conclude s ((refresh old new s).map fun _ => .ok)) :=
  admitted_of_gateOpen hg (fun p => by cases p <;> rfl) rfl

theorem exec_streamPixels {s : State} {win : Window} {pixels : List Byte} (hg : gateOpen (.streamPixels win pixels) s) :
    exec (.streamPixels win pixels) s = .next (conclude s ((streamPixels win pixels s).map fun _ => .ok)) :=
  admitted_of_gateOpen hg (fun p => by cases p <;> rfl) rfl

theorem exec_streamFill {s : State} {win : Window} {color : U16} (hg : gateOpen (.streamFill win color) s) :
    exec (.streamFill win color) s = .next (conclude s ((streamFill win color s).map fun _ => .ok)) :=
  admitted_of_gateOpen hg (fun p => by cases p <;> rfl) rfl

theorem exec_sleep {s : State} (hg : gateOpen .sleep s) :
    exec .sleep s = .next (conclude s ((sleep s).map fun _ => .ok)) :=
  admitted_of_gateOpen hg (fun p => by cases p <;> rfl) rfl

theorem exec_teardown (s : State) : exec .teardown s = .next ((teardown s).setResult .ok) := rfl

end Sys2Proof.Machine
end

