-- ==== Sys2Proof/Laws/Packer.lean ====
section
/-! SUPPORT. What the bit-packer's functions compute, element by element: framebuffer checks, the bits of a packed image, the
bytes of serialised pixels, the chunks of a fill and the pieces of a split. -/

namespace Sys2Proof.Machine

open Sys2Proof

/-! ## fb_check -/

/-- FB_CHECK accepts exactly these (R190). -/
theorem fbCheck_ok_iff {fb : Framebuffer} : fbCheck fb = .ok () ↔
    (1 ≤ fb.width ∧ fb.width ≤ 65535 ∧ 1 ≤ fb.height ∧ fb.height ≤ 65535 ∧
      (fb.encoding = .mono1bpp → fb.width % 8 = 0) ∧
      fb.bytes.length = requiredLength fb.width fb.height fb.encoding) := by
  unfold fbCheck dimsOutside maxDim
  simp only [Bool.or_eq_true, decide_eq_true_eq]
  constructor
  · intro h
    split at h
    · cases h
    · split at h
      · cases h
      · split at h
        · cases h
        · rename_i h1 h2 h3
          exact ⟨by omega, by omega, by omega, by omega, fun he => by_contra fun hc => h2 ⟨he, hc⟩, by simpa using h3⟩
  · rintro ⟨h1, h2, h3, h4, h5, h6⟩
    rw [if_neg (by omega), if_neg (fun hc => hc.2 (h5 hc.1)), if_neg (by simpa using h6)]

theorem requiredLength_mono {w h : Nat} (hw : w % 8 = 0) : requiredLength w h .mono1bpp = w * h / 8 := by
  obtain ⟨k, rfl⟩ : ∃ k, w = 8 * k := ⟨w / 8, by omega⟩
  simp only [requiredLength, ceilDiv, bpp, Nat.mul_one, Nat.mul_assoc]
  omega

theorem requiredLength_rgb (w h : Nat) : requiredLength w h .rgb565 = 2 * (w * h) := by
  simp only [requiredLength, ceilDiv, bpp]
  omega

/-! ## Packed images -/

/-- The bits of a byte built from eight black flags (R192's closed form). -/
theorem monoByte_getLsbD (w : Nat) (black : Nat → Nat → Bool) (k j : Nat) (hj : j < 8) :
    (monoByte w black k).getLsbD (7 - j) = !black ((8 * k + j) / w) ((8 * k + j) % w) := by
  have key : ∀ b0 b1 b2 b3 b4 b5 b6 b7 : Bool,
      (BitVec.ofNat 8 ((if b0 then 0 else 2 ^ 7) + ((if b1 then 0 else 2 ^ 6) + ((if b2 then 0 else 2 ^ 5) +
        ((if b3 then 0 else 2 ^ 4) + ((if b4 then 0 else 2 ^ 3) + ((if b5 then 0 else 2 ^ 2) +
        ((if b6 then 0 else 2 ^ 1) + ((if b7 then 0 else 2 ^ 0) + 0))))))))).toNat =
      (if b0 then 0 else 128) + (if b1 then 0 else 64) + (if b2 then 0 else 32) + (if b3 then 0 else 16) +
        (if b4 then 0 else 8) + (if b5 then 0 else 4) + (if b6 then 0 else 2) + (if b7 then 0 else 1) := by
    decide
  have bits : ∀ b0 b1 b2 b3 b4 b5 b6 b7 : Bool, ∀ j : Fin 8,
      Nat.testBit ((if b0 then 0 else 128) + (if b1 then 0 else 64) + (if b2 then 0 else 32) + (if b3 then 0 else 16) +
        (if b4 then 0 else 8) + (if b5 then 0 else 4) + (if b6 then 0 else 2) + (if b7 then 0 else 1)) (7 - j.val) =
      !([b0, b1, b2, b3, b4, b5, b6, b7].getD j.val false) := by
    decide
  unfold monoByte
  simp only [List.map_cons, List.map_nil, List.sum_cons, List.sum_nil]
  rw [BitVec.getLsbD, key, bits _ _ _ _ _ _ _ _ ⟨j, hj⟩]
  interval_cases j <;> rfl

/-- Two bytes with the same eight bits are the same. -/
theorem byte_ext {a b : Byte} (h : ∀ j < 8, a.getLsbD (7 - j) = b.getLsbD (7 - j)) : a = b := by
  apply BitVec.eq_of_getLsbD_eq
  intro i hi
  have := h (7 - i) (by omega)
  rwa [show 7 - (7 - i) = i by omega] at this

/-- The length of a packed image (R192, R193). -/
@[simp] theorem packMono_length (w h : Nat) (black : Nat → Nat → Bool) : (packMono w h black).bytes.length = w * h / 8 := by
  simp [packMono]

/-- The bits of a packed image, pixel by pixel (R62, R192). -/
theorem imageBit_packMono {w h : Nat} (black : Nat → Nat → Bool) (hw : w % 8 = 0) {i : Nat} (hi : i < w * h) :
    imageBit (packMono w h black).bytes i = !black (i / w) (i % w) := by
  have h8 : (w * h) % 8 = 0 := by rw [Nat.mul_mod, hw]; simp
  have hlt : i / 8 < w * h / 8 := by omega
  unfold imageBit packMono
  rw [List.getD_eq_getElem _ _ (by simpa using hlt)]
  simp only [List.getElem_map, List.getElem_range]
  rw [monoByte_getLsbD w black (i / 8) (i % 8) (Nat.mod_lt _ (by omega)), Nat.div_add_mod]

/-- An image is known by its bits. -/
theorem bytes_ext {a b : List Byte} {n : Nat} (ha : a.length = n) (hb : b.length = n)
    (h : ∀ i < 8 * n, imageBit a i = imageBit b i) : a = b := by
  apply List.ext_getElem (by rw [ha, hb])
  intro k h1 h2
  apply byte_ext
  intro j hj
  have := h (8 * k + j) (by omega)
  unfold imageBit at this
  rw [show (8 * k + j) / 8 = k by omega, show (8 * k + j) % 8 = j by omega, List.getD_eq_getElem _ _ h1,
    List.getD_eq_getElem _ _ h2] at this
  exact this

/-! ## Serialised pixels -/

@[simp] theorem be16_length (p : U16) : (be16 p).length = 2 := rfl

/-- The two bytes of a pixel (R61). -/
theorem hiByte_toNat (p : U16) : (hiByte p).toNat = p.toNat / 256 := by
  have := p.isLt
  simp only [hiByte, BitVec.extractLsb'_toNat, Nat.shiftRight_eq_div_pow]
  omega

theorem loByte_toNat (p : U16) : (loByte p).toNat = p.toNat % 256 := by
  simp [loByte, BitVec.extractLsb'_toNat]

@[simp] theorem rgbBytes_length (cs : List U16) : (rgbBytes cs).length = 2 * cs.length := by
  induction cs with
  | nil => rfl
  | cons c r ih =>
    simp only [rgbBytes, List.flatMap_cons, List.length_append, be16_length, List.length_cons] at ih ⊢
    omega

/-- Pixel `k` is bytes `2k` and `2k + 1` (R96, R196). -/
theorem rgbBytes_getD : ∀ (cs : List U16) (k : Nat), k < cs.length →
    (rgbBytes cs).getD (2 * k) 0 = hiByte (cs.getD k 0) ∧ (rgbBytes cs).getD (2 * k + 1) 0 = loByte (cs.getD k 0)
  | c :: r, 0, _ => ⟨rfl, rfl⟩
  | c :: r, k + 1, h => by
    have := rgbBytes_getD r k (by simpa using h)
    simpa [rgbBytes, be16, Nat.mul_add] using this

/-! ## Chunks and pieces -/

@[simp] theorem chunk_length (n : Nat) (p : U16) : (chunk n p).length = 2 * n := by
  induction n with
  | zero => rfl
  | succ n ih => simp only [chunk, List.replicate_succ, List.flatten_cons, List.length_append, be16_length] at ih ⊢; omega

theorem chunk_add (a b : Nat) (p : U16) : chunk (a + b) p = chunk a p ++ chunk b p := by
  simp [chunk, ← List.replicate_append_replicate]

theorem chunk_take {k n : Nat} (p : U16) (h : k ≤ n) : (chunk n p).take (2 * k) = chunk k p := by
  obtain ⟨m, rfl⟩ : ∃ m, n = k + m := ⟨n - k, by omega⟩
  rw [chunk_add, List.take_append_of_le_length (by simp)]
  simp

theorem flatten_replicate_chunk (k c : Nat) (p : U16) : (List.replicate k (chunk c p)).flatten = chunk (k * c) p := by
  induction k with
  | zero => simp [chunk]
  | succ k ih => rw [List.replicate_succ, List.flatten_cons, ih, Nat.succ_mul, Nat.add_comm, chunk_add]

/-- The chunks of a fill together are the colour `count` times (R203, R204). -/
theorem fillChunks_flatten {c : Nat} (p : U16) (count : Nat) (hc : 1 ≤ c) :
    (fillChunks c p count).flatten = chunk count p := by
  have hlt := Nat.mod_lt count (show 0 < c by omega)
  have hdm := Nat.div_add_mod count c
  unfold fillChunks
  rw [List.flatten_append, flatten_replicate_chunk]
  by_cases h : count % c > 0
  · rw [if_pos h, chunk_take p (by omega), List.flatten_singleton, ← chunk_add, Nat.mul_comm, hdm]
  · rw [if_neg h]
    have h0 : count % c = 0 := by omega
    rw [h0, Nat.add_zero, Nat.mul_comm] at hdm
    simp [hdm]

/-- Every chunk holds whole pixels, at least one and at most `c` (R204, R68). -/
theorem fillChunks_mem {c : Nat} {p : U16} {count : Nat} (hc : 1 ≤ c) {ch : List Byte} (h : ch ∈ fillChunks c p count) :
    ∃ k, 1 ≤ k ∧ k ≤ c ∧ ch = chunk k p := by
  have hlt := Nat.mod_lt count (show 0 < c by omega)
  unfold fillChunks at h
  rcases List.mem_append.mp h with h | h
  · exact ⟨c, hc, Nat.le_refl c, List.eq_of_mem_replicate h⟩
  · split at h
    · simp only [List.mem_singleton] at h
      exact ⟨count % c, by omega, by omega, by rw [h, chunk_take p (by omega)]⟩
    · simp at h

theorem splitFuel_spec {m : Nat} (hm : 2 ≤ m) (he : m % 2 = 0) : ∀ (fuel : Nat) (bs : List Byte), bs.length ≤ fuel →
    (splitFuel m fuel bs).flatten = bs ∧ ∀ p ∈ splitFuel m fuel bs, p.length ≤ m ∧ (bs.length % 2 = 0 → p.length % 2 = 0)
  | 0, bs, h => by
    have : bs = [] := List.eq_nil_of_length_eq_zero (by omega)
    subst this
    simp [splitFuel]
  | fuel + 1, bs, h => by
    unfold splitFuel
    split
    · rename_i hle
      simp [hle]
    · rename_i hle
      obtain ⟨h1, h2⟩ := splitFuel_spec hm he fuel (bs.drop m) (by simp; omega)
      refine ⟨by simp [h1], ?_⟩
      intro p hp
      rcases List.mem_cons.mp hp with rfl | hp
      · simp only [List.length_take]; omega
      · obtain ⟨h3, h4⟩ := h2 p hp
        refine ⟨h3, fun hb => h4 ?_⟩
        simp only [List.length_drop]
        omega

/-- The pieces of a split together are the bytes, none longer than the limit and, of an even number of bytes, all of even
length (R237, R68). -/
theorem splitPieces_spec {limit : Option Nat} (hl : ∀ m, limit = some m → 2 ≤ m ∧ m % 2 = 0) (bs : List Byte) :
    (splitPieces limit bs).flatten = bs ∧ (∀ m, limit = some m → ∀ p ∈ splitPieces limit bs, p.length ≤ m) ∧
      (bs.length % 2 = 0 → ∀ p ∈ splitPieces limit bs, p.length % 2 = 0) := by
  cases limit with
  | none => simp [splitPieces]
  | some m =>
    obtain ⟨h1, h2⟩ := hl m rfl
    obtain ⟨h3, h4⟩ := splitFuel_spec h1 h2 bs.length bs (Nat.le_refl _)
    refine ⟨h3, ?_, fun hb p hp => (h4 p hp).2 hb⟩
    rintro _ ⟨⟩ p hp
    exact (h4 p hp).1

end Sys2Proof.Machine
end

