-- ==== Sys2Proof/Laws/Composite.lean ====
section
/-! SUPPORT. The composite operations that run to their end: SESSION_OPEN, REFRESH, the streams, SLEEP, each with the state it
leaves (spec/44_sequencer.md R231 to R240); and what a stream that succeeded appended, whatever was drawn. -/

namespace Sys2Proof.Machine

open Sys2Proof

/-! ## SESSION_OPEN (R232) -/

/-- The lines a session asks for, as the session's terms say them. -/
theorem sessionSpecs_eq (c : Cfg) :
    sessionSpecs c = (sessionRoles c).map fun r => ⟨r, cfgOffset c r, fixedDirection r, sessionInit c r⟩ := by
  unfold sessionSpecs sessionRoles
  cases hb : c.busyPresent <;> cases hc : c.csPresent <;>
    simp [rolePresent, hb, hc, cfgOffset, fixedDirection, sessionInit]

theorem sessionRoles_nodup (c : Cfg) : (sessionRoles c).Pairwise (· ≠ ·) := by
  unfold sessionRoles
  exact List.Pairwise.filter _ (by decide)

theorem mem_sessionRoles {c : Cfg} {r : Role} : r ∈ sessionRoles c ↔ rolePresent c r = true := by
  unfold sessionRoles
  cases r <;> simp

theorem sessionSpecs_events (c : Cfg) :
    (sessionSpecs c).map acquireEvent = (sessionRoles c).map fun r =>
      .acquire r (cfgOffset c r) (fixedDirection r)
        (if fixedDirection r = .output then some (sessionInit c r) else none) := by
  rw [sessionSpecs_eq, List.map_map]; rfl

/-- The acquisition of a session's lines with every draw favourable. -/
theorem sessionAcquire_ok {s : State} {chips owned : List Bool}
    (hn : ∀ r ∈ sessionRoles s.cfg, (s.line r).acquired = false)
    (hp : (sessionRoles s.cfg).Pairwise (fun a b => cfgOffset s.cfg a ≠ cfgOffset s.cfg b))
    (hc : s.env.chipOpens = true :: chips)
    (ho : s.env.offsetOwned = List.replicate (sessionRoles s.cfg).length false ++ owned) :
    lineAcquire s.cfg.gpioChip (sessionSpecs s.cfg) s = .ok () { s with
      lines := grantedLines s.cfg (sessionSpecs s.cfg) s.lines
      env := { s.env with
        chipOpens := chips
        offsetOwned := owned
        drawn := s.env.drawn + 1 + (sessionSpecs s.cfg).length }
      trace := s.trace ++ (sessionSpecs s.cfg).map acquireEvent } := by
  apply lineAcquire_ok
  · rw [sessionSpecs_eq, List.pairwise_map]
    exact ((sessionRoles_nodup s.cfg).and hp).imp fun h => h
  · rw [sessionSpecs_eq]
    intro sp hsp
    obtain ⟨r, hr, rfl⟩ := List.mem_map.mp hsp
    exact ⟨rfl, mem_sessionRoles.mp hr, hn r hr⟩
  · exact hc
  · rw [sessionSpecs_eq, List.length_map]; exact ho

/-- A line the session was granted. -/
theorem sessionLines_get (c : Cfg) (l : Lines) {r : Role} (hr : r ∈ sessionRoles c) :
    (grantedLines c (sessionSpecs c) l).get r =
      ⟨true, cfgOffset c r, fixedDirection r, activeLevel c r, sessionInit c r⟩ := by
  exact grantedLines_get c (sp := ⟨r, cfgOffset c r, fixedDirection r, sessionInit c r⟩) (sessionSpecs c) l
    (by rw [sessionSpecs_eq, List.pairwise_map]; exact sessionRoles_nodup c)
    (by rw [sessionSpecs_eq]; exact List.mem_map.mpr ⟨r, hr, rfl⟩)

/-- A line the session did not ask for. -/
theorem sessionLines_get_ne (c : Cfg) (l : Lines) {r : Role} (hr : r ∉ sessionRoles c) :
    (grantedLines c (sessionSpecs c) l).get r = l.get r := by
  apply grantedLines_get_ne
  rw [sessionSpecs_eq]
  rintro sp hsp rfl
  obtain ⟨r, hr', rfl⟩ := List.mem_map.mp hsp
  exact hr hr'

/-- The lines after SESSION_OPEN (R304). -/
def openedLines (c : Cfg) (l : Lines) : Lines :=
  let m := grantedLines c (sessionSpecs c) l
  m.set .rst { m.rst with level := (c.resetSequence.map ResetStep.level).getLastD m.rst.level }

/-- SESSION_OPEN with every draw favourable (R232). -/
theorem sessionOpen_ok {s : State} {chips owned ds as : List Bool}
    (hn : ∀ r ∈ sessionRoles s.cfg, (s.line r).acquired = false)
    (hp : (sessionRoles s.cfg).Pairwise (fun a b => cfgOffset s.cfg a ≠ cfgOffset s.cfg b))
    (ht : s.transport.isOpen = false) (hm : s.cfg.spiMode ≤ 3) (hb : s.cfg.spiBitsPerWord = 8)
    (hz : 1 ≤ s.cfg.spiClockHz) (hc : s.env.chipOpens = true :: chips)
    (ho : s.env.offsetOwned = List.replicate (sessionRoles s.cfg).length false ++ owned)
    (hd : s.env.deviceOpens = true :: ds) (ha : s.env.deviceAccepts = true :: as) :
    ∃ u : State, sessionOpen s = .ok () u ∧ u.env.writes = s.env.writes ∧ u.env.busy = s.env.busy ∧ u = { s with
      phase := .reset
      lines := openedLines s.cfg s.lines
      transport := ⟨true, s.cfg.spiPath, s.cfg.spiClockHz, s.cfg.spiMode, s.cfg.spiBitsPerWord, s.cfg.spiBitOrder⟩
      env := u.env
      trace := s.trace ++ sessionEvents s.cfg } := by
  unfold sessionOpen
  simp only
  rw [sessionAcquire_ok hn hp hc ho, Res.bind_ok, spiOpen_ok _ ?h1 hm hb hz ?h2 ?h3, Res.bind_ok]
  case h1 => exact ht
  case h2 => exact hd
  case h3 => exact ha
  unfold resetPulse
  have hrst := sessionLines_get s.cfg s.lines (mem_sessionRoles (r := .rst).mpr rfl)
  rw [resetSteps_ok _ _ ?h1, Res.bind_ok]
  case h1 =>
    exact ⟨by show ((grantedLines _ _ _).get .rst).acquired = true; rw [hrst],
      by show ((grantedLines _ _ _).get .rst).direction = _; rw [hrst]⟩
  refine ⟨_, rfl, rfl, rfl, ?_⟩
  simp only [State.setPhase, sessionEvents, resetEvents, sessionSpecs_events, List.append_assoc]
  rfl

/-- A line of the session after SESSION_OPEN. -/
theorem openedLines_get (c : Cfg) (l : Lines) {r : Role} (hr : r ∈ sessionRoles c) :
    (openedLines c l).get r = ⟨true, cfgOffset c r, fixedDirection r, activeLevel c r,
      if r = .rst then (c.resetSequence.map ResetStep.level).getLastD c.rstInitLevel else sessionInit c r⟩ := by
  have hl := sessionLines_get c l hr
  have hrst : (grantedLines c (sessionSpecs c) l).rst = _ :=
    sessionLines_get c l (mem_sessionRoles (r := .rst).mpr rfl)
  unfold openedLines
  simp only
  rw [Lines.get_set]
  by_cases h : r = .rst
  · subst h; simp only [if_true]; rw [hrst]; rfl
  · simp only [h, if_false]; exact hl

/-- A line the session has not after SESSION_OPEN. -/
theorem openedLines_get_ne (c : Cfg) (l : Lines) {r : Role} (hr : r ∉ sessionRoles c) :
    (openedLines c l).get r = l.get r := by
  unfold openedLines
  simp only
  rw [Lines.get_set_ne _ _ (by rintro rfl; exact hr (mem_sessionRoles.mpr rfl))]
  exact sessionLines_get_ne c l hr

/-! ## REFRESH (R234) -/

/-- A command and data that is not empty, and what follows. -/
theorem cmd_bind {α : Type} {s : State} (op : Byte) {params : List Byte} (hr : framerReady s) (hne : params ≠ [])
    (hw : writesOk s (cmdWrites s.cfg params)) (f : Unit → State → Res α) :
    ((sendCommand op s).bind fun _ s => (sendData params s).bind f) = f () (afterCmd s op params) := by
  have h := cmd_ok op params hr hw
  have hl : params.length > 0 := List.length_pos_of_ne_nil hne
  simp only [hl, if_true] at h
  rw [sendCommand_ok op hr (writesOk_le hw (by simp [cmdWrites])), Res.bind_ok] at h ⊢
  rw [h, Res.bind_ok]

theorem frameFits_nonempty {c : Cfg} {f : Framebuffer} (h : frameFits c f) : f.bytes ≠ [] := by
  obtain ⟨_, _, _, h1, _, h2, _, h3⟩ := h
  have hp : 0 < f.width * f.height := Nat.mul_pos h1 h2
  intro he
  rw [he] at h3
  cases hen : f.encoding <;> simp only [hen, List.length_nil] at h3
  · obtain ⟨k, hk⟩ : ∃ k, f.width = 8 * k := ⟨f.width / 8, by omega⟩
    rw [hk, Nat.mul_assoc] at h3 hp
    omega
  · omega

/-- The checks of a frame accept exactly the frames that fit (R190, R234). -/
theorem frameCheck_iff {c : Cfg} {f : Framebuffer} : frameCheck c f = .ok () ↔ frameFits c f := by
  unfold frameCheck frameFits
  cases hf : fbCheck f with
  | error e =>
    simp only [reduceCtorEq, false_iff]
    rintro ⟨h1, h2, h3, h4, h5, h6, h7, h8⟩
    have : fbCheck f = .ok () := by
      rw [fbCheck_ok_iff]
      cases hen : f.encoding <;> simp only [hen] at h8
      · exact ⟨h4, h5, h6, h7, fun _ => h8.1, by rw [requiredLength_mono h8.1]; exact h8.2⟩
      · exact ⟨h4, h5, h6, h7, by simp, by rw [requiredLength_rgb]; exact h8⟩
    rw [hf] at this; cases this
  | ok _ =>
    obtain ⟨h1, h2, h3, h4, h5, h6⟩ := fbCheck_ok_iff.mp hf
    by_cases hc : f.encoding ≠ c.pixelEncoding ∨ f.width ≠ c.panelWidth ∨ f.height ≠ c.panelHeight
    · simp only [hc, if_true, reduceCtorEq, false_iff]
      rintro ⟨a, b, d, _⟩
      rcases hc with hc | hc | hc
      · exact hc d
      · exact hc a
      · exact hc b
    · simp only [hc, if_false, true_iff]
      simp only [not_or, not_not] at hc
      refine ⟨hc.2.1, hc.2.2, hc.1, h1, h2, h3, h4, ?_⟩
      cases hen : f.encoding <;> simp only [hen] at h5 h6 ⊢
      · exact ⟨h5 trivial, by rw [h6, requiredLength_mono (h5 trivial)]⟩
      · rw [h6, requiredLength_rgb]

/-- A frame that does not fit raises the ConfigError of its first failing check (R190, R234, R280). -/
theorem frameCheck_error {c : Cfg} {f : Framebuffer} (h : ¬ frameFits c f) :
    frameCheck c f = .error ⟨.configError, 4, { reason := frameReason f }⟩ := by
  have hno : frameCheck c f ≠ .ok () := fun hf => h (frameCheck_iff.mp hf)
  unfold frameReason
  by_cases hd : 1 ≤ f.width ∧ f.width ≤ 65535 ∧ 1 ≤ f.height ∧ f.height ≤ 65535
  · have hb : dimsOutside f.width f.height = false := by
      unfold dimsOutside maxDim
      simp only [Bool.or_eq_false_iff, decide_eq_false_iff_not]
      omega
    by_cases hm : f.encoding = .mono1bpp ∧ f.width % 8 ≠ 0
    · rw [if_pos ⟨hd.1, hd.2.1, hd.2.2.1, hd.2.2.2, hm.1, hm.2⟩]
      simp [frameCheck, fbCheck, hb, hm, errUnsupportedWidth, errOf, kindCode]
    · rw [if_neg fun h => hm ⟨h.2.2.2.2.1, h.2.2.2.2.2⟩]
      unfold frameCheck fbCheck at hno ⊢
      rw [hb, if_neg (by simp), if_neg hm] at hno ⊢
      split at hno <;> rename_i hl <;> split at hl
      all_goals simp_all [errSizeMismatch, errOf, kindCode]
  · have hb : dimsOutside f.width f.height = true := by
      unfold dimsOutside maxDim
      simp only [Bool.or_eq_true, decide_eq_true_eq]
      omega
    rw [if_neg fun h => hd ⟨h.1, h.2.1, h.2.2.1, h.2.2.2.1⟩]
    simp [frameCheck, fbCheck, hb, errSizeMismatch, errOf, kindCode]

/-- REFRESH of frames that fit, up to its busy-wait (R234). -/
theorem refresh_to_wait {s : State} {old new : Framebuffer} (hk : s.cfg.panelKind = .ePaper)
    (ho : frameFits s.cfg old) (hn : frameFits s.cfg new) (hr : framerReady s)
    (hw : writesOk s (cmdWrites s.cfg old.bytes + cmdWrites s.cfg new.bytes + 1)) :
    ∃ u, refresh old new s =
        ((waitConfigured stageRefresh u).bind fun _ s => .ok () (s.setPhase .initialized)) ∧
      u = { s with
        phase := .refreshing
        lines := framedLines s.cfg s.cfg.dcCmdLevel s.lines
        env := u.env
        trace := s.trace ++ cmdEvents s.cfg s.cfg.oldDataCmd old.bytes ++
          cmdEvents s.cfg s.cfg.newDataCmd new.bytes ++ commandEvents s.cfg s.cfg.refreshCmd } ∧
      u.env.busy = s.env.busy ∧ u.env.clock = s.env.clock ∧
      u.env.writes = s.env.writes.drop (cmdWrites s.cfg old.bytes + cmdWrites s.cfg new.bytes + 1) := by
  refine ⟨afterCmd (afterCmd (afterCmd (s.setPhase .refreshing) s.cfg.oldDataCmd old.bytes) s.cfg.newDataCmd new.bytes)
    s.cfg.refreshCmd [], ?_, ?_, ?_, ?_, ?_⟩
  · unfold refresh
    simp only [hk, ne_eq, not_true_eq_false, if_false]
    rw [frameCheck_iff.mpr ho, frameCheck_iff.mpr hn]
    simp only [Res.ofExcept_ok, Res.bind_ok]
    have hr1 : framerReady (s.setPhase .refreshing) := hr
    have hw1 : writesOk (s.setPhase .refreshing) (cmdWrites s.cfg old.bytes + (cmdWrites s.cfg new.bytes + 1)) := by
      rw [← Nat.add_assoc]; exact hw
    have hw2 := writesOk_afterCmd (s := s.setPhase .refreshing) (op := s.cfg.oldDataCmd) (p := old.bytes) hw1
    have hr2 := framerReady_afterCmd (op := s.cfg.oldDataCmd) (p := old.bytes) hr1
    have hw3 := writesOk_afterCmd (op := s.cfg.newDataCmd) (p := new.bytes) hw2
    have hr3 := framerReady_afterCmd (op := s.cfg.newDataCmd) (p := new.bytes) hr2
    rw [cmd_bind _ hr1 (frameFits_nonempty ho) (writesOk_le hw1 (Nat.le_add_right _ _)),
      cmd_bind _ hr2 (frameFits_nonempty hn) (writesOk_le hw2 (Nat.le_add_right _ _)),
      sendCommand_ok _ hr3 hw3, Res.bind_ok]
    have := afterFrame_eq_afterCmd
      (afterCmd (afterCmd (s.setPhase .refreshing) s.cfg.oldDataCmd old.bytes) s.cfg.newDataCmd new.bytes) s.cfg.refreshCmd
    rw [this]
  · simp [afterCmd, framedLines_framedLines, cmdLevel, State.setPhase, cmdEvents, dataEvents]
  · simp [afterCmd]
  · simp [afterCmd]
  · have : cmdWrites s.cfg [] = 1 := by simp [cmdWrites]
    simp [afterCmd, this, Nat.add_assoc]

/-- REFRESH of frames that fit, ready in time (R234). -/
theorem refresh_ok {s : State} {old new : Framebuffer} {k : Nat} (hk : s.cfg.panelKind = .ePaper)
    (ho : frameFits s.cfg old) (hn : frameFits s.cfg new) (hr : framerReady s) (hh : held s .busy)
    (hi : 1 ≤ s.cfg.pollInterval)
    (hw : writesOk s (cmdWrites s.cfg old.bytes + cmdWrites s.cfg new.bytes + 1))
    (hb : busyAnswers (busyLevel s.cfg.busyPolarity) k <+: s.env.busy)
    (ht : waitInTime s.build s.cfg.pollInterval s.cfg.opTimeout k) :
    ∃ e : Env, e.writes = s.env.writes.drop (cmdWrites s.cfg old.bytes + cmdWrites s.cfg new.bytes + 1) ∧
      e.busy = s.env.busy.drop (k + 1) ∧ refresh old new s = .ok () { s with
        phase := .initialized
        pollCount := k + 1
        lines := framedLines s.cfg s.cfg.dcCmdLevel s.lines
        env := e
        trace := s.trace ++ cmdEvents s.cfg s.cfg.oldDataCmd old.bytes ++
          cmdEvents s.cfg s.cfg.newDataCmd new.bytes ++ commandEvents s.cfg s.cfg.refreshCmd ++
          waitEvents s.build (busyLevel s.cfg.busyPolarity) s.cfg.pollInterval k } := by
  obtain ⟨u, h1, h2, h3, _, h4⟩ := refresh_to_wait hk ho hn hr hw
  have hc : u.cfg = s.cfg := by rw [h2]
  have hbd : u.build = s.build := by rw [h2]
  have hhu : held u .busy := by
    rw [h2]; exact held_busy_afterFrame (s := s) (dcl := s.cfg.dcCmdLevel) (data := []) |>.mpr hh
  obtain ⟨e, h5, h6, h⟩ := waitReady_ok (s := u) (p := s.cfg.busyPolarity) (interval := s.cfg.pollInterval)
    (timeout := s.cfg.opTimeout) (k := k) stageRefresh hhu hi (by rw [h3]; exact hb) (by rw [hbd]; exact ht)
  refine ⟨e, by rw [h5, h4], by rw [h6, h3], ?_⟩
  rw [h1, waitConfigured, hc, h, Res.bind_ok, hbd]
  conv_lhs => rw [h2]
  rfl

/-! ## Streams (R235, R237 to R239) -/

/-- The window commands and the pixels of a stream, every write answered Ok. -/
theorem stream_ok {s : State} (win : Window) (chunks : Build → List (List Byte)) (pieces : List (List Byte)) (n : Nat)
    (hr : framerReady s) (hp : pieces = (chunks s.build).flatMap (splitPieces s.build.maxWriteBytes))
    (hw : writesOk s (windowWrites s.cfg + pieces.length)) :
    ∃ u : State, ((windowSet win (s.setPhase .streaming)).bind fun _ s =>
        (streamBody (chunks s.build) n s).bind fun _ s => .ok () (s.setPhase .initialized)) = .ok () u ∧
      u = { s with
        phase := .initialized
        streamRemaining := pieces.foldl (fun n p => n - p.length / 2) n
        lines := framedLines s.cfg (!s.cfg.dcCmdLevel) s.lines
        env := u.env
        trace := s.trace ++ windowEvents s.cfg win ++ streamEvents s.cfg pieces } := by
  have hw0 : writesOk (s.setPhase .streaming) (windowWrites s.cfg) := writesOk_le (s := s) hw (Nat.le_add_right _ _)
  rw [windowSet_ok win (s := s.setPhase .streaming) hr hw0, Res.bind_ok]
  show ∃ u : State, ((streamBody (chunks s.build) n _).bind _) = _ ∧ _
  rw [streamBody_ok (chunks s.build) pieces n ?h1 ?h2 ?h3, Res.bind_ok]
  case h1 => exact framerReady_of_framerLines (s := s) hr (framerLines_framedLines _ _ _) rfl rfl
  case h2 => exact hp
  case h3 => exact writesOk_drop (s := s) hw rfl
  refine ⟨_, rfl, ?_⟩
  simp only [State.setPhase, framedLines_framedLines]

/-- The common end of the streams, the pixel write after the pieces `sent` failing after `k` bytes (R237). -/
theorem stream_fail {s : State} (win : Window) (chunks : Build → List (List Byte)) (sent rest : List (List Byte))
    (piece : List Byte) (n k : Nat) (ws : List WriteAnswer) (hr : framerReady s)
    (hp : (chunks s.build).flatMap (splitPieces s.build.maxWriteBytes) = sent ++ piece :: rest) (hk : k < piece.length)
    (hw : s.env.writes = List.replicate (windowWrites s.cfg + sent.length) .ok ++ .fail k :: ws) :
    ((windowSet win (s.setPhase .streaming)).bind fun _ s =>
        (streamBody (chunks s.build) n s).bind fun _ s => .ok () (s.setPhase .initialized)) = .err (errShortWrite k)
      { s with
        phase := .streaming
        streamRemaining := sent.foldl (fun n p => n - p.length / 2) n
        lines := failedFrameLines s.cfg (!s.cfg.dcCmdLevel) s.lines
        env := { s.env with writes := ws, drawn := s.env.drawn + (windowWrites s.cfg + sent.length + 1) }
        trace := s.trace ++ windowEvents s.cfg win ++ failedStreamEvents s.cfg sent (piece.take k) } := by
  have hw0 : writesOk (s.setPhase .streaming) (windowWrites s.cfg) :=
    writesOk_le (s := s) ⟨_, hw.symm⟩ (Nat.le_add_right _ _)
  rw [windowSet_ok win (s := s.setPhase .streaming) hr hw0, Res.bind_ok]
  show ((streamBody (chunks s.build) n _).bind _) = _
  rw [streamBody_fail (chunks s.build) sent rest piece n k ws ?hr ?hp hk ?hw, Res.bind_err]
  case hp => exact hp
  case hr => exact framerReady_of_framerLines (s := s) hr (framerLines_framedLines _ _ _) rfl rfl
  case hw =>
    show s.env.writes.drop (windowWrites s.cfg) = _
    rw [hw, List.replicate_add, List.append_assoc, List.drop_left' (by simp)]
  simp [State.setPhase, failedFrameLines_framedLines, Nat.add_assoc]

/-- The window commands that succeeded, whatever was drawn. -/
theorem windowSet_trace {win : Window} {s t : State} (h : windowSet win s = .ok () t) :
    t.trace = s.trace ++ windowEvents s.cfg win ∧ t.cfg = s.cfg ∧ t.build = s.build := by
  have hbd : t.build = s.build := by
    have := (kept_actions.windowSet win s).2.1
    rw [h] at this; exact this
  have hne : ∀ (f : WindowFormat) (a b : Nat), windowParams f a b = be16 (BitVec.ofNat 16 a) ++ be16 (BitVec.ofNat 16 b) := by
    intro f a b; cases f; rfl
  unfold windowSet at h
  simp only [Res.bind_eq_ok] at h
  obtain ⟨_, s1, h1, _, s2, h2, _, s3, h3, _, s4, h4, h5⟩ := h
  obtain ⟨t1, c1⟩ := framedWrite_trace h1
  obtain ⟨t2, c2⟩ := framedWrite_trace h2
  obtain ⟨t3, c3⟩ := framedWrite_trace h3
  obtain ⟨t4, c4⟩ := framedWrite_trace h4
  rw [c1] at c2 t2; rw [c2] at c3 t3; rw [c3] at c4 t4
  have hT : s4.trace = s.trace ++ (cmdEvents s.cfg s.cfg.winXCmd (be16 (BitVec.ofNat 16 win.x0) ++ be16 (BitVec.ofNat 16 win.x1)) ++
      cmdEvents s.cfg s.cfg.winYCmd (be16 (BitVec.ofNat 16 win.y0) ++ be16 (BitVec.ofNat 16 win.y1))) := by
    rw [t4, t3, t2, t1, hne, hne]
    simp [cmdEvents, commandEvents, dataEvents, be16]
  unfold windowEvents
  cases hw : s.cfg.ramWriteCmd with
  | none =>
    simp only [hw, Res.ok.injEq, true_and] at h5
    subst h5
    exact ⟨by simp [hT], c4, hbd⟩
  | some op =>
    simp only [hw] at h5
    obtain ⟨t5, c5⟩ := framedWrite_trace h5
    rw [c4] at c5 t5
    exact ⟨by rw [t5, hT]; simp [commandEvents], c5, hbd⟩

/-- The writes of a stream that succeeded. -/
theorem writePieces_trace : ∀ (pieces : List (List Byte)) (s t : State), writePieces pieces s = .ok () t →
    t.trace = s.trace ++ pieces.map (fun p => .spiWrite p true) ∧ t.cfg = s.cfg
  | [], s, t, h => by
    simp only [writePieces, Res.ok.injEq, true_and] at h
    subst h; simp
  | p :: rest, s, t, h => by
    simp only [writePieces, Res.bind_eq_ok] at h
    obtain ⟨_, s1, h1, h2⟩ := h
    obtain ⟨t1, c1⟩ := spiWrite_trace h1
    obtain ⟨t2, c2⟩ := writePieces_trace rest _ _ h2
    rw [State.setRemaining_trace, t1] at t2
    exact ⟨by rw [t2]; simp, c2.trans c1⟩

theorem streamCs_trace {v : Bit} {s t : State} (h : streamCs v s = .ok () t) :
    t.trace = s.trace ++ (if s.cfg.csMode = .none then [] else [.lineSet .cs v]) ∧ t.cfg = s.cfg := by
  unfold streamCs at h
  by_cases hm : s.cfg.csMode = .none
  · simp only [hm, ne_eq, not_true_eq_false, if_false, Res.ok.injEq, true_and] at h
    subst h; simp [hm]
  · simp only [hm, ne_eq, not_false_eq_true, if_true] at h
    simpa [hm] using lineSet_trace h

/-- The pixels of a stream that succeeded (R237). -/
theorem streamBody_trace {chunks : List (List Byte)} {n : Nat} {s t : State} (h : streamBody chunks n s = .ok () t) :
    t.trace = s.trace ++ streamEvents s.cfg (chunks.flatMap (splitPieces s.build.maxWriteBytes)) ∧ t.cfg = s.cfg := by
  unfold streamBody at h
  simp only [Res.bind_eq_ok] at h
  obtain ⟨_, s1, h1, _, s2, h2, _, s3, h3, h4⟩ := h
  obtain ⟨t1, c1⟩ := streamCs_trace h1
  obtain ⟨t2, c2⟩ := lineSet_trace h2
  obtain ⟨t3, c3⟩ := writePieces_trace _ _ _ h3
  obtain ⟨t4, c4⟩ := streamCs_trace h4
  have b2 : s2.build = s.build := by
    have x1 := (kept_actions.streamCs s.cfg.csActiveLevel (s.setRemaining n)).2.1
    rw [h1] at x1
    have x2 := (kept_actions.lineSet .dc (!s.cfg.dcCmdLevel) s1).2.1
    rw [h2] at x2
    exact x2.trans x1
  simp only [State.setRemaining_cfg, State.setRemaining_trace] at t1 c1
  rw [c1] at c2; rw [c2] at c3; rw [c3] at t4 c4
  refine ⟨?_, c4⟩
  rw [t4, t3, t2, t1, b2]
  simp [streamEvents]
  rfl

/-! ## What a stream raises once it has begun -/

/-- The window commands never raise a ConfigError (R235). -/
theorem windowSet_kind {win : Window} {s u : State} {e : ErrRec} (h : windowSet win s = .err e u) : e.kind ≠ .configError := by
  simp only [windowSet, Res.bind_eq_err] at h
  rcases h with h | ⟨_, _, _, h | ⟨_, _, _, h | ⟨_, _, _, h | ⟨_, _, _, h⟩⟩⟩⟩ <;> try exact framedWrite_kind h
  split at h
  · exact framedWrite_kind h
  · cases h

theorem writePieces_kind : ∀ (pieces : List (List Byte)) {s u : State} {e : ErrRec}, writePieces pieces s = .err e u →
    e.kind ≠ .configError
  | [], _, _, _, h => by cases h
  | p :: rest, s, u, e, h => by
    simp only [writePieces, Res.bind_eq_err] at h
    rcases h with h | ⟨_, _, _, h⟩
    · exact spiWrite_kind h
    · exact writePieces_kind rest h

theorem streamCs_kind {v : Bit} {s u : State} {e : ErrRec} (h : streamCs v s = .err e u) : e.kind ≠ .configError := by
  unfold streamCs at h
  split at h
  · exact lineSet_kind h
  · cases h

/-- The pixels of a stream never raise a ConfigError: its checks come before (R237). -/
theorem streamBody_kind {chunks : List (List Byte)} {n : Nat} {s u : State} {e : ErrRec}
    (h : streamBody chunks n s = .err e u) : e.kind ≠ .configError := by
  simp only [streamBody, Res.bind_eq_err] at h
  rcases h with h | ⟨_, _, _, h | ⟨_, _, _, h | ⟨_, _, _, h⟩⟩⟩
  · exact streamCs_kind h
  · exact lineSet_kind h
  · exact writePieces_kind _ h
  · exact streamCs_kind h

/-! ## SLEEP (R240) -/

/-- SLEEP, its busy-wait ready in time where the panel has a busy line (R240). -/
theorem sleep_ok {s : State} {k : Nat} (hr : framerReady s) (hw : writesOk s (1 + cmdWrites s.cfg s.cfg.deepSleepParams))
    (hb : s.cfg.busyPresent = true → held s .busy ∧ 1 ≤ s.cfg.pollInterval ∧
      busyAnswers (busyLevel s.cfg.busyPolarity) k <+: s.env.busy ∧
      waitInTime s.build s.cfg.pollInterval s.cfg.opTimeout k) :
    ∃ u : State, sleep s = .ok () u ∧ u = { s with
      phase := .sleeping
      pollCount := if s.cfg.busyPresent then k + 1 else s.pollCount
      lines := framedLines s.cfg (cmdLevel s.cfg s.cfg.deepSleepParams) s.lines
      env := u.env
      trace := s.trace ++ commandEvents s.cfg s.cfg.powerOffCmd ++
        (if s.cfg.busyPresent then waitEvents s.build (busyLevel s.cfg.busyPolarity) s.cfg.pollInterval k else []) ++
        cmdEvents s.cfg s.cfg.deepSleepCmd s.cfg.deepSleepParams } := by
  have hw1 : writesOk s 1 := writesOk_le hw (Nat.le_add_right _ _)
  have hcmd0 : cmdWrites s.cfg [] = 1 := by simp [cmdWrites]
  have hr1 := framerReady_afterCmd (op := s.cfg.powerOffCmd) (p := []) hr
  have hw2 : writesOk (afterCmd s s.cfg.powerOffCmd []) (cmdWrites s.cfg s.cfg.deepSleepParams) :=
    writesOk_afterCmd (by rw [hcmd0]; exact hw)
  have hassoc : ∀ {α β γ : Type} (r : Res α) (f : α → State → Res β) (g : β → State → Res γ),
      (r.bind fun a s => (f a s).bind g) = (r.bind f).bind g := by
    intro α β γ r f g; cases r <;> rfl
  have tail : ∀ u : State, u.cfg = s.cfg → framerReady u → writesOk u (cmdWrites s.cfg s.cfg.deepSleepParams) →
      ((sendCommand s.cfg.deepSleepCmd u).bind fun _ s_1 =>
        (if s.cfg.deepSleepParams.length > 0 then sendData s.cfg.deepSleepParams s_1 else .ok () s_1).bind
          fun _ s => .ok () (s.setPhase .sleeping)) =
      .ok () ((afterCmd u s.cfg.deepSleepCmd s.cfg.deepSleepParams).setPhase .sleeping) := by
    intro u hu hru hwu
    rw [hassoc, cmd_ok s.cfg.deepSleepCmd s.cfg.deepSleepParams hru (by rw [hu]; exact hwu), Res.bind_ok]
  have lines : ∀ u : State, u.lines = (afterCmd s s.cfg.powerOffCmd []).lines → u.cfg = s.cfg →
      (afterCmd u s.cfg.deepSleepCmd s.cfg.deepSleepParams).lines =
        framedLines s.cfg (cmdLevel s.cfg s.cfg.deepSleepParams) s.lines := by
    intro u h1 h2
    show framedLines u.cfg (cmdLevel u.cfg _) u.lines = _
    rw [h1, h2]
    exact framedLines_framedLines _ _ _ _
  unfold sleep
  simp only
  rw [sendCommand_ok _ hr hw1, Res.bind_ok, afterFrame_eq_afterCmd]
  cases hbp : s.cfg.busyPresent
  · simp only [Bool.false_eq_true, if_false, Res.bind_ok]
    rw [tail (afterCmd s s.cfg.powerOffCmd []) rfl hr1 hw2]
    have hl := lines (afterCmd s s.cfg.powerOffCmd []) rfl rfl
    refine ⟨_, rfl, ?_⟩
    rw [← hl]
    simp [afterCmd, State.setPhase, cmdEvents, dataEvents]
  · obtain ⟨hh, hi, hba, ht⟩ := hb hbp
    obtain ⟨e, hew, _, h⟩ := waitReady_ok (s := afterCmd s s.cfg.powerOffCmd []) (p := s.cfg.busyPolarity)
      (interval := s.cfg.pollInterval) (timeout := s.cfg.opTimeout) (k := k) stagePowerOff
      (held_busy_afterCmd.mpr hh) hi hba ht
    simp only [if_true, waitConfigured, afterCmd_cfg]
    rw [h, Res.map_ok, Res.bind_ok, tail _ ?h0 ?h1 ?h2]
    case h0 => rfl
    case h1 => exact framerReady_of_lines hr1 rfl rfl rfl
    case h2 => exact writesOk_drop (m := 0) (s := afterCmd s s.cfg.powerOffCmd []) (by rw [Nat.zero_add]; exact hw2) hew
    refine ⟨_, rfl, ?_⟩
    have hl := lines { afterCmd s s.cfg.powerOffCmd [] with env := e, pollCount := k + 1 } rfl rfl
    rw [← hl]
    simp [afterCmd, State.setPhase, cmdEvents, dataEvents]

end Sys2Proof.Machine
end

