-- ==== Sys2Proof/Laws/Form.lean ====
section
/-! SUPPORT. Every operation as one internal form between the gate and the delivery: what exec answers is the end of that
form, or the gate's error. A statement about every operation is proved once per form, through Laws/Actions.lean, and needs no
operation's definition (spec/00_scope.md R10, R11, spec/60_exceptions.md R276, R277). -/

namespace Sys2Proof.Machine

open Sys2Proof

/-- The internal form an operation runs once its gate is open, with its value as a result (R11). -/
def form : Instr → State → Res Result
  | .lineAcquire chip specs, s => (lineAcquire chip specs s).map fun _ => .ok
  | .lineSet r v, s => (lineSet r v s).map fun _ => .ok
  | .lineGet r, s => (lineGet r s).map .level
  | .lineRelease, s => .ok .ok (lineRelease s)
  | .spiOpen path clockHz mode bits, s => (spiOpen path clockHz mode bits s).map fun _ => .ok
  | .spiWrite data, s => (spiWrite data s).map fun _ => .ok
  | .spiClose, s => .ok .ok (spiClose s)
  | .delay d, s => .ok .ok (delay d s)
  | .sendCommand op, s => (sendCommand op s).map fun _ => .ok
  | .sendData data, s => (sendData data s).map fun _ => .ok
  | .waitReady p interval timeout stage, s => (waitReady p interval timeout stage s).map .ready
  | .fbCheck fb, s => (Res.ofExcept s (fbCheck fb)).map fun _ => .ok
  | .encodeMono w h m, s => (Res.ofExcept s (encodeMono w h m)).map .frame
  | .decodeMono fb, s => (Res.ofExcept s (decodeMono fb)).map .blackmap
  | .encodeRgb565 w h cs, s => (Res.ofExcept s (encodeRgb565 w h cs)).map .frame
  | .fillChunks color count, s => .ok (.chunks (fillChunks s.build.chunkPixels color count)) s
  | .windowCheck w h win, s => (Res.ofExcept s (windowCheck w h win)).map .count
  | .initApply table, s => (applyTable table s).map fun _ => .ok
  | .sessionOpen, s => (sessionOpen s).map fun _ => .ok
  | .initializePanel, s => (initializePanel s).map fun _ => .ok
  | .refresh old new, s => (refresh old new s).map fun _ => .ok
  | .streamPixels win pixels, s => (streamPixels win pixels s).map fun _ => .ok
  | .streamFill win color, s => (streamFill win color s).map fun _ => .ok
  | .sleep, s => (sleep s).map fun _ => .ok
  | .teardown, s => .ok .ok (teardown s)

/-- A gate that answers a next state gave its own error, or let the operation run (R277). -/
theorem admitted_next {adm : Phase → Bool} {i : Instr} {s t : State} {run : Out} (ha : ∀ p, admission i p = adm p)
    (hrun : ∀ u, run = .next u → u = conclude s (form i s)) (h : admitted adm s run = .next t) :
    t = rejected s errInvalidState ∨
      (s.poisoned = false ∧ admission i s.phase = true ∧ t = conclude s (form i s)) := by
  rcases admitted_spec adm s run with ⟨_, h1⟩ | ⟨_, _, h1⟩ | ⟨_, hp, had, h1⟩ <;> rw [h1] at h
  · cases h
  · injection h with h; exact .inl h.symm
  · exact .inr ⟨hp, by rw [ha]; exact had, hrun t h⟩

/-- What an operation that answers a next state did: raised the gate's error with no action, or, unpoisoned and admitted, ran
its internal form to its end (R276, R277). TEARDOWN always runs. -/
theorem exec_next {i : Instr} {s t : State} (h : exec i s = .next t) :
    (i ≠ .teardown ∧ t = rejected s errInvalidState) ∨
      ((i = .teardown ∨ s.poisoned = false) ∧ admission i s.phase = true ∧ t = conclude s (form i s)) := by
  have fin : ∀ {adm : Phase → Bool} {run : Out}, i ≠ .teardown → (∀ p, admission i p = adm p) →
      (∀ u, run = .next u → u = conclude s (form i s)) → admitted adm s run = .next t →
      (i ≠ .teardown ∧ t = rejected s errInvalidState) ∨
      ((i = .teardown ∨ s.poisoned = false) ∧ admission i s.phase = true ∧ t = conclude s (form i s)) := by
    intro adm run hi ha hrun hx
    rcases admitted_next ha hrun hx with h1 | ⟨h1, h2, h3⟩
    · exact .inl ⟨hi, h1⟩
    · exact .inr ⟨.inr h1, h2, h3⟩
  have out : ∀ (u : State) {r : State}, (Host.Outcome.next r : Out) = .next u → u = r := by
    intro u r hq; injection hq with hq; exact hq.symm
  cases i with
  | teardown => exact .inr ⟨.inl rfl, rfl, by injection h with h; exact h.symm⟩
  | spiWrite d =>
    refine fin (by simp) (fun p => by cases p <;> rfl) (fun u hu => ?_) h
    split at hu
    · cases hu
    · exact out u hu
  | sendData d =>
    refine fin (by simp) (fun p => by cases p <;> rfl) (fun u hu => ?_) h
    split at hu
    · cases hu
    · exact out u hu
  | _ => exact fin (by simp) (fun p => by cases p <;> rfl) (fun u hu => out u hu) h

/-- A relation that every action keeps, and the writes of ENTRY_INDEX, STREAM_REMAINING and `phase` too, every operation's form
keeps. -/
theorem Actions.form {R : State → State → Prop} (h : Actions R) (he : ∀ s n, R s (s.setEntryIndex n))
    (hr : ∀ s n, R s (s.setRemaining n)) (hp : ∀ s p, p ≠ .closed → R s (s.setPhase p))
    (ht : ∀ s, R s (teardown s)) (i : Instr) (s : State) : R s (form i s).state := by
  cases i with
  | lineAcquire chip specs => simpa [Machine.form] using h.lineAcquire chip specs s
  | lineSet r v => simpa [Machine.form] using h.lineSet r v s
  | lineGet r => simpa [Machine.form] using h.lineGet r s
  | lineRelease => exact h.lineRelease s
  | spiOpen path clockHz mode bits => simpa [Machine.form] using h.spiOpen path clockHz mode bits s
  | spiWrite data => simpa [Machine.form] using h.spiWrite data s
  | spiClose => exact h.spiClose s
  | delay d => exact h.delay s d
  | sendCommand op => simpa [Machine.form] using h.sendCommand op s
  | sendData data => simpa [Machine.form] using h.sendData data s
  | waitReady p interval timeout stage => simpa [Machine.form] using h.waitReady p interval timeout stage s
  | fbCheck _ | encodeMono _ _ _ | decodeMono _ | encodeRgb565 _ _ _ | windowCheck _ _ _ =>
    simpa [Machine.form] using h.refl s
  | fillChunks color count => exact h.refl s
  | initApply table => simpa [Machine.form] using h.applyTable he table s
  | sessionOpen =>
    suffices R s (sessionOpen s).state by simpa [Machine.form] using this
    exact h.bind (h.lineAcquire _ _ _) fun _ _ _ => h.bind (h.spiOpen _ _ _ _ _) fun _ _ _ =>
      h.bind (h.resetSteps _ _) fun _ _ _ => hp _ _ (by decide)
  | initializePanel =>
    suffices R s (initializePanel s).state by simpa [Machine.form] using this
    exact h.bind (h.applyTable he _ _) fun _ _ _ => hp _ _ (by decide)
  | refresh old new =>
    suffices R s (refresh old new s).state by simpa [Machine.form] using this
    unfold refresh
    simp only
    split
    · exact h.refl s
    · refine h.bind (by simpa using h.refl s) fun _ _ _ => h.bind (by simpa using h.refl _) fun _ u _ =>
        h.trans (hp u .refreshing (by decide)) ?_
      exact h.bind (h.sendCommand _ _) fun _ _ _ => h.bind (h.sendData _ _) fun _ _ _ =>
        h.bind (h.sendCommand _ _) fun _ _ _ => h.bind (h.sendData _ _) fun _ _ _ =>
        h.bind (h.sendCommand _ _) fun _ _ _ => h.bind (h.waitConfigured _ _) fun _ _ _ => hp _ _ (by decide)
  | streamPixels win pixels =>
    suffices R s (streamPixels win pixels s).state by simpa [Machine.form] using this
    unfold streamPixels
    simp only
    split
    · exact h.refl s
    · refine h.bind (by simpa using h.refl s) fun _ _ _ => ?_
      split
      · exact h.refl _
      · exact h.trans (hp _ .streaming (by decide)) (h.bind (h.windowSet _ _) fun _ _ _ =>
          h.bind (h.streamBody hr _ _ _) fun _ _ _ => hp _ _ (by decide))
  | streamFill win color =>
    suffices R s (streamFill win color s).state by simpa [Machine.form] using this
    unfold streamFill
    simp only
    split
    · exact h.refl s
    · exact h.bind (by simpa using h.refl s) fun _ _ _ => h.trans (hp _ .streaming (by decide))
        (h.bind (h.windowSet _ _) fun _ _ _ => h.bind (h.streamBody hr _ _ _) fun _ _ _ => hp _ _ (by decide))
  | sleep =>
    suffices R s (sleep s).state by simpa [Machine.form] using this
    refine h.bind (h.sendCommand _ _) fun _ _ _ => h.bind ?_ fun _ _ _ => h.bind (h.sendCommand _ _) fun _ _ _ =>
      h.bind ?_ fun _ _ _ => hp _ _ (by decide)
    · split
      · simpa using h.waitConfigured _ _
      · exact h.refl _
    · split
      · exact h.sendData _ _
      · exact h.refl _
  | teardown => exact ht s

/-- Every operation's form appends events and writes only what an operation that succeeds may write (R275, R35). -/
theorem kept_form (i : Instr) (s : State) : kept s (form i s).state := by
  refine kept_actions.form kept_setEntryIndex kept_setRemaining (fun s p _ => kept_setPhase s p) (fun s => ?_) i s
  unfold teardown
  split
  · exact kept_actions.refl s
  · exact kept_actions.trans (kept_actions.trans (kept_actions.lineRelease s) (kept_actions.spiClose _)) (kept_setPhase _ _)

/-- No operation's form has an error for its value. -/
theorem form_value {i : Instr} {s u : State} {v : Result} (h : form i s = .ok v u) : isErrorResult v = false := by
  have hm : ∀ {α : Type} {r : Res α} {f : α → Result}, r.map f = .ok v u → ∃ a, v = f a := by
    intro α r f hr
    cases r with
    | ok a s => rw [Res.map_ok] at hr; injection hr with h1 _; exact ⟨a, h1.symm⟩
    | err e s => rw [Res.map_err] at hr; cases hr
  cases i <;> first
    | (obtain ⟨a, rfl⟩ := hm h; rfl)
    | (simp only [form, Res.ok.injEq] at h; rw [← h.1]; rfl)

end Sys2Proof.Machine
end

