-- ==== Sys2Proof/Laws/PerInstr.lean ====
section
/-! SUPPORT. Statements about every operation as syntax, one lemma per constructor. -/

namespace Sys2Proof.Laws.OpselFirst

open Sys2Proof

/-- A descriptor starts with its operation's OPSEL, which the table of R100 lists, and the decoder's choice of operand form is
made by that byte alone (spec/30_encoding.md R100). -/
def Statement (i : Instr) : Prop :=
  encode i = BitVec.ofNat 8 i.opsel :: encodeOperands i ∧
    i.opsel ∈ [0x01, 0x02, 0x03, 0x04, 0x05, 0x06, 0x07, 0x08, 0x10, 0x11, 0x18, 0x20, 0x21, 0x22, 0x23, 0x24, 0x25, 0x30,
      0x31, 0x32, 0x33, 0x34, 0x35, 0x36, 0x37] ∧
    ∀ bs : List Byte, decode (BitVec.ofNat 8 i.opsel :: bs) = decodeOperands i.opsel bs

theorem lineAcquire (a : Text) (b : List LineSpec) : Statement (.lineAcquire a b) :=
  ⟨rfl, by simp [Instr.opsel], fun _ => rfl⟩
theorem lineSet (a : Role) (b : Bit) : Statement (.lineSet a b) :=
  ⟨rfl, by simp [Instr.opsel], fun _ => rfl⟩
theorem lineGet (a : Role) : Statement (.lineGet a) :=
  ⟨rfl, by simp [Instr.opsel], fun _ => rfl⟩
theorem lineRelease : Statement (.lineRelease) :=
  ⟨rfl, by simp [Instr.opsel], fun _ => rfl⟩
theorem spiOpen (a : Text) (b c d : Nat) : Statement (.spiOpen a b c d) :=
  ⟨rfl, by simp [Instr.opsel], fun _ => rfl⟩
theorem spiWrite (a : List Byte) : Statement (.spiWrite a) :=
  ⟨rfl, by simp [Instr.opsel], fun _ => rfl⟩
theorem spiClose : Statement (.spiClose) :=
  ⟨rfl, by simp [Instr.opsel], fun _ => rfl⟩
theorem delay (a : Nat) : Statement (.delay a) :=
  ⟨rfl, by simp [Instr.opsel], fun _ => rfl⟩
theorem sendCommand (a : Byte) : Statement (.sendCommand a) :=
  ⟨rfl, by simp [Instr.opsel], fun _ => rfl⟩
theorem sendData (a : List Byte) : Statement (.sendData a) :=
  ⟨rfl, by simp [Instr.opsel], fun _ => rfl⟩
theorem waitReady (a : Polarity) (b c : Nat) (d : Text) : Statement (.waitReady a b c d) :=
  ⟨rfl, by simp [Instr.opsel], fun _ => rfl⟩
theorem fbCheck (a : Framebuffer) : Statement (.fbCheck a) :=
  ⟨rfl, by simp [Instr.opsel], fun _ => rfl⟩
theorem encodeMono (a b : Nat) (c : List Byte) : Statement (.encodeMono a b c) :=
  ⟨rfl, by simp [Instr.opsel], fun _ => rfl⟩
theorem decodeMono (a : Framebuffer) : Statement (.decodeMono a) :=
  ⟨rfl, by simp [Instr.opsel], fun _ => rfl⟩
theorem encodeRgb565 (a b : Nat) (c : List U16) : Statement (.encodeRgb565 a b c) :=
  ⟨rfl, by simp [Instr.opsel], fun _ => rfl⟩
theorem fillChunks (a : U16) (b : Nat) : Statement (.fillChunks a b) :=
  ⟨rfl, by simp [Instr.opsel], fun _ => rfl⟩
theorem windowCheck (a b : Nat) (c : Window) : Statement (.windowCheck a b c) :=
  ⟨rfl, by simp [Instr.opsel], fun _ => rfl⟩
theorem initApply (a : List Entry) : Statement (.initApply a) :=
  ⟨rfl, by simp [Instr.opsel], fun _ => rfl⟩
theorem sessionOpen : Statement (.sessionOpen) :=
  ⟨rfl, by simp [Instr.opsel], fun _ => rfl⟩
theorem initializePanel : Statement (.initializePanel) :=
  ⟨rfl, by simp [Instr.opsel], fun _ => rfl⟩
theorem refresh (a b : Framebuffer) : Statement (.refresh a b) :=
  ⟨rfl, by simp [Instr.opsel], fun _ => rfl⟩
theorem streamPixels (a : Window) (b : List Byte) : Statement (.streamPixels a b) :=
  ⟨rfl, by simp [Instr.opsel], fun _ => rfl⟩
theorem streamFill (a : Window) (b : U16) : Statement (.streamFill a b) :=
  ⟨rfl, by simp [Instr.opsel], fun _ => rfl⟩
theorem sleep : Statement (.sleep) :=
  ⟨rfl, by simp [Instr.opsel], fun _ => rfl⟩
theorem teardown : Statement (.teardown) :=
  ⟨rfl, by simp [Instr.opsel], fun _ => rfl⟩

end Sys2Proof.Laws.OpselFirst
end

