-- ==== Sys2Proof/Laws/Wire.lean ====
section
/-! SUPPORT. How the reading of the wire composes: the loop of R157 and the condition of R309 over one trace after
another, and over the wire view alone. -/

namespace Sys2Proof.Machine

open Sys2Proof

/-- Bytes read one after the other. -/
theorem framesOfBytes_append (cl : Bit) (dc : Option Bit) (bs cs : List Byte) : ∀ out : List FrameItem,
    framesOfBytes cl dc out (bs ++ cs) = (framesOfBytes cl dc out bs).bind fun out => framesOfBytes cl dc out cs := by
  induction bs with
  | nil => intro out; simp [framesOfBytes]
  | cons b rest ih =>
    intro out
    cases dc with
    | none => simp [framesOfBytes]
    | some v => simp [framesOfBytes, ih]

/-- The level R157's loop reads at after events. -/
def dcAfter (dc : Option Bit) : List Event → Option Bit
  | [] => dc
  | .lineSet .dc v :: rest => dcAfter (some v) rest
  | _ :: rest => dcAfter dc rest

/-- The loop over one list of events after another (R157). -/
theorem framesOfEvents_append (cl : Bit) (a b : List Event) : ∀ (dc : Option Bit) (out : List FrameItem),
    framesOfEvents cl dc out (a ++ b) = (framesOfEvents cl dc out a).bind fun out => framesOfEvents cl (dcAfter dc a) out b := by
  induction a with
  | nil => intro dc out; simp [framesOfEvents, dcAfter]
  | cons e rest ih =>
    intro dc out
    rcases e with _ | _ | ⟨_ | _ | _ | _, _⟩ | _ | _ | _ | _ | _ | _ <;>
      simp only [List.cons_append, framesOfEvents, dcAfter, ih]
    rw [Option.bind_assoc]

/-- CS over one list of events after another (R309). -/
theorem csAsserted_append (al : Bit) (a b : List Event) : ∀ cs : Option Bit,
    csAsserted al cs (a ++ b) = (csAsserted al cs a && csAsserted al (a.foldl (levelAfter .cs) cs) b) := by
  induction a with
  | nil => intro cs; rfl
  | cons e rest ih =>
    intro cs
    cases e <;> simp only [List.cons_append, csAsserted, List.foldl_cons, ih, Bool.and_assoc]
    rfl

/-- Only the wire view is read (R157: "for e in the wire view of trace"). -/
theorem framesOfEvents_wireView (cl : Bit) (t : List Event) : ∀ (dc : Option Bit) (out : List FrameItem),
    framesOfEvents cl dc out (wireView t) = framesOfEvents cl dc out t := by
  induction t with
  | nil => intro dc out; rfl
  | cons e rest ih =>
    intro dc out
    unfold wireView at ih ⊢
    rcases e with _ | _ | ⟨_ | _ | _ | _, _⟩ | _ | _ | _ | _ | _ | _ <;>
      simp [List.filter_cons, onWire, framesOfEvents, ih]

end Sys2Proof.Machine
end

