-- ==== Sys2Proof/Machine/Assembler.lean ====
section
/-! DEFINITION. The text form of an operation (spec/30_encoding.md R104): a writer and a reader. The host's text is no
input of the block; the operation it names is (log 26). -/

namespace Sys2Proof.Machine

open Sys2Proof

/-! ## Writing -/

/-- Items between commas. -/
def joinChars : List (List Char) → List Char
  | [] => []
  | [a] => a
  | a :: rest => a ++ ',' :: ' ' :: joinChars rest

/-- A decimal integer; `fuel` bounds the digits, and the number itself is enough. -/
def decimalChars : Nat → Nat → List Char
  | 0, n => [Char.ofNat (48 + n % 10)]
  | fuel + 1, n => if n < 10 then [Char.ofNat (48 + n)] else decimalChars fuel (n / 10) ++ [Char.ofNat (48 + n % 10)]

/-- An integer operand. -/
def natChars (n : Nat) : List Char := decimalChars n n

/-- A list in brackets. -/
def listChars (items : List (List Char)) : List Char := '[' :: joinChars items ++ [']']

/-- A tuple in parentheses. -/
def tupleChars (items : List (List Char)) : List Char := '(' :: joinChars items ++ [')']

/-- A Command Entry in braces, as R230's example writes one. -/
def braceChars (items : List (List Char)) : List Char := Char.ofNat 123 :: joinChars items ++ [Char.ofNat 125]

/-- A byte sequence. -/
def bytesChars (bs : List Byte) : List Char := listChars (bs.map fun b => natChars b.toNat)

/-- A string in double quotes: each byte as the character of its number, a quote bare and with no escape (DESIGN CHOICE,
log 37). -/
def textChars (t : Text) : List Char := '"' :: t.map (fun b => Char.ofNat b.toNat) ++ ['"']

/-- A Bit. -/
def bitChars (b : Bit) : List Char := if b then ['1'] else ['0']

/-- A Bool, by name. -/
def boolChars (b : Bool) : List Char :=
  if b then ['t', 'r', 'u', 'e'] else ['f', 'a', 'l', 's', 'e']

/-- A role, by name. -/
def roleChars : Role → List Char
  | .dc => ['d', 'c']
  | .rst => ['r', 's', 't']
  | .busy => ['b', 'u', 's', 'y']
  | .cs => ['c', 's']

/-- A direction, by name. -/
def directionChars : Direction → List Char
  | .input => ['i', 'n']
  | .output => ['o', 'u', 't']

/-- A polarity, by name. -/
def polarityChars : Polarity → List Char
  | .activeHigh => ['a', 'c', 't', 'i', 'v', 'e', '_', 'h', 'i', 'g', 'h']
  | .activeLow => ['a', 'c', 't', 'i', 'v', 'e', '_', 'l', 'o', 'w']

/-- An encoding, by name. -/
def encodingChars : Encoding → List Char
  | .mono1bpp => ['m', 'o', 'n', 'o', '1', 'b', 'p', 'p']
  | .rgb565 => ['r', 'g', 'b', '5', '6', '5']

/-- A window, `(x0, y0, x1, y1)`. -/
def windowChars (w : Window) : List Char :=
  tupleChars [natChars w.x0, natChars w.y0, natChars w.x1, natChars w.y1]

/-- A framebuffer, `(width, height, encoding, bytes)`. -/
def frameChars (f : Framebuffer) : List Char :=
  tupleChars [natChars f.width, natChars f.height, encodingChars f.encoding, bytesChars f.bytes]

/-- A line spec, `(role, offset, direction, level)`. -/
def lineSpecChars (l : LineSpec) : List Char :=
  tupleChars [roleChars l.role, natChars l.offset, directionChars l.direction, bitChars l.init]

/-- A Command Entry, opcode, params, post-delay and busy-wait in braces. -/
def entryChars (e : Entry) : List Char :=
  braceChars [natChars e.opcode, listChars (e.params.map natChars), natChars e.postDelay, boolChars e.busyWait]

/-- The mnemonic of an operation, in lower case. -/
def mnemonicChars : Instr → List Char
  | .lineAcquire _ _ => ['l', 'i', 'n', 'e', '_', 'a', 'c', 'q', 'u', 'i', 'r', 'e']
  | .lineSet _ _ => ['l', 'i', 'n', 'e', '_', 's', 'e', 't']
  | .lineGet _ => ['l', 'i', 'n', 'e', '_', 'g', 'e', 't']
  | .lineRelease => ['l', 'i', 'n', 'e', '_', 'r', 'e', 'l', 'e', 'a', 's', 'e']
  | .spiOpen _ _ _ _ => ['s', 'p', 'i', '_', 'o', 'p', 'e', 'n']
  | .spiWrite _ => ['s', 'p', 'i', '_', 'w', 'r', 'i', 't', 'e']
  | .spiClose => ['s', 'p', 'i', '_', 'c', 'l', 'o', 's', 'e']
  | .delay _ => ['d', 'e', 'l', 'a', 'y']
  | .sendCommand _ => ['s', 'e', 'n', 'd', '_', 'c', 'o', 'm', 'm', 'a', 'n', 'd']
  | .sendData _ => ['s', 'e', 'n', 'd', '_', 'd', 'a', 't', 'a']
  | .waitReady _ _ _ _ => ['w', 'a', 'i', 't', '_', 'r', 'e', 'a', 'd', 'y']
  | .fbCheck _ => ['f', 'b', '_', 'c', 'h', 'e', 'c', 'k']
  | .encodeMono _ _ _ => ['e', 'n', 'c', 'o', 'd', 'e', '_', 'm', 'o', 'n', 'o']
  | .decodeMono _ => ['d', 'e', 'c', 'o', 'd', 'e', '_', 'm', 'o', 'n', 'o']
  | .encodeRgb565 _ _ _ => ['e', 'n', 'c', 'o', 'd', 'e', '_', 'r', 'g', 'b', '5', '6', '5']
  | .fillChunks _ _ => ['f', 'i', 'l', 'l', '_', 'c', 'h', 'u', 'n', 'k', 's']
  | .windowCheck _ _ _ => ['w', 'i', 'n', 'd', 'o', 'w', '_', 'c', 'h', 'e', 'c', 'k']
  | .initApply _ => ['i', 'n', 'i', 't', '_', 'a', 'p', 'p', 'l', 'y']
  | .sessionOpen => ['s', 'e', 's', 's', 'i', 'o', 'n', '_', 'o', 'p', 'e', 'n']
  | .initializePanel => ['i', 'n', 'i', 't', 'i', 'a', 'l', 'i', 'z', 'e']
  | .refresh _ _ => ['r', 'e', 'f', 'r', 'e', 's', 'h']
  | .streamPixels _ _ => ['s', 't', 'r', 'e', 'a', 'm', '_', 'p', 'i', 'x', 'e', 'l', 's']
  | .streamFill _ _ => ['s', 't', 'r', 'e', 'a', 'm', '_', 'f', 'i', 'l', 'l']
  | .sleep => ['s', 'l', 'e', 'e', 'p']
  | .teardown => ['t', 'e', 'a', 'r', 'd', 'o', 'w', 'n']

/-- The operands of an operation, in the order of R101. -/
def operandChars : Instr → List (List Char)
  | .lineAcquire chip specs => [textChars chip, listChars (specs.map lineSpecChars)]
  | .lineSet role level => [roleChars role, bitChars level]
  | .lineGet role => [roleChars role]
  | .lineRelease => []
  | .spiOpen path clockHz mode bits => [textChars path, natChars clockHz, natChars mode, natChars bits]
  | .spiWrite data => [bytesChars data]
  | .spiClose => []
  | .delay d => [natChars d]
  | .sendCommand opcode => [natChars opcode.toNat]
  | .sendData data => [bytesChars data]
  | .waitReady polarity interval timeout stage =>
    [polarityChars polarity, natChars interval, natChars timeout, textChars stage]
  | .fbCheck fb => [frameChars fb]
  | .encodeMono width height black => [natChars width, natChars height, bytesChars black]
  | .decodeMono fb => [frameChars fb]
  | .encodeRgb565 width height colors =>
    [natChars width, natChars height, listChars (colors.map fun c => natChars c.toNat)]
  | .fillChunks color count => [natChars color.toNat, natChars count]
  | .windowCheck width height win => [natChars width, natChars height, windowChars win]
  | .initApply table => [listChars (table.map entryChars)]
  | .sessionOpen => []
  | .initializePanel => []
  | .refresh old new => [frameChars old, frameChars new]
  | .streamPixels win pixels => [windowChars win, bytesChars pixels]
  | .streamFill win color => [windowChars win, natChars color.toNat]
  | .sleep => []
  | .teardown => []

/-- The text form of an operation (R104): mnemonic, then the operands separated by commas. -/
def asmChars (i : Instr) : List Char :=
  match operandChars i with
  | [] => mnemonicChars i
  | ops => mnemonicChars i ++ ' ' :: joinChars ops

/-! ## Reading -/

/-- Tokens of the text form: names, integers, strings and punctuation. -/
inductive Tok where
  | word (cs : List Char)
  | num (n : Nat)
  | str (t : Text)
  | punct (c : Char)
deriving DecidableEq, Repr

/-- The value of a hexadecimal digit. -/
def hexDigit (c : Char) : Option Nat :=
  let n := c.toNat
  if 48 ≤ n ∧ n ≤ 57 then some (n - 48)
  else if 97 ≤ n ∧ n ≤ 102 then some (n - 87)
  else if 65 ≤ n ∧ n ≤ 70 then some (n - 55)
  else none

/-- The value of a decimal digit. -/
def decDigit (c : Char) : Option Nat :=
  if 48 ≤ c.toNat ∧ c.toNat ≤ 57 then some (c.toNat - 48) else none

/-- A letter of a name: lower case, digit or underscore. -/
def nameChar (c : Char) : Bool :=
  decide (97 ≤ c.toNat ∧ c.toNat ≤ 122) || (decDigit c).isSome || decide (c = '_')

/-- Digits in a base, and what follows them. -/
def takeDigits (digit : Char → Option Nat) (base : Nat) : Nat → List Char → Nat × List Char
  | acc, [] => (acc, [])
  | acc, c :: r =>
    match digit c with
    | some d => takeDigits digit base (acc * base + d) r
    | none => (acc, c :: r)

/-- The characters of a name, and what follows them. -/
def takeName : List Char → List Char × List Char
  | [] => ([], [])
  | c :: r => if nameChar c then (c :: (takeName r).1, (takeName r).2) else ([], c :: r)

/-- The bytes of a string up to its closing quote, and what follows it: the first quote closes it, there is no escape, and a
character below 256 is the byte of its number (DESIGN CHOICE, log 37). -/
def takeString : List Char → Option (Text × List Char)
  | [] => none
  | c :: r =>
    if c = '"' then some ([], r)
    else if c.toNat < 256 then
      match takeString r with
      | some (t, r') => some (BitVec.ofNat 8 c.toNat :: t, r')
      | none => none
    else none

/-- What follows a comment, which ends with its line. -/
def skipComment : List Char → List Char
  | [] => []
  | c :: r => if c.toNat = 10 then r else skipComment r

/-- Whether a character is a blank. -/
def blankChar (c : Char) : Bool := decide (c = ' ') || decide (c.toNat = 9) || decide (c.toNat = 10)

/-- The punctuation of the text form: comma, brackets, parentheses, braces. -/
def punctChar (c : Char) : Bool :=
  decide (c ∈ [',', '[', ']', '(', ')', Char.ofNat 123, Char.ofNat 125])

/-- The tokens of a text; `fuel` bounds them, and the number of characters is enough. That `0x` with no hexadecimal digit
after it is no integer, so that such a text has no tokens, is the model's choice (DESIGN CHOICE, log 35). -/
def lexFuel : Nat → List Char → Option (List Tok)
  | _, [] => some []
  | 0, _ :: _ => none
  | fuel + 1, c :: r =>
    if blankChar c then lexFuel fuel r
    else if c = ';' then lexFuel fuel (skipComment r)
    else if punctChar c then (lexFuel fuel r).map (.punct c :: ·)
    else if c = '"' then
      match takeString r with
      | some (t, r') => (lexFuel fuel r').map (.str t :: ·)
      | none => none
    else if (decDigit c).isSome then
      match c, r with
      | '0', 'x' :: r' =>
        let p := takeDigits hexDigit 16 0 r'
        if p.2.length = r'.length then none else (lexFuel fuel p.2).map (.num p.1 :: ·)
      | _, _ =>
        let p := takeDigits decDigit 10 0 (c :: r)
        (lexFuel fuel p.2).map (.num p.1 :: ·)
    else if nameChar c then
      let p := takeName (c :: r)
      (lexFuel fuel p.2).map (.word p.1 :: ·)
    else none

/-- The tokens of a text. -/
def lexChars (cs : List Char) : Option (List Tok) := lexFuel cs.length cs

/-- An integer. -/
def readNat : List Tok → Option (Nat × List Tok)
  | .num n :: r => some (n, r)
  | _ => none

/-- A string. -/
def readText : List Tok → Option (Text × List Tok)
  | .str t :: r => some (t, r)
  | _ => none

/-- A punctuation mark. -/
def readPunct (c : Char) : List Tok → Option (Unit × List Tok)
  | .punct d :: r => if c = d then some ((), r) else none
  | _ => none

/-- A comma. -/
def readComma : List Tok → Option (Unit × List Tok) := readPunct ','

/-- The value that a word names in a list of names. -/
def readNamed {α : Type} (names : List (List Char × α)) : List Tok → Option (α × List Tok)
  | .word w :: r =>
    match names.find? (fun p => decide (p.1 = w)) with
    | some p => some (p.2, r)
    | none => none
  | _ => none

/-- A Bit. -/
def readBit : List Tok → Option (Bit × List Tok)
  | .num 0 :: r => some (false, r)
  | .num 1 :: r => some (true, r)
  | _ => none

/-- A Bool, by name. -/
def readBool : List Tok → Option (Bool × List Tok) := readNamed [(boolChars false, false), (boolChars true, true)]

/-- A role, by name. -/
def readRole : List Tok → Option (Role × List Tok) :=
  readNamed [(roleChars .dc, .dc), (roleChars .rst, .rst), (roleChars .busy, .busy), (roleChars .cs, .cs)]

/-- A direction, by name. -/
def readDirection : List Tok → Option (Direction × List Tok) :=
  readNamed [(directionChars .input, .input), (directionChars .output, .output)]

/-- A polarity, by name. -/
def readPolarity : List Tok → Option (Polarity × List Tok) :=
  readNamed [(polarityChars .activeHigh, .activeHigh), (polarityChars .activeLow, .activeLow)]

/-- An encoding, by name. -/
def readEncoding : List Tok → Option (Encoding × List Tok) :=
  readNamed [(encodingChars .mono1bpp, .mono1bpp), (encodingChars .rgb565, .rgb565)]

/-- A byte. -/
def readByte (ts : List Tok) : Option (Byte × List Tok) := do
  let (n, r) ← readNat ts
  if n < 256 then some (BitVec.ofNat 8 n, r) else none

/-- A colour. -/
def readColor (ts : List Tok) : Option (U16 × List Tok) := do
  let (n, r) ← readNat ts
  if n < 65536 then some (BitVec.ofNat 16 n, r) else none

/-- Items separated by commas, up to a closing bracket; `fuel` bounds them. -/
def readItems {α : Type} (p : List Tok → Option (α × List Tok)) : Nat → List Tok → Option (List α × List Tok)
  | 0, _ => none
  | fuel + 1, ts =>
    match p ts with
    | none => none
    | some (a, .punct ']' :: r) => some ([a], r)
    | some (a, .punct ',' :: r) =>
      match readItems p fuel r with
      | some (as, r') => some (a :: as, r')
      | none => none
    | some _ => none

/-- A list in brackets. -/
def readList {α : Type} (p : List Tok → Option (α × List Tok)) : List Tok → Option (List α × List Tok)
  | .punct '[' :: .punct ']' :: r => some ([], r)
  | .punct '[' :: r => readItems p r.length r
  | _ => none

/-- A byte sequence. -/
def readBytes : List Tok → Option (List Byte × List Tok) := readList readByte

/-- A window. -/
def readWindow (ts : List Tok) : Option (Window × List Tok) := do
  let (_, r) ← readPunct '(' ts
  let (x0, r) ← readNat r
  let (_, r) ← readComma r
  let (y0, r) ← readNat r
  let (_, r) ← readComma r
  let (x1, r) ← readNat r
  let (_, r) ← readComma r
  let (y1, r) ← readNat r
  let (_, r) ← readPunct ')' r
  some (⟨x0, y0, x1, y1⟩, r)

/-- A framebuffer. -/
def readFrame (ts : List Tok) : Option (Framebuffer × List Tok) := do
  let (_, r) ← readPunct '(' ts
  let (w, r) ← readNat r
  let (_, r) ← readComma r
  let (h, r) ← readNat r
  let (_, r) ← readComma r
  let (e, r) ← readEncoding r
  let (_, r) ← readComma r
  let (bs, r) ← readBytes r
  let (_, r) ← readPunct ')' r
  some (⟨w, h, e, bs⟩, r)

/-- A line spec. -/
def readLineSpec (ts : List Tok) : Option (LineSpec × List Tok) := do
  let (_, r) ← readPunct '(' ts
  let (role, r) ← readRole r
  let (_, r) ← readComma r
  let (o, r) ← readNat r
  let (_, r) ← readComma r
  let (d, r) ← readDirection r
  let (_, r) ← readComma r
  let (v, r) ← readBit r
  let (_, r) ← readPunct ')' r
  some (⟨role, o, d, v⟩, r)

/-- A Command Entry. -/
def readEntry (ts : List Tok) : Option (Entry × List Tok) := do
  let (_, r) ← readPunct (Char.ofNat 123) ts
  let (op, r) ← readNat r
  let (_, r) ← readComma r
  let (ps, r) ← readList readNat r
  let (_, r) ← readComma r
  let (d, r) ← readNat r
  let (_, r) ← readComma r
  let (b, r) ← readBool r
  let (_, r) ← readPunct (Char.ofNat 125) r
  some (⟨op, ps, d, b⟩, r)

/-- The operands of the operation of an OPSEL, in the order of R101. That a number operand may lie outside the u8, u16 or
u32 that R101 gives it, where a byte, a Bit or a colour may not, is the model's choice (DESIGN CHOICE, log 34). -/
def readOperands (i : Instr) (ts : List Tok) : Option (Instr × List Tok) :=
  match i with
  | .lineAcquire _ _ => do
    let (chip, r) ← readText ts
    let (_, r) ← readComma r
    let (specs, r) ← readList readLineSpec r
    some (.lineAcquire chip specs, r)
  | .lineSet _ _ => do
    let (role, r) ← readRole ts
    let (_, r) ← readComma r
    let (v, r) ← readBit r
    some (.lineSet role v, r)
  | .lineGet _ => do
    let (role, r) ← readRole ts
    some (.lineGet role, r)
  | .lineRelease => some (.lineRelease, ts)
  | .spiOpen _ _ _ _ => do
    let (path, r) ← readText ts
    let (_, r) ← readComma r
    let (hz, r) ← readNat r
    let (_, r) ← readComma r
    let (mode, r) ← readNat r
    let (_, r) ← readComma r
    let (bits, r) ← readNat r
    some (.spiOpen path hz mode bits, r)
  | .spiWrite _ => do
    let (data, r) ← readBytes ts
    some (.spiWrite data, r)
  | .spiClose => some (.spiClose, ts)
  | .delay _ => do
    let (d, r) ← readNat ts
    some (.delay d, r)
  | .sendCommand _ => do
    let (op, r) ← readByte ts
    some (.sendCommand op, r)
  | .sendData _ => do
    let (data, r) ← readBytes ts
    some (.sendData data, r)
  | .waitReady _ _ _ _ => do
    let (p, r) ← readPolarity ts
    let (_, r) ← readComma r
    let (interval, r) ← readNat r
    let (_, r) ← readComma r
    let (timeout, r) ← readNat r
    let (_, r) ← readComma r
    let (stage, r) ← readText r
    some (.waitReady p interval timeout stage, r)
  | .fbCheck _ => do
    let (fb, r) ← readFrame ts
    some (.fbCheck fb, r)
  | .encodeMono _ _ _ => do
    let (w, r) ← readNat ts
    let (_, r) ← readComma r
    let (h, r) ← readNat r
    let (_, r) ← readComma r
    let (black, r) ← readBytes r
    some (.encodeMono w h black, r)
  | .decodeMono _ => do
    let (fb, r) ← readFrame ts
    some (.decodeMono fb, r)
  | .encodeRgb565 _ _ _ => do
    let (w, r) ← readNat ts
    let (_, r) ← readComma r
    let (h, r) ← readNat r
    let (_, r) ← readComma r
    let (cs, r) ← readList readColor r
    some (.encodeRgb565 w h cs, r)
  | .fillChunks _ _ => do
    let (c, r) ← readColor ts
    let (_, r) ← readComma r
    let (n, r) ← readNat r
    some (.fillChunks c n, r)
  | .windowCheck _ _ _ => do
    let (w, r) ← readNat ts
    let (_, r) ← readComma r
    let (h, r) ← readNat r
    let (_, r) ← readComma r
    let (win, r) ← readWindow r
    some (.windowCheck w h win, r)
  | .initApply _ => do
    let (t, r) ← readList readEntry ts
    some (.initApply t, r)
  | .sessionOpen => some (.sessionOpen, ts)
  | .initializePanel => some (.initializePanel, ts)
  | .refresh _ _ => do
    let (old, r) ← readFrame ts
    let (_, r) ← readComma r
    let (new, r) ← readFrame r
    some (.refresh old new, r)
  | .streamPixels _ _ => do
    let (win, r) ← readWindow ts
    let (_, r) ← readComma r
    let (px, r) ← readBytes r
    some (.streamPixels win px, r)
  | .streamFill _ _ => do
    let (win, r) ← readWindow ts
    let (_, r) ← readComma r
    let (c, r) ← readColor r
    some (.streamFill win c, r)
  | .sleep => some (.sleep, ts)
  | .teardown => some (.teardown, ts)

/-- One operation of each kind, for its mnemonic; the operands are read over. -/
def templates : List Instr :=
  [.lineAcquire [] [], .lineSet .dc false, .lineGet .dc, .lineRelease, .spiOpen [] 0 0 0, .spiWrite [], .spiClose,
   .delay 0, .sendCommand 0, .sendData [], .waitReady .activeLow 0 0 [], .fbCheck ⟨0, 0, .mono1bpp, []⟩,
   .encodeMono 0 0 [], .decodeMono ⟨0, 0, .mono1bpp, []⟩, .encodeRgb565 0 0 [], .fillChunks 0 0,
   .windowCheck 0 0 ⟨0, 0, 0, 0⟩, .initApply [], .sessionOpen, .initializePanel,
   .refresh ⟨0, 0, .mono1bpp, []⟩ ⟨0, 0, .mono1bpp, []⟩, .streamPixels ⟨0, 0, 0, 0⟩ [], .streamFill ⟨0, 0, 0, 0⟩ 0,
   .sleep, .teardown]

/-- The operation a text names (R104): a mnemonic, its operands, and nothing after them but a comment. -/
def assemble (cs : List Char) : Option Instr := do
  let ts ← lexChars cs
  let (i, r) ← readNamed (templates.map fun i => (mnemonicChars i, i)) ts
  let (j, rest) ← readOperands i r
  if rest.isEmpty then some j else none

/-- The operations a line names: one, or those of the pseudo-instruction `cmd op, [p0, ..., pn-1]` (R105). -/
def assembleLine (cs : List Char) : Option (List Instr) :=
  match lexChars cs with
  | some (.word ['c', 'm', 'd'] :: ts) => do
    let (op, r) ← readByte ts
    let (_, r) ← readComma r
    let (params, r) ← readBytes r
    if r.isEmpty then some (expandCmd op params) else none
  | _ => (assemble cs).map fun i => [i]

end Sys2Proof.Machine
end

