-- ==== Sys2Proof/Tests/Slice0.lean ====
section
/-! SUPPORT. Tests: an ill-formed operation per check of WellFormed, a descriptor per operation, small steps, and for every
statement of Certificates/Slice0 a concrete case of its hypotheses. Expected values are those of spec/95_test_vectors.md or
read off the rule named. -/

namespace Sys2Proof.Tests

open Sys2Proof Sys2Proof.Machine

/-- A line as SESSION_OPEN would hold it. -/
def heldLine (c : Cfg) (r : Role) : Line :=
  { createdLine c r with acquired := rolePresent c r, level := sessionInit c r }

/-- A block of configuration `c` with its lines held and its transport open. -/
def block (c : Cfg) (p : Phase) (busy : List Bit) (writes : List WriteAnswer) : State :=
  { State.created c build95 with
    phase := p
    lines := ⟨heldLine c .dc, heldLine c .rst, heldLine c .busy, heldLine c .cs⟩
    transport := ⟨true, c.spiPath, c.spiClockHz, c.spiMode, c.spiBitsPerWord, c.spiBitOrder⟩
    env := { Env.unscripted with busy := busy, writes := writes } }

/-- A block just created, with answers for its draws. -/
def fresh (c : Cfg) (chip : List Bool) (owned : List Bool) (opens accepts : List Bool) : State :=
  { State.created c build95 with
    env := { Env.unscripted with chipOpens := chip, offsetOwned := owned, deviceOpens := opens, deviceAccepts := accepts } }

/-- `n` writes answered Ok. -/
def oks (n : Nat) : List WriteAnswer := List.replicate n .ok

/-- The events a next state has (a block of these tests starts with none). -/
def eventsOf : Out → List Event
  | .next t => t.trace
  | _ => []

/-- The result of a next state. -/
def resultOf : Out → Option Result
  | .next t => t.result
  | _ => none

/-- The three lines of vector V-L1. -/
def specsE : List LineSpec := [⟨.dc, 25, .output, true⟩, ⟨.rst, 17, .output, true⟩, ⟨.busy, 24, .input, false⟩]

/-- Configuration T with another CS mode. -/
def withMode (m : CsMode) : Cfg := { configT with csMode := m }

/-- All white, 8 x 32. -/
def white : Framebuffer := ⟨8, 32, .mono1bpp, List.replicate 32 0xFF⟩

/-- The stripes of program P1. -/
def stripes : Framebuffer := ⟨8, 32, .mono1bpp, List.replicate 16 0x00 ++ List.replicate 16 0xFF⟩

/-! ## WellFormed: one ill-formed operation per check (R101) -/

theorem test_wf_spec_offset : Instr.wf (.lineAcquire [] [⟨.dc, 4294967296, .output, false⟩]) = false := by decide
theorem test_wf_open_clock : Instr.wf (.spiOpen [] 4294967296 0 8) = false := by decide
theorem test_wf_open_mode : Instr.wf (.spiOpen [] 1 256 8) = false := by decide
theorem test_wf_open_bits : Instr.wf (.spiOpen [] 1 0 256) = false := by decide
theorem test_wf_delay : Instr.wf (.delay 4294967296) = false ∧ Instr.wf (.delay 4294967295) = true := by decide
theorem test_wf_wait_interval : Instr.wf (.waitReady .activeLow 4294967296 0 []) = false := by decide
theorem test_wf_wait_timeout : Instr.wf (.waitReady .activeLow 0 4294967296 []) = false := by decide
theorem test_wf_frame_width :
    Instr.wf (.fbCheck ⟨65536, 1, .mono1bpp, []⟩) = false ∧ Instr.wf (.decodeMono ⟨65536, 1, .mono1bpp, []⟩) = false := by decide
theorem test_wf_frame_height :
    Instr.wf (.refresh white ⟨1, 65536, .mono1bpp, []⟩) = false ∧ Instr.wf (.refresh ⟨1, 65536, .mono1bpp, []⟩ white) = false := by decide
theorem test_wf_mono_width :
    Instr.wf (.encodeMono 65536 1 []) = false ∧ Instr.wf (.encodeMono 1 65536 []) = false := by decide
theorem test_wf_rgb_width :
    Instr.wf (.encodeRgb565 65536 1 []) = false ∧ Instr.wf (.encodeRgb565 1 65536 []) = false := by decide
theorem test_wf_fill_count : Instr.wf (.fillChunks 0 4294967296) = false := by decide
theorem test_wf_window :
    Window.wf ⟨65536, 0, 0, 0⟩ = false ∧ Window.wf ⟨0, 65536, 0, 0⟩ = false ∧ Window.wf ⟨0, 0, 65536, 0⟩ = false ∧
      Window.wf ⟨0, 0, 0, 65536⟩ = false ∧ Instr.wf (.streamFill ⟨65536, 0, 0, 0⟩ 0) = false ∧
      Instr.wf (.streamPixels ⟨65536, 0, 0, 0⟩ []) = false := by decide
theorem test_wf_check_width :
    Instr.wf (.windowCheck 65536 1 ⟨0, 0, 0, 0⟩) = false ∧ Instr.wf (.windowCheck 1 65536 ⟨0, 0, 0, 0⟩) = false := by decide
theorem test_wf_entry :
    Instr.wf (.initApply [⟨256, [], 0, false⟩]) = false ∧ Instr.wf (.initApply [⟨0, [256], 0, false⟩]) = false ∧
      Instr.wf (.initApply [⟨0, [], 4294967296, false⟩]) = false := by decide
/-- A text longer than a byte can count (R101). -/
theorem test_wf_text (x : Text) (h : x.length = 256) :
    Instr.wf (.lineAcquire x []) = false ∧ Instr.wf (.spiOpen x 1 0 8) = false ∧
      Instr.wf (.waitReady .activeLow 0 0 x) = false := by
  simp [Instr.wf, Text.wf, fitsU8, h]
/-- More lines than a byte can count (R101). -/
theorem test_wf_spec_count (l : List LineSpec) (h : l.length = 256) : Instr.wf (.lineAcquire [] l) = false := by
  simp [Instr.wf, fitsU8, h]
/-- A length that four bytes cannot name (R101). -/
theorem test_wf_bytes (bs : List Byte) (h : bs.length = 4294967296) :
    Instr.wf (.spiWrite bs) = false ∧ Instr.wf (.sendData bs) = false ∧ Instr.wf (.encodeMono 1 1 bs) = false ∧
      Instr.wf (.streamPixels ⟨0, 0, 0, 0⟩ bs) = false ∧ Instr.wf (.fbCheck ⟨1, 1, .mono1bpp, bs⟩) = false := by
  simp [Instr.wf, Framebuffer.wf, bytesWf, fitsU32, h]
/-- More table entries than two bytes can count (R101). -/
theorem test_wf_table_count (es : List Entry) (h : es.length = 65536) : Instr.wf (.initApply es) = false := by
  simp [Instr.wf, fitsU16, h]
/-- More colours than four bytes can count (R101). -/
theorem test_wf_colors_count (cs : List U16) (h : cs.length = 4294967296) :
    Instr.wf (.encodeRgb565 1 1 cs) = false := by
  simp [Instr.wf, fitsU32, h]
/-- More parameters of an entry than four bytes can count (R101). -/
theorem test_wf_entry_params (ps : List Nat) (h : ps.length = 4294967296) : Entry.wf ⟨0, ps, 0, false⟩ = false := by
  simp [Entry.wf, fitsU32, h]

/-! ## Decode: a descriptor of every operation, written out from R100 and R101 -/

/-- Chip "gp", DC on offset 281 with level 1, BUSY on offset 24. -/
theorem test_decode_line_acquire :
    decode [0x01, 0x02, 0x67, 0x70, 0x02, 0x00, 0x00, 0x00, 0x01, 0x19, 0x01, 0x01, 0x02, 0x00, 0x00, 0x00, 0x18, 0x00, 0x00] =
      some (.lineAcquire [0x67, 0x70] [⟨.dc, 281, .output, true⟩, ⟨.busy, 24, .input, false⟩], []) := by decide
theorem test_decode_line_set : decode [0x02, 0x03, 0x01] =
      some (.lineSet .cs true, []) := by decide
/-- V-D2. -/
theorem test_decode_line_get : decode [0x03, 0x02] =
      some (.lineGet .busy, []) := by decide
/-- V-D18. -/
theorem test_decode_line_release : decode [0x04] =
      some (.lineRelease, []) := by decide
theorem test_decode_spi_open :
    decode [0x05, 0x02, 0x2F, 0x61, 0x00, 0x3D, 0x09, 0x00, 0x03, 0x08] =
      some (.spiOpen [0x2F, 0x61] 4000000 3 8, []) := by decide
theorem test_decode_spi_write :
    decode [0x06, 0x00, 0x00, 0x00, 0x03, 0xAA, 0x55, 0x01] =
      some (.spiWrite [0xAA, 0x55, 0x01], []) := by decide
/-- V-D18. -/
theorem test_decode_spi_close : decode [0x07] =
      some (.spiClose, []) := by decide
/-- V-D6. -/
theorem test_decode_delay : decode [0x08, 0x00, 0x00, 0x27, 0x10] =
      some (.delay 10000, []) := by decide
/-- V-D3. -/
theorem test_decode_send_command : decode [0x10, 0x2A] =
      some (.sendCommand 0x2A, []) := by decide
/-- V-D4. -/
theorem test_decode_send_data :
    decode [0x11, 0x00, 0x00, 0x00, 0x02, 0x01, 0x02] =
      some (.sendData [0x01, 0x02], []) := by decide
/-- V-D5. -/
theorem test_decode_wait_ready :
    decode [0x18, 0x00, 0x00, 0x00, 0x00, 0x64, 0x00, 0x00, 0x13, 0x88, 0x07, 0x72, 0x65, 0x66, 0x72, 0x65, 0x73, 0x68] =
      some (.waitReady .activeLow 100 5000 [0x72, 0x65, 0x66, 0x72, 0x65, 0x73, 0x68], []) := by decide
/-- Program P4. -/
theorem test_decode_wait_ready_high :
    decode [0x18, 0x01, 0x00, 0x00, 0x00, 0x64, 0x00, 0x00, 0x00, 0xFA, 0x04, 0x74, 0x65, 0x73, 0x74] =
      some (.waitReady .activeHigh 100 250 [0x74, 0x65, 0x73, 0x74], []) := by decide
/-- V-D10. -/
theorem test_decode_fb_check :
    decode [0x20, 0x00, 0x08, 0x00, 0x02, 0x01, 0x00, 0x00, 0x00, 0x02, 0x55, 0xAA] =
      some (.fbCheck ⟨8, 2, .mono1bpp, [0x55, 0xAA]⟩, []) := by decide
theorem test_decode_encode_mono :
    decode [0x21, 0x00, 0x08, 0x01, 0x02, 0x00, 0x00, 0x00, 0x02, 0x01, 0x00] =
      some (.encodeMono 8 258 [0x01, 0x00], []) := by decide
theorem test_decode_decode_mono :
    decode [0x22, 0x00, 0x08, 0x00, 0x02, 0x10, 0x00, 0x00, 0x00, 0x02, 0x55, 0xAA] =
      some (.decodeMono ⟨8, 2, .rgb565, [0x55, 0xAA]⟩, []) := by decide
/-- V-D12. -/
theorem test_decode_encode_rgb565 :
    decode [0x23, 0x00, 0x02, 0x00, 0x01, 0x00, 0x00, 0x00, 0x02, 0xF8, 0x00, 0x07, 0xE0] =
      some (.encodeRgb565 2 1 [0xF800, 0x07E0], []) := by decide
/-- V-D8. -/
theorem test_decode_fill_chunks :
    decode [0x24, 0xF8, 0x00, 0x00, 0x00, 0x00, 0x04] =
      some (.fillChunks 0xF800 4, []) := by decide
/-- V-D7. -/
theorem test_decode_window_check :
    decode [0x25, 0x00, 0xF0, 0x00, 0xF0, 0x00, 0x0A, 0x00, 0x14, 0x00, 0x13, 0x00, 0x18] =
      some (.windowCheck 240 240 ⟨10, 20, 19, 24⟩, []) := by decide
theorem test_decode_init_apply :
    decode [0x30, 0x00, 0x02, 0x01, 0x00, 0x00, 0x00, 0x01, 0x03, 0x00, 0x00, 0x00, 0x00, 0x00, 0x04, 0x00, 0x00, 0x00, 0x00, 0x00, 0x00, 0x00, 0x05, 0x01] =
      some (.initApply [⟨1, [3], 0, false⟩, ⟨4, [], 5, true⟩], []) := by decide
/-- V-D18. -/
theorem test_decode_session_open : decode [0x31] =
      some (.sessionOpen, []) := by decide
/-- V-D18. -/
theorem test_decode_initialize : decode [0x32] =
      some (.initializePanel, []) := by decide
theorem test_decode_refresh :
    decode [0x33, 0x00, 0x08, 0x00, 0x01, 0x01, 0x00, 0x00, 0x00, 0x01, 0xFF, 0x00, 0x08, 0x00, 0x02, 0x01, 0x00, 0x00, 0x00, 0x02, 0x00, 0xFF] =
      some (.refresh ⟨8, 1, .mono1bpp, [0xFF]⟩ ⟨8, 2, .mono1bpp, [0x00, 0xFF]⟩, []) := by decide
theorem test_decode_stream_pixels :
    decode [0x34, 0x00, 0x01, 0x00, 0x02, 0x00, 0x03, 0x00, 0x04, 0x00, 0x00, 0x00, 0x02, 0xF8, 0x00] =
      some (.streamPixels ⟨1, 2, 3, 4⟩ [0xF8, 0x00], []) := by decide
/-- V-D13. -/
theorem test_decode_stream_fill :
    decode [0x35, 0x00, 0x01, 0x00, 0x00, 0x00, 0x02, 0x00, 0x01, 0xF8, 0x00] =
      some (.streamFill ⟨1, 0, 2, 1⟩ 0xF800, []) := by decide
/-- V-D18. -/
theorem test_decode_sleep : decode [0x36] =
      some (.sleep, []) := by decide
/-- V-D18. -/
theorem test_decode_teardown : decode [0x37] =
      some (.teardown, []) := by decide
/-- The first byte of a descriptor is the lowest byte of a table word. -/
theorem test_table_word :
    decodeTableWord 16 0x2A10 = some (.sendCommand 0x2A) ∧ decodeTableWord 24 0x010302 = some (.lineSet .cs true) := by decide

/-! ## Small steps -/

/-- V-L1. -/
theorem test_exec_line_acquire :
    eventsOf (exec (.lineAcquire gpiochip0 specsE) (fresh configE [true] [false, false, false] [] [])) =
      [.acquire .dc 25 .output (some true), .acquire .rst 17 .output (some true), .acquire .busy 24 .input none] ∧
      resultOf (exec (.lineAcquire gpiochip0 specsE) (fresh configE [true] [false, false, false] [] [])) = some .ok := by decide
/-- V-L5. -/
theorem test_exec_line_acquire_owned :
    eventsOf (exec (.lineAcquire gpiochip0 specsE) (fresh configE [true] [false, false, true] [] [])) =
      [.error ⟨.resourceError, 1, { reason := 2, offset := some 24 }⟩] := by decide
/-- V-L12. -/
theorem test_exec_line_set :
    eventsOf (exec (.lineSet .dc true) (block configE .reset [] [])) =
      [.lineSet .dc true] ∧
      resultOf (exec (.lineSet .dc true) (block configE .reset [] [])) = some .ok := by decide
/-- V-L10. -/
theorem test_exec_line_set_input :
    eventsOf (exec (.lineSet .busy true) (block configE .reset [] [])) =
      [.error ⟨.resourceError, 1, { reason := 7, role := some .busy }⟩] := by decide
/-- V-L13. -/
theorem test_exec_line_get :
    eventsOf (exec (.lineGet .busy) (block configE .reset [false, true] [])) =
      [.lineGet .busy false] ∧
      resultOf (exec (.lineGet .busy) (block configE .reset [false, true] [])) = some (.level false) := by decide
/-- V-L11. -/
theorem test_exec_line_get_output :
    eventsOf (exec (.lineGet .dc) (block configE .reset [] [])) =
      [.error ⟨.resourceError, 1, { reason := 7, role := some .dc }⟩] := by decide
/-- V-L14. -/
theorem test_exec_line_release :
    ∃ t, exec .lineRelease { block configE .reset [] [] with env := { Env.unscripted with released := [true, false, true] } } =
      .next t ∧ t.trace = [.release .dc, .release .rst, .release .busy] ∧ (t.line .dc).acquired = false := ⟨_, rfl, rfl, rfl⟩
/-- V-L15. -/
theorem test_exec_spi_open :
    eventsOf (exec (.spiOpen spidev00 4000000 0 8) (fresh configE [] [] [true] [true])) =
      [.opened spidev00 4000000 0 8 .msbFirst] ∧
      resultOf (exec (.spiOpen spidev00 4000000 0 8) (fresh configE [] [] [true] [true])) = some .ok := by decide
/-- V-L17. -/
theorem test_exec_spi_open_mode :
    eventsOf (exec (.spiOpen spidev00 4000000 4 8) (fresh configE [] [] [true] [true])) =
      [.error ⟨.ioError, 2, { reason := 2 }⟩] := by decide
/-- V-L22. -/
theorem test_exec_spi_write :
    eventsOf (exec (.spiWrite [0xAA, 0x55]) (block configE .reset [] (oks 1))) =
      [.spiWrite [0xAA, 0x55] true] ∧
      resultOf (exec (.spiWrite [0xAA, 0x55]) (block configE .reset [] (oks 1))) = some .ok := by decide
/-- V-L23. -/
theorem test_exec_spi_write_short :
    eventsOf (exec (.spiWrite [0xAA, 0x55, 0x01]) (block configE .reset [] [.fail 2])) =
      [.spiWrite [0xAA, 0x55] false, .error ⟨.ioError, 2, { reason := 3, written := some 2 }⟩] := by decide
/-- V-L27. -/
theorem test_exec_spi_close :
    eventsOf (exec (.spiClose) (block configE .reset [] [])) =
      [.closed] ∧
      resultOf (exec (.spiClose) (block configE .reset [] [])) = some .ok := by decide
/-- V-L26. -/
theorem test_exec_spi_close_closed :
    eventsOf (exec (.spiClose) (fresh configE [] [] [] [])) =
      [] ∧
      resultOf (exec (.spiClose) (fresh configE [] [] [] [])) = some .ok := by decide
/-- V-L28. -/
theorem test_exec_delay :
    eventsOf (exec (.delay 0) (block configE .reset [] [])) =
      [.delay 0] ∧
      resultOf (exec (.delay 0) (block configE .reset [] [])) = some .ok := by decide
/-- V-F2. -/
theorem test_exec_send_command :
    eventsOf (exec (.sendCommand 0x2A) (block configT .reset [] (oks 1))) =
      [.lineSet .cs false, .lineSet .dc false, .spiWrite [0x2A] true, .lineSet .cs true] ∧
      resultOf (exec (.sendCommand 0x2A) (block configT .reset [] (oks 1))) = some .ok := by decide
/-- V-F9. -/
theorem test_exec_send_command_no_cs_line :
    eventsOf (exec (.sendCommand 0x2A) { block configT .reset [] (oks 1) with lines := ⟨heldLine configT .dc, heldLine configT .rst, createdLine configT .busy, createdLine configT .cs⟩ }) =
      [.error ⟨.resourceError, 1, { reason := 6, role := some .cs }⟩] := by decide
/-- V-F3, its first two bytes. -/
theorem test_exec_send_data_per_byte :
    eventsOf (exec (.sendData [0x01, 0x02]) (block (withMode .perByte) .reset [] (oks 2))) =
      [.lineSet .cs false, .lineSet .dc true, .spiWrite [0x01] true, .lineSet .cs true,
        .lineSet .cs false, .spiWrite [0x02] true, .lineSet .cs true] ∧
      resultOf (exec (.sendData [0x01, 0x02]) (block (withMode .perByte) .reset [] (oks 2))) = some .ok := by decide
/-- V-F7. -/
theorem test_exec_send_data_short :
    eventsOf (exec (.sendData [0x01, 0x02]) (block configT .reset [] [.fail 1])) =
      [.lineSet .cs false, .lineSet .dc true, .spiWrite [0x01] false,
        .error ⟨.ioError, 2, { reason := 3, written := some 1 }⟩] := by decide
/-- S4, k = 1. -/
theorem test_exec_wait_ready :
    eventsOf (exec (.waitReady .activeLow 100 250 [0x77]) (block configE .reset [false, true] [])) =
      [.lineGet .busy false, .delay 100, .lineGet .busy true] ∧
      resultOf (exec (.waitReady .activeLow 100 250 [0x77]) (block configE .reset [false, true] [])) = some (.ready 2) := by decide
/-- V-B2. -/
theorem test_exec_wait_ready_timeout :
    eventsOf (exec (.waitReady .activeLow 100 250 [0x77]) (block configE .reset [false, false, false, false] [])) =
      [.lineGet .busy false, .delay 100, .lineGet .busy false, .delay 100, .lineGet .busy false, .delay 100,
        .lineGet .busy false, .error ⟨.timeoutError, 3, { reason := 1, stage := some [0x77], polls := some 4 }⟩] := by decide
/-- Program P5. -/
theorem test_exec_fb_check :
    eventsOf (exec (.fbCheck ⟨8, 2, .mono1bpp, [0x55, 0xAA]⟩) (block configE .initialized [] [])) =
      [] ∧
      resultOf (exec (.fbCheck ⟨8, 2, .mono1bpp, [0x55, 0xAA]⟩) (block configE .initialized [] [])) = some .ok := by decide
/-- R190: a width that is no multiple of 8. -/
theorem test_exec_fb_check_width :
    eventsOf (exec (.fbCheck ⟨12, 2, .mono1bpp, [0, 0, 0]⟩) (block configE .initialized [] [])) =
      [.error ⟨.configError, 4, { reason := 6 }⟩] := by decide
/-- Program P5. -/
theorem test_exec_encode_mono :
    resultOf (exec (.encodeMono 8 2 [1, 0, 1, 0, 1, 0, 1, 0, 0, 1, 0, 1, 0, 1, 0, 1]) (block configE .initialized [] [])) =
      some (.frame ⟨8, 2, .mono1bpp, [0x55, 0xAA]⟩) := by decide
/-- Program P5. -/
theorem test_exec_decode_mono :
    resultOf (exec (.decodeMono ⟨8, 2, .mono1bpp, [0x55, 0xAA]⟩) (block configE .initialized [] [])) =
      some (.blackmap [1, 0, 1, 0, 1, 0, 1, 0, 0, 1, 0, 1, 0, 1, 0, 1]) := by decide
/-- Program P5. -/
theorem test_exec_encode_rgb565 :
    resultOf (exec (.encodeRgb565 2 1 [0xF800, 0x07E0]) (block configE .initialized [] [])) =
      some (.frame ⟨2, 1, .rgb565, [0xF8, 0x00, 0x07, 0xE0]⟩) := by decide
/-- Program P5. -/
theorem test_exec_fill_chunks :
    resultOf (exec (.fillChunks 0x07E0 5) (block configE .initialized [] [])) =
      some (.chunks [[0x07, 0xE0, 0x07, 0xE0, 0x07, 0xE0], [0x07, 0xE0, 0x07, 0xE0]]) := by decide
/-- S2. -/
theorem test_exec_window_check :
    resultOf (exec (.windowCheck 240 240 ⟨10, 20, 19, 24⟩) (block configE .initialized [] [])) = some (.count 50) ∧
      eventsOf (exec (.windowCheck 4 2 ⟨2, 0, 1, 0⟩) (block configE .initialized [] [])) = [.error ⟨.configError, 4, { reason := 3 }⟩] := by decide
/-- R230. -/
theorem test_exec_init_apply :
    eventsOf (exec (.initApply [⟨0x01, [0x03], 0, false⟩, ⟨0x04, [], 5, true⟩]) (block configE .reset [false, true] (oks 3))) =
      [.lineSet .dc false, .spiWrite [0x01] true, .lineSet .dc true, .spiWrite [0x03] true, .delay 0,
        .lineSet .dc false, .spiWrite [0x04] true, .lineGet .busy false, .delay 10000, .lineGet .busy true, .delay 5] ∧
      resultOf (exec (.initApply [⟨0x01, [0x03], 0, false⟩, ⟨0x04, [], 5, true⟩]) (block configE .reset [false, true] (oks 3))) = some .ok := by decide
/-- Program P2, events 1 to 10. -/
theorem test_exec_session_open :
    eventsOf (exec (.sessionOpen) (fresh configT [true] [false, false, false] [true] [true])) =
      [.acquire .dc 25 .output (some true), .acquire .rst 27 .output (some true), .acquire .cs 8 .output (some true),
        .opened spidev00 32000000 0 8 .msbFirst, .lineSet .rst true, .delay 1000, .lineSet .rst false, .delay 10000,
        .lineSet .rst true, .delay 120000] ∧
      resultOf (exec (.sessionOpen) (fresh configT [true] [false, false, false] [true] [true])) = some .ok := by decide
/-- Program P2, events 11 to 20. -/
theorem test_exec_initialize :
    eventsOf (exec (.initializePanel) (block configT .reset [] (oks 2))) =
      [.lineSet .cs false, .lineSet .dc false, .spiWrite [0x11] true, .lineSet .cs true, .delay 5000,
        .lineSet .cs false, .lineSet .dc false, .spiWrite [0x29] true, .lineSet .cs true, .delay 0] ∧
      resultOf (exec (.initializePanel) (block configT .reset [] (oks 2))) = some .ok := by decide
/-- R236: entry 2 fails, as in program P3. -/
theorem test_exec_initialize_fails :
    eventsOf (exec (.initializePanel) (block configE .reset [] [.ok, .ok, .ok, .fail 0])) =
      [.lineSet .dc false, .spiWrite [0x01] true, .lineSet .dc true, .spiWrite [0x03, 0x00] true, .delay 0,
        .lineSet .dc false, .spiWrite [0x06] true, .lineSet .dc true, .spiWrite [] false,
        .error ⟨.ioError, 2, { reason := 3, written := some 0, entry := some 2 }⟩] := by decide
/-- Program P1, events 27 to 41. -/
theorem test_exec_refresh :
    eventsOf (exec (.refresh white stripes) (block configE .initialized [false, false, true] (oks 5))) =
      [.lineSet .dc false, .spiWrite [0x10] true, .lineSet .dc true, .spiWrite white.bytes true,
        .lineSet .dc false, .spiWrite [0x13] true, .lineSet .dc true, .spiWrite stripes.bytes true,
        .lineSet .dc false, .spiWrite [0x12] true, .lineGet .busy false, .delay 10000, .lineGet .busy false, .delay 10000,
        .lineGet .busy true] ∧
      resultOf (exec (.refresh white stripes) (block configE .initialized [false, false, true] (oks 5))) = some .ok := by decide
/-- Program P2, events 21 to 45. -/
theorem test_exec_stream_fill :
    eventsOf (exec (.streamFill ⟨1, 0, 2, 1⟩ 0xF800) (block configT .initialized [] (oks 7))) =
      [.lineSet .cs false, .lineSet .dc false, .spiWrite [0x2A] true, .lineSet .cs true,
        .lineSet .cs false, .lineSet .dc true, .spiWrite [0x00, 0x01, 0x00, 0x02] true, .lineSet .cs true,
        .lineSet .cs false, .lineSet .dc false, .spiWrite [0x2B] true, .lineSet .cs true,
        .lineSet .cs false, .lineSet .dc true, .spiWrite [0x00, 0x00, 0x00, 0x01] true, .lineSet .cs true,
        .lineSet .cs false, .lineSet .dc false, .spiWrite [0x2C] true, .lineSet .cs true,
        .lineSet .cs false, .lineSet .dc true, .spiWrite [0xF8, 0x00, 0xF8, 0x00, 0xF8, 0x00] true,
        .spiWrite [0xF8, 0x00] true, .lineSet .cs true] ∧
      resultOf (exec (.streamFill ⟨1, 0, 2, 1⟩ 0xF800) (block configT .initialized [] (oks 7))) = some .ok := by decide
/-- S2, bounds failure in a stream. -/
theorem test_exec_stream_fill_bounds :
    eventsOf (exec (.streamFill ⟨0, 0, 4, 0⟩ 0xF800) (block configT .initialized [] [])) =
      [.error ⟨.configError, 4, { reason := 3 }⟩] := by decide
/-- R237, R238: one pixel, after the window commands. -/
theorem test_exec_stream_pixels :
    (eventsOf (exec (.streamPixels ⟨3, 1, 3, 1⟩ [0x12, 0x34]) (block configT .initialized [] (oks 6)))).drop 20 =
      [.lineSet .cs false, .lineSet .dc true, .spiWrite [0x12, 0x34] true, .lineSet .cs true] := by decide
/-- Program P1, events 42 to 48. -/
theorem test_exec_sleep :
    eventsOf (exec (.sleep) (block configE .initialized [true] (oks 3))) =
      [.lineSet .dc false, .spiWrite [0x02] true, .lineGet .busy true, .lineSet .dc false, .spiWrite [0x07] true,
        .lineSet .dc true, .spiWrite [0xA5] true] ∧
      resultOf (exec (.sleep) (block configE .initialized [true] (oks 3))) = some .ok := by decide
/-- Program P1, events 49 to 52. -/
theorem test_exec_teardown :
    ∃ t, exec .teardown (block configE .sleeping [] []) = .next t ∧ t.phase = .closed ∧ t.result = some .ok ∧
      t.trace = [.release .dc, .release .rst, .release .busy, .closed] ∧ t.transport.isOpen = false := ⟨_, rfl, rfl, rfl, rfl, rfl⟩
/-- V-D14. -/
theorem test_step_refuses : step { State.reset with input := [0x09] } = .refused .invalidDescriptor := rfl
/-- V-D6 as a table word, issued to a block just reset. -/
theorem test_fetch_word :
    ∃ t, step (State.reset.withFetchWord 40 0x1027000008) = .next t ∧ t.trace = [.delay 10000] := ⟨_, rfl, rfl⟩
/-- V-F4 and V-F5. -/
theorem test_frames :
    framesFrom configE none none [.lineSet .dc false, .spiWrite [0x2A] true, .lineSet .dc true, .spiWrite [0x00, 0x01] true,
      .lineSet .dc true, .spiWrite [0x00, 0x02] true] = some [.command 0x2A [0x00, 0x01, 0x00, 0x02]] ∧
    framesFrom configE none none [.lineSet .dc true, .spiWrite [0x55] true] = some [.orphan 0x55] := by decide
/-- R157: DC reads as granted until it is set, released or not; R309: CS is not asserted. -/
theorem test_frames_acquired :
    frames configE [.acquire .dc 25 .output (some false), .spiWrite [0x2A] true, .release .dc, .spiWrite [0x2B] false] =
      some [.command 0x2A [], .command 0x2B []] ∧
    frames (withMode .perCall) [.acquire .dc 25 .output (some true), .acquire .cs 8 .output (some true), .spiWrite [0x2A] true] =
      none := by decide
/-- An example of R104, and a list without its comma. -/
theorem test_assemble :
    assemble "stream_fill (0, 0, 1, 1), 0xF800".toList = some (.streamFill ⟨0, 0, 1, 1⟩ 0xF800) ∧
      assemble "send_data [1 2]".toList = none := by decide
/-- R105, and a bare 0x. -/
theorem test_assemble_cmd :
    assembleLine "cmd 0x2A, [0, 1]".toList = some [.sendCommand 0x2A, .sendData [0, 1]] ∧
      assembleLine "cmd 0x12, []".toList = some [.sendCommand 0x12] ∧ assemble "send_command 0x".toList = none := by decide
/-! ## Witnesses: for each statement a case that meets its hypotheses, one for each clause -/

/-- Nothing but BUSY is needed to wait. -/
abbrev waiting (busy : List Bit) : State := block configE .reset busy []

/-- An init table of an entry with parameters and an entry with a busy-wait that reads busy once (R230). -/
def runsE : List (Entry × Nat) := [(⟨0x01, [0x03], 0, false⟩, 0), (⟨0x04, [], 5, true⟩, 1)]

/-- Configuration E's own table, as program P1 runs it. -/
def runsP1 : List (Entry × Nat) :=
  [(⟨0x01, [0x03, 0x00], 0, false⟩, 0), (⟨0x06, [0x17], 0, false⟩, 0), (⟨0x04, [], 0, true⟩, 1)]

theorem witness_DecodeOfEncode :
    Instr.wf (.delay 4294967295) = true ∧ Instr.wf (.sendData []) = true ∧ Instr.wf (.streamFill ⟨65535, 0, 65535, 0⟩ 0) = true := by decide
theorem witness_EncodeOfDecode :
    decode [0x08, 0xFF, 0xFF, 0xFF, 0xFF, 0x37] = some (.delay 4294967295, [0x37]) := by decide
/-- The reserved OPSELs next to the table's ends. -/
theorem witness_InvalidDescriptorRefused_opsel :
    (∀ i : Instr, i.opsel ≠ (0x00 : Byte).toNat) ∧ (∀ i : Instr, i.opsel ≠ (0x09 : Byte).toNat) ∧
      (∀ i : Instr, i.opsel ≠ (0x38 : Byte).toNat) ∧ (∀ i : Instr, i.opsel ≠ (0xFF : Byte).toNat) := by
  refine ⟨?_, ?_, ?_, ?_⟩ <;> (intro i; cases i <;> simp [Instr.opsel])
theorem witness_InvalidDescriptorRefused_role :
    4 ≤ (0x04 : Byte).toNat ∧ 4 ≤ (0xFF : Byte).toNat := by decide
theorem witness_InvalidDescriptorRefused_short :
    Instr.wf (.lineGet .busy) = true ∧ ([] : List Byte) <+: encode (.lineGet .busy) ∧ [] ≠ encode (.lineGet .busy) ∧
      [0x03] <+: encode (.lineGet .busy) ∧ [0x03] ≠ encode (.lineGet .busy) := by decide
theorem witness_InvalidDescriptorRefused_step :
    ({ State.reset with input := [0x09] } : State).input ≠ [] ∧ decode ({ State.reset with input := [0x09] } : State).input = none := by decide
theorem witness_StepRunsDecoded :
    decode ({ State.reset with input := [0x10, 0x2A, 0x37] } : State).input = some (.sendCommand 0x2A, [0x37]) ∧
      State.reset.input = [] := by decide
theorem witness_CreationState :
    buildLegal build95 = true ∧ buildLegal { build95 with maxWriteBytes := some 2 } = true ∧ cfgLegal configE = true ∧
      cfgLegal configT = true ∧ cfgLegal { configE with panelWidth := 12 } = false := by decide
/-- V-L1. -/
theorem witness_LineAcquireGrants :
    gateOpen (.lineAcquire gpiochip0 specsE) (fresh configE [true] [false, false, false] [] []) ∧
      specsE.Pairwise (fun a b => a.role ≠ b.role ∧ a.offset ≠ b.offset) ∧
      (∀ sp ∈ specsE, sp.direction = fixedDirection sp.role ∧ rolePresent configE sp.role = true ∧
        ((fresh configE [true] [false, false, false] [] []).line sp.role).acquired = false) := by
  unfold gateOpen; decide
/-- V-L4. -/
theorem witness_LineAcquireAllOrNothing :
    gateOpen (.lineAcquire gpiochip0 [⟨.cs, 8, .output, true⟩]) (fresh configE [] [] [] []) ∧
      ∃ t, exec (.lineAcquire gpiochip0 [⟨.cs, 8, .output, true⟩]) (fresh configE [] [] [] []) = .next t ∧
        t.result = some (.error ⟨.resourceError, 1, { reason := 4, role := some .cs }⟩) := ⟨⟨rfl, rfl⟩, _, rfl, rfl⟩
/-- V-L2, after a line that is none of the pair. -/
theorem witness_LineAcquireReasons_duplicate :
    gateOpen (.lineAcquire gpiochip0 []) (fresh configE [] [] [] []) ∧
      ([⟨.busy, 24, .input, false⟩] : List LineSpec).Pairwise (fun x y => x.role ≠ y.role ∧ x.offset ≠ y.offset) ∧
      (∀ x ∈ ([⟨.busy, 24, .input, false⟩] : List LineSpec),
        ∀ y ∈ ([⟨.dc, 25, .output, true⟩, ⟨.rst, 25, .output, true⟩] : List LineSpec),
        x.role ≠ y.role ∧ x.offset ≠ y.offset) := by
  unfold gateOpen; decide
/-- V-L3 and V-L4, after a line that could be granted. -/
theorem witness_LineAcquireReasons_spec :
    gateOpen (.lineAcquire gpiochip0 []) (fresh configE [] [] [] []) ∧
      (∀ x ∈ ([⟨.dc, 25, .output, true⟩] : List LineSpec), x.direction = fixedDirection x.role ∧
        rolePresent configE x.role = true ∧ ((fresh configE [] [] [] []).line x.role).acquired = false) ∧
      (⟨.busy, 24, .output, false⟩ : LineSpec).direction ≠ fixedDirection .busy ∧ rolePresent configE .cs = false := by
  unfold gateOpen; decide
/-- V-L8. -/
theorem witness_LineAcquireReasons_owned :
    gateOpen (.lineAcquire gpiochip0 []) (block configE .uninitialized [] []) ∧
      rolePresent configE .dc = true ∧ ((block configE .uninitialized [] []).line .dc).acquired = true := by
  unfold gateOpen; decide
/-- V-L6 and V-L5. -/
theorem witness_LineAcquireReasons_draws :
    gateOpen (.lineAcquire gpiochip0 []) (fresh configE [false] [] [] []) ∧
      gateOpen (.lineAcquire gpiochip0 []) (fresh configE [true] [false, true] [] []) ∧
      (∀ x ∈ specsE, x.direction = fixedDirection x.role ∧ rolePresent configE x.role = true ∧
        ((fresh configE [true] [false, true] [] []).line x.role).acquired = false ∧
        ((fresh configE [false] [] [] []).line x.role).acquired = false) ∧
      (fresh configE [false] [] [] []).env.chipOpens = [false] ∧ (fresh configE [true] [false, true] [] []).env.chipOpens = [true] ∧
      (fresh configE [true] [false, true] [] []).env.offsetOwned = List.replicate 1 false ++ true :: [] := by
  unfold gateOpen; decide
/-- The three clauses: DC held, CS not held, BUSY an input. -/
theorem witness_LineSetDrives :
    gateOpen (.lineSet .dc true) (block configE .reset [] []) ∧ ((block configE .reset [] []).line .dc).acquired = true ∧
      ((block configE .reset [] []).line .dc).direction = .output ∧ ((block configE .reset [] []).line .cs).acquired = false ∧
      ((block configE .reset [] []).line .busy).acquired = true ∧
      ((block configE .reset [] []).line .busy).direction = .input := by
  unfold gateOpen; decide
theorem witness_LineGetSamples :
    gateOpen (.lineGet .busy) (block configE .reset [true] []) ∧ (block configE .reset [true] []).env.busy = true :: [] ∧
      ((block configE .reset [true] []).line .busy).direction = .input ∧
      ((block configE .reset [true] []).line .cs).acquired = false ∧
      ((block configE .reset [true] []).line .dc).direction = .output := by
  unfold gateOpen; decide
theorem witness_LineReleaseReleasesAll :
    gateOpen .lineRelease (block configE .refreshing [] []) := ⟨rfl, rfl⟩
/-- At the largest mode and the smallest clock. -/
theorem witness_SpiOpenConfigures :
    gateOpen (.spiOpen spidev00 1 3 8) (fresh configE [] [] [true] [true]) ∧
      (fresh configE [] [] [true] [true]).transport.isOpen = false ∧
      (fresh configE [] [] [true] [true]).env.deviceOpens = true :: [] ∧
      (fresh configE [] [] [true] [true]).env.deviceAccepts = true :: [] := ⟨⟨rfl, rfl⟩, rfl, rfl, rfl⟩
/-- V-L16, V-L20, V-L17 to V-L19, and a device that refuses. -/
theorem witness_SpiOpenFailures :
    gateOpen (.spiOpen spidev00 0 4 9) (block configE .uninitialized [] []) ∧
      gateOpen (.spiOpen spidev00 0 4 9) (fresh configE [] [] [false] []) ∧
      gateOpen (.spiOpen spidev00 0 3 8) (fresh configE [] [] [true] [false]) ∧
      (fresh configE [] [] [false] []).transport.isOpen = false ∧ (fresh configE [] [] [true] [false]).transport.isOpen = false ∧
      (block configE .uninitialized [] []).transport.isOpen = true ∧
      (fresh configE [] [] [false] []).env.deviceOpens = false :: [] ∧
      (fresh configE [] [] [true] [false]).env.deviceOpens = true :: [] ∧
      (fresh configE [] [] [true] [false]).env.deviceAccepts = false :: [] := by
  unfold gateOpen; decide
theorem witness_SpiWriteSends :
    gateOpen (.spiWrite [0xAA]) (block configE .reset [] (oks 1)) ∧ (block configE .reset [] (oks 1)).transport.isOpen = true ∧
      (block configE .reset [] (oks 1)).env.writes = .ok :: [] := ⟨⟨rfl, rfl⟩, rfl, rfl⟩
/-- V-L24, V-L25, V-L21. -/
theorem witness_SpiWriteFailures :
    gateOpen (.spiWrite [0xAA]) (block configE .reset [] [.fail 0]) ∧
      (block configE .reset [] [.fail 0]).transport.isOpen = true ∧
      (block configE .reset [] [.fail 0]).env.writes = .fail 0 :: [] ∧ 0 < [0xAA].length ∧
      gateOpen (.spiWrite []) (fresh configE [] [] [] []) ∧ (fresh configE [] [] [] []).transport.isOpen = false := by
  unfold gateOpen; decide
theorem witness_SpiCloseCloses :
    gateOpen .spiClose (block configE .reset [] []) := ⟨rfl, rfl⟩
theorem witness_DelayWaits :
    gateOpen (.delay 0) (block configE .reset [] []) := ⟨rfl, rfl⟩
theorem witness_SendCommandFrames :
    gateOpen (.sendCommand 0x2A) (block (withMode .perByte) .reset [] (oks 1)) ∧
      framerReady (block (withMode .perByte) .reset [] (oks 1)) ∧ writesOk (block (withMode .perByte) .reset [] (oks 1)) 1 := by
  unfold gateOpen framerReady held writesOk; decide
theorem witness_SendDataFrames :
    gateOpen (.sendData [0x01, 0x02]) (block (withMode .perByte) .reset [] (oks 2)) ∧
      framerReady (block (withMode .perByte) .reset [] (oks 2)) ∧
      writesOk (block (withMode .perByte) .reset [] (oks 2)) (framedWrites (withMode .perByte) [0x01, 0x02]) := by
  unfold gateOpen framerReady held writesOk; decide
theorem witness_OneDcSetPerCall :
    ∃ t, t.result = some .ok ∧ exec (.sendCommand 0x2A) (block configT .reset [] (oks 1)) = .next t := ⟨_, rfl, rfl⟩
theorem witness_DcSetNextToWrite :
    ∃ t, t.result = some .ok ∧ exec (.sendData [0x01, 0x02]) (block (withMode .perByte) .reset [] (oks 2)) = .next t := ⟨_, rfl, rfl⟩
theorem witness_FramerFailureLeavesLines_command :
    isFramerCall configT (.sendCommand 0x2A) configT.dcCmdLevel [0x2A] ∧
      gateOpen (.sendCommand 0x2A) (block configT .reset [] [.fail 0]) ∧ framerReady (block configT .reset [] [.fail 0]) ∧
      0 < framedWrites configT [0x2A] ∧ 0 < framedWriteLength configT [0x2A] ∧
      (block configT .reset [] [.fail 0]).env.writes = List.replicate 0 .ok ++ .fail 0 :: [] := by
  refine ⟨Or.inl ⟨0x2A, rfl, rfl, rfl⟩, ?_⟩
  unfold gateOpen framerReady held; decide
/-- V-F7. -/
theorem witness_FramerFailureLeavesLines_data :
    isFramerCall configT (.sendData [0x01, 0x02]) (!configT.dcCmdLevel) [0x01, 0x02] ∧
      gateOpen (.sendData [0x01, 0x02]) (block configT .reset [] [.fail 1]) ∧ framerReady (block configT .reset [] [.fail 1]) ∧
      0 < framedWrites configT [0x01, 0x02] ∧ 1 < framedWriteLength configT [0x01, 0x02] ∧
      (block configT .reset [] [.fail 1]).env.writes = List.replicate 0 .ok ++ .fail 1 :: [] := by
  refine ⟨Or.inr ⟨rfl, by decide, rfl⟩, ?_⟩
  unfold gateOpen framerReady held; decide
/-- The last byte. -/
theorem witness_FramerFailureLeavesLines_perByte :
    isFramerCall (withMode .perByte) (.sendData [0x01, 0x02]) (!(withMode .perByte).dcCmdLevel) [0x01, 0x02] ∧
      gateOpen (.sendData [0x01, 0x02]) (block (withMode .perByte) .reset [] [.ok, .fail 0]) ∧
      framerReady (block (withMode .perByte) .reset [] [.ok, .fail 0]) ∧
      1 < framedWrites (withMode .perByte) [0x01, 0x02] ∧ 0 < framedWriteLength (withMode .perByte) [0x01, 0x02] ∧
      (block (withMode .perByte) .reset [] [.ok, .fail 0]).env.writes = List.replicate 1 .ok ++ .fail 0 :: [] := by
  refine ⟨Or.inr ⟨rfl, by decide, rfl⟩, ?_⟩
  unfold gateOpen framerReady held; decide
/-- A block that holds CS and not DC. -/
def withoutDc : State :=
  { block (withMode .perCall) .reset [] [] with
    lines := { (block (withMode .perCall) .reset [] []).lines with dc := createdLine (withMode .perCall) .dc } }

theorem witness_FramerFailureLeavesLines_closed :
    gateOpen (.sendCommand 0x2A) { block (withMode .perByte) .reset [] [] with transport := ⟨false, [], 0, 0, 0, .msbFirst⟩ } ∧
      held (block (withMode .perByte) .reset [] []) .dc ∧ held (block (withMode .perByte) .reset [] []) .cs := by
  unfold gateOpen held; decide
theorem witness_FramerFailureLeavesLines_noLine :
    gateOpen (.sendCommand 0x2A) (fresh (withMode .none) [] [] [] []) ∧ (withMode .none).csMode = .none ∧
      ((fresh (withMode .none) [] [] [] []).line .dc).acquired = false ∧ gateOpen (.sendCommand 0x2A) (fresh (withMode .perCall) [] [] [] []) ∧
      (withMode .perCall).csMode ≠ .none ∧ ((fresh (withMode .perCall) [] [] [] []).line .cs).acquired = false := by
  unfold gateOpen; decide
theorem witness_FramerFailureLeavesLines_noDc :
    gateOpen (.sendCommand 0x2A) withoutDc ∧ withoutDc.cfg.csMode ≠ .none ∧ held withoutDc .cs ∧
      (withoutDc.line .dc).acquired = false := by
  unfold gateOpen held; decide
theorem witness_FrameLaw :
    ∃ t, runOps ([((0x2A : Byte), [(0x00 : Byte), 0x01]), (0x29, [])].flatMap fun c => expandCmd c.1 c.2)
      (block (withMode .perByte) .reset [] (oks 4)) = some t := ⟨_, rfl⟩
/-- S4, the largest k and the smallest. -/
theorem witness_WaitReadyReturnsReady :
    gateOpen (.waitReady .activeLow 100 5000 []) (waiting (List.replicate 50 false ++ [true])) ∧
      held (waiting (List.replicate 50 false ++ [true])) .busy ∧
      busyAnswers (busyLevel .activeLow) 50 <+: (waiting (List.replicate 50 false ++ [true])).env.busy ∧
      waitInTime build95 100 5000 50 ∧ waitInTime build95 100 0 0 := by
  unfold gateOpen held waitInTime; decide
/-- S3. -/
theorem witness_StuckBusyTimesOut :
    gateOpen (.waitReady .activeHigh 100 250 []) (waiting [true, true, true, true]) ∧
      held (waiting [true, true, true, true]) .busy ∧ build95.timing = .exact ∧ build95.firstPollDelay = 0 ∧
      3 = (250 + 100 - 1) / 100 ∧ List.replicate 4 (busyLevel .activeHigh) <+: (waiting [true, true, true, true]).env.busy := by
  unfold gateOpen held; decide
theorem witness_WaitReadyBounded :
    gateOpen (.waitReady .activeLow 1 0 []) (waiting []) ∧ held (waiting []) .busy := by
  unfold gateOpen held; decide
/-- Interval 0, and a configuration with no busy line. -/
theorem witness_WaitReadyRejects :
    gateOpen (.waitReady .activeLow 0 0 []) (block configT .reset [] []) ∧
      ((block configT .reset [] []).line .busy).acquired = false ∧ build95.firstPollDelay = 0 := by
  unfold gateOpen; decide
/-- Dimensions 0 and 65536, a width of 12, and right and wrong lengths of both encodings. -/
theorem witness_FbCheckDecides :
    gateOpen (.fbCheck ⟨0, 1, .rgb565, []⟩) (block configE .refreshing [] []) ∧
      (65535 < (65536 : Nat)) ∧ (12 : Nat) % 8 ≠ 0 ∧ [(0x55 : Byte), 0xAA].length = 8 * 2 / 8 ∧
      ([] : List Byte).length ≠ 8 * 2 / 8 ∧ [(0xF8 : Byte), 0x00].length = 2 * (1 * 1) ∧
      [(0xF8 : Byte)].length ≠ 2 * (1 * 1) := by
  unfold gateOpen; decide
theorem witness_EncodeMonoPacks :
    gateOpen (.encodeMono 8 1 (List.replicate 8 1)) (block configE .reset [] []) ∧ (8 : Nat) % 8 = 0 ∧
      (List.replicate 8 (1 : Byte)).length = 8 * 1 ∧ (65535 : Nat) % 8 ≠ 0 ∧ (List.replicate 7 (1 : Byte)).length ≠ 8 * 1 := by
  unfold gateOpen; decide
theorem witness_EncodeMonoPassesFbCheck :
    ∃ t, exec (.encodeMono 8 1 [1, 0, 1, 0, 1, 0, 1, 0]) (block configE .reset [] []) = .next t ∧
      t.result = some (.frame ⟨8, 1, .mono1bpp, [0x55]⟩) := ⟨_, rfl, by decide⟩
theorem witness_DecodeMonoReads :
    gateOpen (.decodeMono ⟨8, 1, .mono1bpp, [0x55]⟩) (block configE .reset [] []) ∧
      fbCheck ⟨8, 1, .mono1bpp, [0x55]⟩ = .ok () ∧ fbCheck ⟨1, 1, .rgb565, [0, 0]⟩ = .ok () ∧
      fbCheck ⟨0, 1, .mono1bpp, []⟩ = .error ⟨.configError, 4, { reason := 2 }⟩ := ⟨⟨rfl, rfl⟩, rfl, rfl, rfl⟩
theorem witness_MonoRoundTrip :
    (8 ≤ (65528 : Nat) ∧ (65528 : Nat) ≤ 65535 ∧ (65528 : Nat) % 8 = 0) ∧ fbCheck ⟨8, 2, .mono1bpp, [0x55, 0xAA]⟩ = .ok () := ⟨by decide, rfl⟩
theorem witness_EncodeRgb565Serialises :
    gateOpen (.encodeRgb565 2 1 [0xF800, 0x07E0]) (block configT .reset [] []) ∧
      [(0xF800 : U16), 0x07E0].length = 2 * 1 ∧ ([] : List U16).length ≠ 2 * 1 := by
  unfold gateOpen; decide
theorem witness_FillChunksCover :
    gateOpen (.fillChunks 0x07E0 0) (block configT .reset [] []) ∧ 1 ≤ (block configT .reset [] []).build.chunkPixels := by
  unfold gateOpen; decide
/-- S2: the last pixel, and x1 = width. -/
theorem witness_WindowCheckCounts :
    gateOpen (.windowCheck 4 2 ⟨3, 1, 3, 1⟩) (block configT .reset [] []) ∧ (3 : Nat) < 4 ∧ (1 : Nat) < 2 ∧ 4 ≤ (4 : Nat) := by
  unfold gateOpen; decide
theorem witness_InitApplyReplays :
    gateOpen (.initApply (runsE.map Prod.fst)) (block configE .reset [false, true] (oks 3)) ∧
      framerReady (block configE .reset [false, true] (oks 3)) ∧
      (∀ r ∈ runsE, entryRuns (block configE .reset [false, true] (oks 3)) r) ∧
      writesOk (block configE .reset [false, true] (oks 3)) ((runsE.map (entryWrites configE)).sum) ∧
      runsE.flatMap (entryBusy configE) <+: (block configE .reset [false, true] (oks 3)).env.busy := by
  unfold gateOpen framerReady entryRuns held writesOk waitInTime; decide
theorem witness_InitApplyStopsAtFailingEntry :
    (∃ t e, exec (.initApply [⟨0x29, [], 0, false⟩, ⟨0x11, [], 0, false⟩]) (block configT .reset [] [.ok, .fail 0]) = .next t ∧
        t.result = some (.error e)) ∧
      256 ≤ (⟨256, [], 0, false⟩ : Entry).opcode ∧ ∃ p ∈ (⟨0, [0, 256], 0, false⟩ : Entry).params, 256 ≤ p := ⟨⟨_, _, rfl, rfl⟩, by decide, by decide⟩
/-- INITIALIZE, both clauses. -/
theorem witness_InitApplyStopsAtFailingEntry_initialize :
    gateOpen .initializePanel (block configT .reset [] [.fail 0]) ∧
      (∃ t e, exec .initializePanel (block configT .reset [] [.fail 0]) = .next t ∧ t.result = some (.error e)) ∧
      gateOpen .initializePanel (block { configT with initTable := [⟨256, [], 0, false⟩] } .reset [] []) ∧
      (block { configT with initTable := [⟨256, [], 0, false⟩] } .reset [] []).cfg.initTable = ⟨256, [], 0, false⟩ :: [] := ⟨⟨rfl, rfl⟩, ⟨_, _, rfl, rfl⟩, ⟨rfl, rfl⟩, rfl⟩
/-- Program P2. -/
theorem witness_SessionOpenCompletes :
    gateOpen .sessionOpen (fresh configT [true] [false, false, false] [true] [true]) ∧
      (∀ r ∈ sessionRoles configT, ((fresh configT [true] [false, false, false] [true] [true]).line r).acquired = false) ∧
      (sessionRoles configT).Pairwise (fun a b => cfgOffset configT a ≠ cfgOffset configT b) ∧
      configT.spiMode ≤ 3 ∧ configT.spiBitsPerWord = 8 ∧ 1 ≤ configT.spiClockHz ∧
      (fresh configT [true] [false, false, false] [true] [true]).env.offsetOwned =
        List.replicate (sessionRoles configT).length false ++ [] := by
  unfold gateOpen; decide
/-- A configuration E whose RST line stands at DC's offset. -/
def configClash : Cfg := { configE with offsetRst := configE.offsetDc }

/-- A block of configuration E just created, that holds its RST line only. -/
def withRst : State :=
  { fresh configE [] [] [] [] with
    lines := { (fresh configE [] [] [] []).lines with rst := heldLine configE .rst } }

/-- A block of configuration E just created, whose transport is open. -/
def withOpen : State :=
  { fresh configE [true] [false, false, false] [] [] with
    transport := (block configE .uninitialized [] []).transport }

/-- V-S18, and R307. -/
theorem witness_SessionOpenFailures_any :
    gateOpen .sessionOpen (fresh configE [true] [false, false, true] [] []) ∧
      (∃ t e, exec .sessionOpen (fresh configE [true] [false, false, true] [] []) = .next t ∧ t.result = some (.error e)) ∧
      (∃ t e, exec .sessionOpen withOpen = .next t ∧ t.result = some (.error e)) := ⟨⟨rfl, rfl⟩, ⟨_, _, rfl, rfl⟩, _, _, rfl, rfl⟩
theorem witness_SessionOpenFailures_clash :
    gateOpen .sessionOpen (fresh configClash [] [] [] []) ∧
      ¬ (sessionRoles configClash).Pairwise (fun a b => cfgOffset configClash a ≠ cfgOffset configClash b) := by
  unfold gateOpen; decide
theorem witness_SessionOpenFailures_held :
    gateOpen .sessionOpen withRst ∧ sessionRoles withRst.cfg = [.dc] ++ .rst :: [.busy] ∧
      (∀ q ∈ [Role.dc], (withRst.line q).acquired = false) ∧ (withRst.line .rst).acquired = true ∧
      (sessionRoles configE).Pairwise (fun a b => cfgOffset configE a ≠ cfgOffset configE b) := by
  unfold gateOpen; decide
/-- The chip, and V-S18. -/
theorem witness_SessionOpenFailures_draws :
    gateOpen .sessionOpen (fresh configE [false] [] [] []) ∧
      gateOpen .sessionOpen (fresh configE [true] [false, false, true] [] []) ∧
      (∀ r ∈ sessionRoles configE, ((fresh configE [false] [] [] []).line r).acquired = false ∧
        ((fresh configE [true] [false, false, true] [] []).line r).acquired = false) ∧
      (sessionRoles configE).Pairwise (fun a b => cfgOffset configE a ≠ cfgOffset configE b) ∧
      (fresh configE [false] [] [] []).env.chipOpens = false :: [] ∧
      (fresh configE [true] [false, false, true] [] []).env.chipOpens = true :: [] ∧
      sessionRoles configE = [.dc, .rst] ++ .busy :: [] ∧
      (fresh configE [true] [false, false, true] [] []).env.offsetOwned = List.replicate [Role.dc, .rst].length false ++ true :: [] := by
  unfold gateOpen; decide
/-- R307, V-S19, and a device that refuses the configuration. -/
theorem witness_SessionOpenFailures_transport :
    gateOpen .sessionOpen withOpen ∧ withOpen.transport.isOpen = true ∧
      gateOpen .sessionOpen (fresh configE [true] [false, false, false] [false] []) ∧
      gateOpen .sessionOpen (fresh configE [true] [false, false, false] [true] [false]) ∧
      (∀ r ∈ sessionRoles configE, (withOpen.line r).acquired = false ∧
        ((fresh configE [true] [false, false, false] [false] []).line r).acquired = false ∧
        ((fresh configE [true] [false, false, false] [true] [false]).line r).acquired = false) ∧
      (sessionRoles configE).Pairwise (fun a b => cfgOffset configE a ≠ cfgOffset configE b) ∧
      withOpen.env.chipOpens = true :: [] ∧
      withOpen.env.offsetOwned = List.replicate (sessionRoles configE).length false ++ [] ∧
      (fresh configE [true] [false, false, false] [false] []).transport.isOpen = false ∧
      (fresh configE [true] [false, false, false] [false] []).env.deviceOpens = false :: [] ∧
      (fresh configE [true] [false, false, false] [true] [false]).env.deviceOpens = true :: [] ∧
      (fresh configE [true] [false, false, false] [true] [false]).env.deviceAccepts = false :: [] := by
  unfold gateOpen; decide
/-- Configurations no block is created from (R34), which the statement covers too. -/
theorem witness_SessionOpenFailures_illegal :
    gateOpen .sessionOpen (fresh { configE with spiMode := 4 } [true] [false, false, false] [true] []) ∧
      3 < ({ configE with spiMode := 4 } : Cfg).spiMode ∧ ({ configE with spiClockHz := 0 } : Cfg).spiClockHz = 0 ∧
      ({ configE with spiBitsPerWord := 9 } : Cfg).spiBitsPerWord ≠ 8 := by
  unfold gateOpen; decide
/-- Program P1. -/
theorem witness_InitializeCompletes :
    gateOpen .initializePanel (block configE .reset [false, true] (oks 5)) ∧ runsP1.map Prod.fst = configE.initTable ∧
      framerReady (block configE .reset [false, true] (oks 5)) ∧
      (∀ r ∈ runsP1, entryRuns (block configE .reset [false, true] (oks 5)) r) ∧
      writesOk (block configE .reset [false, true] (oks 5)) ((runsP1.map (entryWrites configE)).sum) ∧
      runsP1.flatMap (entryBusy configE) <+: (block configE .reset [false, true] (oks 5)).env.busy := by
  unfold gateOpen framerReady entryRuns held writesOk waitInTime; decide
/-- Program P1. -/
theorem witness_RefreshCompletes :
    gateOpen (.refresh white stripes) (block configE .initialized [false, false, true] (oks 5)) ∧
      frameFits configE white ∧ frameFits configE stripes ∧
      framerReady (block configE .initialized [false, false, true] (oks 5)) ∧
      held (block configE .initialized [false, false, true] (oks 5)) .busy ∧
      writesOk (block configE .initialized [false, false, true] (oks 5))
        (cmdWrites configE white.bytes + cmdWrites configE stripes.bytes + 1) ∧
      busyAnswers (busyLevel configE.busyPolarity) 2 <+: (block configE .initialized [false, false, true] (oks 5)).env.busy ∧
      waitInTime build95 configE.pollInterval configE.opTimeout 2 := by
  unfold gateOpen framerReady frameFits held writesOk waitInTime white stripes; decide
/-- Both reasons, and dimensions looked at before the width. -/
theorem witness_RefreshRejects :
    gateOpen (.refresh white white) (block configT .initialized [] []) ∧ configT.panelKind = .tft ∧ configE.panelKind = .ePaper ∧
      gateOpen (.refresh white white) (block configE .initialized [] []) ∧ frameFits configE white ∧
      ¬ frameFits configE ⟨16, 32, .mono1bpp, List.replicate 64 0⟩ ∧ ¬ frameFits configE ⟨12, 16, .mono1bpp, List.replicate 24 0⟩ ∧
      frameReason ⟨16, 32, .mono1bpp, List.replicate 64 0⟩ = 2 ∧ frameReason ⟨12, 16, .mono1bpp, List.replicate 24 0⟩ = 6 ∧
      frameReason ⟨12, 0, .mono1bpp, []⟩ = 2 := by
  unfold gateOpen frameFits white; decide
theorem witness_RefreshTimesOut :
    gateOpen (.refresh white white) (block { configE with opTimeout := 10000 } .initialized [false, false] (oks 5)) ∧
      1 = (10000 + 10000 - 1) / 10000 ∧
      List.replicate 2 (busyLevel configE.busyPolarity) <+:
        (block { configE with opTimeout := 10000 } .initialized [false, false] (oks 5)).env.busy ∧
      framerReady (block { configE with opTimeout := 10000 } .initialized [false, false] (oks 5)) ∧
      held (block { configE with opTimeout := 10000 } .initialized [false, false] (oks 5)) .busy ∧
      frameFits { configE with opTimeout := 10000 } white ∧
      writesOk (block { configE with opTimeout := 10000 } .initialized [false, false] (oks 5))
        (cmdWrites configE white.bytes + cmdWrites configE white.bytes + 1) := by
  unfold gateOpen framerReady held frameFits writesOk white; decide
theorem witness_StreamPixelsCompletes :
    gateOpen (.streamPixels ⟨1, 0, 2, 1⟩ (List.replicate 8 0xF8)) (block configT .initialized [] (oks 6)) ∧
      windowValid ⟨1, 0, 2, 1⟩ configT.panelWidth configT.panelHeight = true ∧
      (List.replicate 8 (0xF8 : Byte)).length = 2 * windowCount ⟨1, 0, 2, 1⟩ ∧
      framerReady (block configT .initialized [] (oks 6)) ∧
      writesOk (block configT .initialized [] (oks 6)) (windowWrites configT + 1) ∧ buildLegal build95 = true ∧
      configT.panelKind = .tft := by
  unfold gateOpen framerReady held writesOk; decide
/-- Program P2. -/
theorem witness_StreamFillCompletes :
    gateOpen (.streamFill ⟨1, 0, 2, 1⟩ 0xF800) (block configT .initialized [] (oks 7)) ∧
      windowValid ⟨1, 0, 2, 1⟩ configT.panelWidth configT.panelHeight = true ∧
      (fillChunks build95.chunkPixels 0xF800 (windowCount ⟨1, 0, 2, 1⟩)).flatMap (splitPieces build95.maxWriteBytes) =
        [[0xF8, 0x00, 0xF8, 0x00, 0xF8, 0x00], [0xF8, 0x00]] ∧
      framerReady (block configT .initialized [] (oks 7)) ∧
      writesOk (block configT .initialized [] (oks 7)) (windowWrites configT + 2) := by
  unfold gateOpen framerReady held writesOk; decide
/-- The only write of the pixels fails. -/
theorem witness_StreamPixelsCompletes_write :
    gateOpen (.streamPixels ⟨1, 0, 2, 1⟩ (List.replicate 8 0xF8)) (block configT .initialized [] (oks 5 ++ [.fail 7])) ∧
      framerReady (block configT .initialized [] (oks 5 ++ [.fail 7])) ∧
      splitPieces build95.maxWriteBytes (List.replicate 8 0xF8) = [] ++ List.replicate 8 0xF8 :: [] ∧
      7 < (List.replicate 8 (0xF8 : Byte)).length ∧
      (block configT .initialized [] (oks 5 ++ [.fail 7])).env.writes = List.replicate (windowWrites configT + 0) .ok ++ .fail 7 :: [] := by
  unfold gateOpen framerReady held; decide
/-- The first write fails; CS and DC were set before it. -/
theorem witness_StreamPixelsCompletes_command :
    ∃ e u, windowSet ⟨1, 0, 2, 1⟩ { block configT .initialized [] [.fail 0] with phase := .streaming } = .err e u ∧
      u.trace ≠ (block configT .initialized [] [.fail 0]).trace := ⟨_, _, rfl, by decide⟩
/-- The second write of the fill fails, with no byte. -/
theorem witness_StreamFillCompletes_write :
    gateOpen (.streamFill ⟨1, 0, 2, 1⟩ 0xF800) (block configT .initialized [] (oks 6 ++ [.fail 0])) ∧
      framerReady (block configT .initialized [] (oks 6 ++ [.fail 0])) ∧
      (fillChunks build95.chunkPixels 0xF800 (windowCount ⟨1, 0, 2, 1⟩)).flatMap (splitPieces build95.maxWriteBytes) =
        [[0xF8, 0x00, 0xF8, 0x00, 0xF8, 0x00]] ++ [0xF8, 0x00] :: [] ∧
      (block configT .initialized [] (oks 6 ++ [.fail 0])).env.writes = List.replicate (windowWrites configT + 1) .ok ++ .fail 0 :: [] := by
  unfold gateOpen framerReady held; decide
/-- No line is held: nothing is appended before the error. -/
theorem witness_StreamFillCompletes_command :
    ∃ e u, windowSet ⟨1, 0, 2, 1⟩ { fresh configT [] [] [] [] with phase := .streaming } = .err e u ∧
      u.trace = (fresh configT [] [] [] []).trace := ⟨_, _, rfl, rfl⟩
theorem witness_FillLooksLikePixels :
    ∃ t u, exec (.streamFill ⟨3, 1, 3, 1⟩ 0x1234) (block configT .initialized [] (oks 6)) = .next t ∧ t.result = some .ok ∧
      [0x12, 0x34] = (List.replicate (windowCount ⟨3, 1, 3, 1⟩) (be16 0x1234)).flatten ∧
      exec (.streamPixels ⟨3, 1, 3, 1⟩ [0x12, 0x34]) (block configT .initialized [] (oks 6)) = .next u ∧
      u.result = some .ok := ⟨_, _, rfl, rfl, by decide, rfl, rfl⟩
theorem witness_StreamRejects :
    gateOpen (.streamFill ⟨0, 0, 4, 0⟩ 0xF800) (block configT .initialized [] []) ∧ configE.panelKind = .ePaper ∧
      windowValid ⟨0, 0, 4, 0⟩ configT.panelWidth configT.panelHeight = false ∧
      windowValid ⟨0, 0, 3, 1⟩ configT.panelWidth configT.panelHeight = true ∧
      ([0] : List Byte).length ≠ 2 * windowCount ⟨0, 0, 3, 1⟩ := by
  unfold gateOpen; decide
/-- With a busy line and without. -/
theorem witness_SleepCompletes :
    gateOpen .sleep (block configE .initialized [true] (oks 3)) ∧ framerReady (block configE .initialized [true] (oks 3)) ∧
      writesOk (block configE .initialized [true] (oks 3)) (1 + cmdWrites configE configE.deepSleepParams) ∧
      held (block configE .initialized [true] (oks 3)) .busy ∧
      busyAnswers (busyLevel configE.busyPolarity) 0 <+: (block configE .initialized [true] (oks 3)).env.busy ∧
      waitInTime build95 configE.pollInterval configE.opTimeout 0 ∧
      gateOpen .sleep (block configT .initialized [] (oks 2)) ∧ framerReady (block configT .initialized [] (oks 2)) ∧
      writesOk (block configT .initialized [] (oks 2)) (1 + cmdWrites configT configT.deepSleepParams) ∧
      configT.busyPresent = false := by
  unfold gateOpen framerReady held writesOk waitInTime; decide
theorem witness_TeardownReleasesAll :
    (block configE .closed [] []).phase = .closed ∧ (block configE .refreshing [] []).phase ≠ .closed := by decide
theorem witness_AdmissionGate :
    (Instr.sleep) ≠ .teardown ∧ (block configE .closed [] []).phase = .closed ∧ (block configE .reset [] []).phase ≠ .closed ∧
      admission .sleep .reset = false ∧ ({ block configE .initialized [] [] with poisoned := true } : State).poisoned = true := by decide
theorem witness_ErrorDelivery :
    ∃ t, exec (.lineSet .busy true) (block configE .reset [] []) = .next t := ⟨_, rfl⟩
theorem witness_TraceGrowsConfigurationStays :
    ∃ t, step { block configE .reset [] [] with input := [0x08, 0x00, 0x00, 0x00, 0x01] } = .next t := ⟨_, rfl⟩
theorem witness_NoWarmReset :
    (∃ t, exec (.delay 1) (fresh configE [] [] [] []) = .next t ∧ t.phase = .uninitialized) ∧
      (∃ t, exec .teardown { block configT .streaming [] [] with poisoned := true, env := { Env.unscripted with released := [true, true, true] } } =
        .next t) := ⟨⟨_, rfl, rfl⟩, _, rfl⟩
theorem witness_PhaseTransitions :
    (∃ t v, exec .initializePanel (block configT .reset [] (oks 2)) = .next t ∧ t.result = some v ∧ isErrorResult v = false) ∧
      (∃ t e, exec .initializePanel (block configT .reset [] [.fail 0]) = .next t ∧ t.result = some (.error e)) ∧
      phaseInside .initializePanel = none := ⟨⟨_, _, rfl, rfl, rfl⟩, ⟨_, _, rfl, rfl⟩, rfl⟩
/-- After an event, with an error of an action and no event, and by validation. -/
theorem witness_PhaseTransitions_inside :
    (∃ t e, exec (.refresh white white) (block configE .initialized [] [.fail 0]) = .next t ∧ t.result = some (.error e) ∧
        appended (block configE .initialized [] [.fail 0]) t ≠ [.error e]) ∧
      (∃ t e, exec (.streamFill ⟨1, 0, 2, 1⟩ 0xF800) { fresh configT [] [] [] [] with phase := .initialized } = .next t ∧
        t.result = some (.error e) ∧ e.kind ≠ .configError) ∧
      (∃ t e, exec (.streamFill ⟨1, 0, 2, 1⟩ 0xF800) (block configE .initialized [] []) = .next t ∧ t.result = some (.error e) ∧
        appended (block configE .initialized [] []) t = [.error e] ∧ e.kind = .configError) := ⟨⟨_, _, rfl, rfl, by decide⟩, ⟨_, _, rfl, rfl, by decide⟩, _, _, rfl, rfl, rfl, rfl⟩
/-- A block of configuration T just created, with a descriptor issued, meets the invariant and steps. -/
theorem witness_StepKeepsBlockInv :
    blockInv { State.created configT build95 with input := [0x08, 0x00, 0x00, 0x00, 0x01] } ∧
      ∃ t, step { State.created configT build95 with input := [0x08, 0x00, 0x00, 0x00, 0x01] } = .next t := by
  refine ⟨⟨by decide, by decide, ?_, by decide, by decide, rfl, by decide,
    fun h => absurd h (by decide), by decide, fun _ => rfl⟩, _, rfl⟩
  intro r
  unfold lineKept
  cases r <;> decide
theorem witness_CreationMeetsBlockInv :
    ∃ s, create configT build95 = some s := ⟨_, rfl⟩
/-- The draws of program P1. -/
def startP1 : State :=
  { State.created configE build95 with
    env := { Env.unscripted with
      chipOpens := [true], offsetOwned := [false, false, false], deviceOpens := [true], deviceAccepts := [true]
      busy := [false, true, false, false, true, true], writes := oks 13 } }

/-- Program P1. -/
theorem witness_EndToEndSession :
    configE.panelKind = .ePaper ∧ create configE build95 = some { startP1 with env := (State.created configE build95).env } ∧
      (sessionRoles configE).Pairwise (fun x y => cfgOffset configE x ≠ cfgOffset configE y) ∧
      runsP1.map Prod.fst = configE.initTable ∧
      (∀ r ∈ runsP1, entryWellFormed r.1 = true ∧
        (r.1.busyWait = true → waitInTime build95 configE.pollInterval configE.opTimeout r.2)) ∧
      frameFits configE white ∧ frameFits configE stripes ∧
      waitInTime build95 configE.pollInterval configE.opTimeout 2 ∧ waitInTime build95 configE.pollInterval configE.opTimeout 0 ∧
      startP1.env.offsetOwned = List.replicate (sessionRoles configE).length false ++ [] ∧
      writesOk startP1 ((runsP1.map (entryWrites configE)).sum +
        (cmdWrites configE white.bytes + cmdWrites configE stripes.bytes + 1) + (1 + cmdWrites configE configE.deepSleepParams)) ∧
      runsP1.flatMap (entryBusy configE) ++ busyAnswers (busyLevel configE.busyPolarity) 2 ++
        busyAnswers (busyLevel configE.busyPolarity) 0 <+: startP1.env.busy := by
  unfold frameFits waitInTime writesOk white stripes; decide

end Sys2Proof.Tests
end

/-! The frame law (spec/41_command_framer.md R158): what a sequence of successful framer calls appends, and how the panel reads
it back (R157, R309). -/

namespace Sys2Proof.Machine

open Sys2Proof

/-! ## Operations that return Ok -/

/-- An operation that returns Ok ran its internal form to its end: neither the gate nor the form raised an error. -/
theorem form_ok_of_exec {i : Instr} {s t : State} (h : exec i s = .next t) (ht : t.result = some .ok) :
    ∃ u, form i s = .ok .ok u ∧ t = u.setResult .ok := by
  rcases exec_next h with ⟨_, rfl⟩ | ⟨_, _, rfl⟩
  · simp [rejected] at ht
  · cases hf : form i s with
    | ok v u =>
      obtain rfl : v = .ok := by simpa [hf] using ht
      exact ⟨u, rfl, by rw [conclude_ok]⟩
    | err e u => simp [hf] at ht

/-- A SEND_COMMAND that returns Ok appended its frame (R150, R152). -/
theorem exec_sendCommand_trace {op : Byte} {s t : State} (h : exec (.sendCommand op) s = .next t)
    (ht : t.result = some .ok) : t.trace = s.trace ++ commandEvents s.cfg op ∧ t.cfg = s.cfg := by
  obtain ⟨u, hu, rfl⟩ := form_ok_of_exec h ht
  obtain ⟨_, hw, _⟩ := Res.map_eq_ok.mp hu
  simpa [commandEvents] using framedWrite_trace hw

/-- A SEND_DATA that returns Ok appended its frame (R151, R152). -/
theorem exec_sendData_trace {data : List Byte} {s t : State} (h : exec (.sendData data) s = .next t)
    (ht : t.result = some .ok) : t.trace = s.trace ++ framedEvents s.cfg (!s.cfg.dcCmdLevel) data ∧ t.cfg = s.cfg := by
  obtain ⟨u, hu, rfl⟩ := form_ok_of_exec h ht
  obtain ⟨_, hw, _⟩ := Res.map_eq_ok.mp hu
  simpa using framedWrite_trace hw

/-! ## Sequences of operations -/

/-- A sequence succeeds iff its first operation returns Ok and the others succeed after it. -/
theorem runOps_cons_eq_some {i : Instr} {rest : List Instr} {s u : State} :
    runOps (i :: rest) s = some u ↔ ∃ t, exec i s = .next t ∧ t.result = some .ok ∧ runOps rest t = some u := by
  cases hx : exec i s <;> simp [runOps, hx]

theorem runOps_append (a b : List Instr) : ∀ s, runOps (a ++ b) s = (runOps a s).bind (runOps b) := by
  induction a with
  | nil => intro s; rfl
  | cons i rest ih =>
    intro s
    simp only [List.cons_append, runOps]
    cases exec i s with
    | next t => by_cases ht : t.result = some .ok <;> simp [ht, ih]
    | _ => rfl

/-- A command and its data, if there is any, that succeeded (R105). -/
theorem runOps_expandCmd {op : Byte} {params : List Byte} {s t : State} (h : runOps (expandCmd op params) s = some t) :
    t.trace = s.trace ++ cmdEvents s.cfg op params ∧ t.cfg = s.cfg := by
  cases params with
  | nil =>
    obtain ⟨u, hx, hu, hrest⟩ := runOps_cons_eq_some.mp h
    obtain rfl : u = t := Option.some.inj hrest
    simpa [cmdEvents, dataEvents] using exec_sendCommand_trace hx hu
  | cons b rest =>
    obtain ⟨u, hx, hu, hdata⟩ := runOps_cons_eq_some.mp h
    obtain ⟨v, hy, hv, hrest⟩ := runOps_cons_eq_some.mp hdata
    obtain rfl : v = t := Option.some.inj hrest
    obtain ⟨t1, c1⟩ := exec_sendCommand_trace hx hu
    obtain ⟨t2, c2⟩ := exec_sendData_trace hy hv
    rw [c1] at t2 c2
    exact ⟨by simp [t2, t1, cmdEvents, dataEvents], c2⟩

/-- A sequence of commands with their data that succeeded. -/
theorem runOps_calls {calls : List (Byte × List Byte)} : ∀ {s t : State},
    runOps (calls.flatMap fun c => expandCmd c.1 c.2) s = some t →
    t.trace = s.trace ++ calls.flatMap fun c => cmdEvents s.cfg c.1 c.2 := by
  induction calls with
  | nil => intro s t h; cases h; simp
  | cons c rest ih =>
    intro s t h
    rw [List.flatMap_cons, runOps_append, Option.bind_eq_some_iff] at h
    obtain ⟨u, hc, hrest⟩ := h
    obtain ⟨t1, c1⟩ := runOps_expandCmd hc
    rw [ih hrest, t1, c1, List.flatMap_cons, List.append_assoc]

theorem appended_of_trace {s t : State} {es : List Event} (h : t.trace = s.trace ++ es) : appended s t = es := by
  simp [appended, h]

/-! ## Reading frames back (R157) -/

/-- A byte read at the command level starts a command. -/
theorem framesOfBytes_command (cl : Bit) (out : List FrameItem) (op : Byte) :
    framesOfBytes cl (some cl) out [op] = some (out ++ [.command op []]) := by
  simp [framesOfBytes, addByte]

/-- Bytes read at the data level are parameters of the command before them. -/
theorem framesOfBytes_data (cl : Bit) (out : List FrameItem) (op : Byte) (data : List Byte) : ∀ params : List Byte,
    framesOfBytes cl (some !cl) (out ++ [.command op params]) data = some (out ++ [.command op (params ++ data)]) := by
  induction data with
  | nil => intro params; simp [framesOfBytes]
  | cons b rest ih =>
    intro params
    have hb : addByte cl (!cl) (out ++ [.command op params]) b = out ++ [.command op (params ++ [b])] := by
      simp [addByte]
    rw [framesOfBytes, hb, ih, List.append_assoc, List.singleton_append]

/-- Bytes written one by one, CS around each, read as the bytes together: the loop does not look at CS. -/
theorem framesOfEvents_bytewise (cl a : Bit) (dc : Option Bit) (data : List Byte) : ∀ out : List FrameItem,
    framesOfEvents cl dc out (data.flatMap fun b => [.lineSet .cs a, .spiWrite [b] true, .lineSet .cs (!a)]) =
      framesOfBytes cl dc out data := by
  induction data with
  | nil => intro out; simp [framesOfEvents, framesOfBytes]
  | cons b rest ih =>
    intro out
    rw [← List.singleton_append (l := rest), framesOfBytes_append]
    simp [framesOfEvents, ih]

/-- The frame of a framer call reads as its bytes at its level, in every CS mode and whatever the level before. -/
theorem framesOfEvents_framedEvents (cl : Bit) (c : Cfg) (dcl : Bit) (data : List Byte) (dc : Option Bit)
    (out : List FrameItem) :
    framesOfEvents cl dc out (framedEvents c dcl data) = framesOfBytes cl (some dcl) out data := by
  unfold framedEvents
  cases c.csMode with
  | none => simp [framesOfEvents]
  | perCall => simp [framesOfEvents]
  | perByte =>
    cases data with
    | nil => simp [framesOfEvents, framesOfBytes]
    | cons b rest =>
      rw [← List.singleton_append (l := rest), framesOfBytes_append]
      simp [framesOfEvents, framesOfEvents_bytewise]

/-- A command with its data reads as one frame more. -/
theorem framesOfEvents_cmdEvents (c : Cfg) (op : Byte) (params : List Byte) (dc : Option Bit) (out : List FrameItem) :
    framesOfEvents c.dcCmdLevel dc out (cmdEvents c op params) = some (out ++ [.command op params]) := by
  have hcommand := framesOfEvents_framedEvents c.dcCmdLevel c c.dcCmdLevel [op] dc out
  rw [framesOfBytes_command] at hcommand
  rw [cmdEvents, commandEvents, framesOfEvents_append, hcommand, Option.bind_some]
  cases params with
  | nil => simp [dataEvents, framesOfEvents]
  | cons b rest =>
    rw [dataEvents, if_neg (by simp), framesOfEvents_framedEvents, framesOfBytes_data, List.nil_append]

/-- Commands with their data read as a frame each, in order. -/
theorem framesOfEvents_calls (c : Cfg) (calls : List (Byte × List Byte)) : ∀ (dc : Option Bit) (out : List FrameItem),
    framesOfEvents c.dcCmdLevel dc out (calls.flatMap fun x => cmdEvents c x.1 x.2) =
      some (out ++ calls.map fun x => .command x.1 x.2) := by
  induction calls with
  | nil => intro dc out; simp [framesOfEvents]
  | cons x rest ih =>
    intro dc out
    rw [List.flatMap_cons, framesOfEvents_append, framesOfEvents_cmdEvents, Option.bind_some, ih, List.map_cons,
      List.append_assoc, List.singleton_append]

/-! ## CS at the writes (R309) -/

/-- Pieces that assert CS for their own writes, whatever the level before, do so one after the other. -/
theorem csAsserted_flatMap {α : Type} {al : Bit} {f : α → List Event} (hf : ∀ x cs, csAsserted al cs (f x) = true)
    (l : List α) : ∀ cs, csAsserted al cs (l.flatMap f) = true := by
  induction l with
  | nil => intro cs; rfl
  | cons x rest ih => intro cs; rw [List.flatMap_cons, csAsserted_append, hf, ih, Bool.and_self]

/-- In a CS mode a framer call asserts CS for its own writes, whatever the level before (R152). -/
theorem csAsserted_framedEvents {c : Cfg} (hm : c.csMode ≠ .none) (dcl : Bit) (data : List Byte) (cs : Option Bit) :
    csAsserted c.csActiveLevel cs (framedEvents c dcl data) = true := by
  unfold framedEvents
  cases hc : c.csMode with
  | none => exact absurd hc hm
  | perCall => simp [csAsserted, levelAfter]
  | perByte =>
    cases data with
    | nil => rfl
    | cons b rest =>
      have hrest := csAsserted_flatMap (al := c.csActiveLevel)
        (f := fun b => [.lineSet .cs c.csActiveLevel, .spiWrite [b] true, .lineSet .cs (!c.csActiveLevel)])
        (fun b cs => by simp [csAsserted, levelAfter]) rest
      simp [csAsserted, levelAfter, hrest]

theorem csAsserted_cmdEvents {c : Cfg} (hm : c.csMode ≠ .none) (op : Byte) (params : List Byte) (cs : Option Bit) :
    csAsserted c.csActiveLevel cs (cmdEvents c op params) = true := by
  rw [cmdEvents, csAsserted_append, commandEvents, csAsserted_framedEvents hm, Bool.true_and]
  unfold dataEvents
  split
  · rfl
  · exact csAsserted_framedEvents hm _ _ _

/-! ## The frame law -/

/-- Settles O25: what the calls append is their frames one after the other, each read back as its command and data. -/
theorem frameLaw : Obligations.FrameLaw := by
  intro calls s t dc cs h
  rw [appended_of_trace (runOps_calls h)]
  have hcs : ¬ (s.cfg.csMode ≠ .none ∧ csAsserted s.cfg.csActiveLevel cs
      (calls.flatMap fun x => cmdEvents s.cfg x.1 x.2) = false) := by
    rintro ⟨hm, hf⟩
    rw [csAsserted_flatMap (fun x cs => csAsserted_cmdEvents hm x.1 x.2 cs)] at hf
    cases hf
  rw [framesFrom, if_neg hcs, framesOfEvents_calls, List.nil_append]

end Sys2Proof.Machine

/-! Mono1bpp images (spec/43_framebuffer.md R193, R195): what ENCODE_MONO answers passes FB_CHECK, and packing and unpacking undo
each other. Both halves of the round trip rest on one fact: a valid image packed from its own unpacked pixels is itself. -/

namespace Sys2Proof.Machine

open Sys2Proof

/-! ## What encode_mono and decode_mono answer -/

/-- ENCODE_MONO accepts exactly these, and answers the packed image (R192). -/
theorem encodeMono_eq_ok_iff {w h : Nat} {m : List Byte} {fb : Framebuffer} : encodeMono w h m = .ok fb ↔
    (1 ≤ w ∧ w ≤ 65535 ∧ 1 ≤ h ∧ h ≤ 65535 ∧ w % 8 = 0 ∧ m.length = w * h) ∧ packMono w h (blackAt w m) = fb := by
  unfold encodeMono dimsOutside maxDim
  simp only [Bool.or_eq_true, decide_eq_true_eq]
  split
  · simp only [reduceCtorEq, false_iff]; omega
  · split
    · simp only [reduceCtorEq, false_iff]; omega
    · split
      · simp only [reduceCtorEq, false_iff]; omega
      · rw [Except.ok.injEq, iff_and_self]; omega

/-- DECODE_MONO of a valid Mono1bpp buffer is its unpacked pixels (R194). -/
theorem decodeMono_of_valid {fb : Framebuffer} (he : fb.encoding = .mono1bpp) (hv : fbCheck fb = .ok ()) :
    decodeMono fb = .ok (unpackMono fb) := by
  simp [decodeMono, hv, he]

/-! ## Packed images are valid (R193) -/

/-- An image whose width is a multiple of 8 fills its last byte. -/
theorem mul_mod_eight_of_width {w : Nat} (h : Nat) (hw : w % 8 = 0) : w * h % 8 = 0 := by
  rw [Nat.mul_mod, hw, Nat.zero_mul, Nat.zero_mod]

theorem fbCheck_packMono {w h : Nat} (black : Nat → Nat → Bool) (hw1 : 1 ≤ w) (hw2 : w ≤ 65535) (hh1 : 1 ≤ h)
    (hh2 : h ≤ 65535) (hw : w % 8 = 0) : fbCheck (packMono w h black) = .ok () := by
  refine fbCheck_ok_iff.mpr ⟨hw1, hw2, hh1, hh2, fun _ => hw, ?_⟩
  exact (packMono_length w h black).trans (requiredLength_mono hw).symm

/-! ## Unpacked pixels -/

@[simp] theorem unpackMono_length (fb : Framebuffer) : (unpackMono fb).length = fb.width * fb.height := by
  simp [unpackMono]

/-- Pixel `i` of an unpacked image reads black iff its bit is 0 (R62, R194). -/
theorem blackAt_unpackMono {fb : Framebuffer} {r c : Nat} (hi : r * fb.width + c < fb.width * fb.height) :
    blackAt fb.width (unpackMono fb) r c = !imageBit fb.bytes (r * fb.width + c) := by
  rw [blackAt, List.getD_eq_getElem _ _ (by simpa using hi)]
  simp only [unpackMono, List.getElem_map, List.getElem_range]
  cases imageBit fb.bytes (r * fb.width + c) <;> decide

/-- A pixel inside the image has its row-major index inside the image. -/
theorem rowMajor_lt {w h r c : Nat} (hr : r < h) (hc : c < w) : r * w + c < w * h := by
  calc r * w + c < r * w + w := by omega
    _ = (r + 1) * w := (Nat.succ_mul r w).symm
    _ ≤ h * w := Nat.mul_le_mul_right w hr
    _ = w * h := Nat.mul_comm h w

/-- Unpacking a packed image gives every pixel of the predicate back. -/
theorem blackAt_unpackMono_packMono {w h : Nat} (black : Nat → Nat → Bool) (hw : w % 8 = 0) {r c : Nat} (hr : r < h)
    (hc : c < w) : blackAt w (unpackMono (packMono w h black)) r c = black r c := by
  have hlt := rowMajor_lt hr hc
  have hrow : (r * w + c) / w = r := by
    rw [Nat.mul_comm, Nat.mul_add_div (by omega), Nat.div_eq_of_lt hc, Nat.add_zero]
  have hcol : (r * w + c) % w = c := Nat.mul_add_mod_of_lt hc
  calc blackAt w (unpackMono (packMono w h black)) r c
      = !imageBit (packMono w h black).bytes (r * w + c) := blackAt_unpackMono (fb := packMono w h black) hlt
    _ = black r c := by rw [imageBit_packMono black hw hlt, hrow, hcol, Bool.not_not]

/-- A valid image packed from its own unpacked pixels is itself: the two have as many bytes, and the same bits. -/
theorem packMono_unpackMono {fb : Framebuffer} (he : fb.encoding = .mono1bpp) (hv : fbCheck fb = .ok ()) :
    packMono fb.width fb.height (blackAt fb.width (unpackMono fb)) = fb := by
  obtain ⟨-, -, -, -, hmul, hlen⟩ := fbCheck_ok_iff.mp hv
  have hw := hmul he
  rw [he, requiredLength_mono hw] at hlen
  have hbytes : (packMono fb.width fb.height (blackAt fb.width (unpackMono fb))).bytes = fb.bytes := by
    refine bytes_ext (packMono_length _ _ _) hlen fun i hi => ?_
    have hlt : i < fb.width * fb.height := by omega
    have hidx : i / fb.width * fb.width + i % fb.width = i := Nat.div_add_mod' i fb.width
    rw [imageBit_packMono _ hw hlt, blackAt_unpackMono (by rwa [hidx]), hidx, Bool.not_not]
  obtain ⟨w, h, e, bytes⟩ := fb
  obtain rfl : e = .mono1bpp := he
  exact congrArg (Framebuffer.mk w h .mono1bpp) hbytes

/-- A valid image is the encoding of its own decoding (R195, second half). -/
theorem encodeMono_unpackMono {fb : Framebuffer} (he : fb.encoding = .mono1bpp) (hv : fbCheck fb = .ok ()) :
    encodeMono fb.width fb.height (unpackMono fb) = .ok fb := by
  obtain ⟨hw1, hw2, hh1, hh2, hmul, -⟩ := fbCheck_ok_iff.mp hv
  exact encodeMono_eq_ok_iff.mpr ⟨⟨hw1, hw2, hh1, hh2, hmul he, unpackMono_length fb⟩, packMono_unpackMono he hv⟩

/-! ## The round trip and the check -/

/-- Settles O34: a packed image is valid, so both halves come from decoding and encoding a valid image. -/
theorem monoRoundTrip : Obligations.MonoRoundTrip := by
  constructor
  · intro w h black hw1 hw2 hw hh1 hh2
    have hv := fbCheck_packMono black (by omega) hw2 hh1 hh2 hw
    exact ⟨unpackMono (packMono w h black), decodeMono_of_valid rfl hv, unpackMono_length _,
      fun r hr c hc => blackAt_unpackMono_packMono black hw hr hc, encodeMono_unpackMono rfl hv⟩
  · intro fb he hv
    exact ⟨unpackMono fb, decodeMono_of_valid he hv, encodeMono_unpackMono he hv⟩

/-- An ENCODE_MONO that answers a frame ran with the gate open and packed it: a raised error answers no frame (R192, R276). -/
theorem encodeMono_of_exec_frame {s t : State} {w h : Nat} {m : List Byte} {fb : Framebuffer}
    (hx : exec (.encodeMono w h m) s = .next t) (ht : t.result = some (.frame fb)) :
    gateOpen (.encodeMono w h m) s ∧ encodeMono w h m = .ok fb ∧ t = s.setResult (.frame fb) := by
  rcases exec_next hx with ⟨-, rfl⟩ | ⟨hp, ha, rfl⟩
  · simp [rejected] at ht
  · have hg : gateOpen (.encodeMono w h m) s := ⟨hp.resolve_left (by simp), ha⟩
    cases he : encodeMono w h m with
    | error e => simp [form, he] at ht
    | ok fb' =>
      obtain rfl : fb' = fb := by simpa [form, he] using ht
      exact ⟨hg, rfl, by simp [form, he]⟩

/-- FB_CHECK of a valid buffer answers Ok and changes nothing else (R190). -/
theorem exec_fbCheck_valid {s : State} {fb : Framebuffer} (hg : gateOpen (.fbCheck fb) s) (hv : fbCheck fb = .ok ()) :
    exec (.fbCheck fb) s = .next { s with result := some .ok } := by
  rw [exec_fbCheck hg, hv]
  rfl

/-- Settles O32: what ENCODE_MONO answers is a packed image, and the state it leaves has the gate open for FB_CHECK. -/
theorem encodeMonoPassesFbCheck : Obligations.EncodeMonoPassesFbCheck := by
  intro s t w h m fb hx ht
  obtain ⟨hg, henc, rfl⟩ := encodeMono_of_exec_frame hx ht
  obtain ⟨⟨hw1, hw2, hh1, hh2, hw, -⟩, rfl⟩ := encodeMono_eq_ok_iff.mp henc
  have h8 := mul_mod_eight_of_width h hw
  have hceil : w * h / 8 = (w * h + 7) / 8 := by omega
  exact ⟨hw, packMono_length _ _ _, hceil, exec_fbCheck_valid hg (fbCheck_packMono _ hw1 hw2 hh1 hh2 hw)⟩

end Sys2Proof.Machine

/-! The admission gate (spec/60_exceptions.md R277): every operation but TEARDOWN is its admission set's gate before what it
does. -/

namespace Sys2Proof.Machine

open Sys2Proof

/-! ## A gate that does not let through -/

/-- On a closed block the gate refuses, whatever the admission set. -/
theorem admitted_of_closed {s : State} (adm : Phase → Bool) (run : Out) (hc : s.phase = .closed) :
    admitted adm s run = .refused .noSession := by
  rcases admitted_spec adm s run with ⟨-, h⟩ | ⟨hn, -⟩ | ⟨hn, -⟩
  · exact h
  · exact absurd hc hn
  · exact absurd hc hn

/-- On an open block that is poisoned, or whose phase is not admitted, the gate raises InvalidState with no action (R276). -/
theorem admitted_of_not_admitted {adm : Phase → Bool} {s : State} (run : Out) (hc : s.phase ≠ .closed)
    (hna : s.poisoned = true ∨ adm s.phase = false) : admitted adm s run = .next (rejected s errInvalidState) := by
  rcases admitted_spec adm s run with ⟨hcl, -⟩ | ⟨-, -, h⟩ | ⟨-, hp, ha, -⟩
  · exact absurd hcl hc
  · exact h
  · simp [hp, ha] at hna

/-! ## The gate of each operation -/

/-- The working phases as a list and as a disjunction: the statements and the operations spell the set differently. -/
theorem inWorking_eq_mem : inWorking = fun p => decide (p ∈ [.uninitialized, .reset, .initialized]) := by
  funext p
  cases p <;> rfl

/-- Every operation but TEARDOWN starts with the gate of the admission set its rule lists. -/
theorem exec_eq_admitted {i : Instr} (s : State) (hi : i ≠ .teardown) :
    ∃ run, exec i s = admitted (admission i) s run := by
  have working {run : Out} (ha : admission i = fun p => decide (p ∈ [.uninitialized, .reset, .initialized]))
      (hx : exec i s = admitted inWorking s run) : ∃ run, exec i s = admitted (admission i) s run :=
    ⟨run, by rw [hx, inWorking_eq_mem, ha]⟩
  cases i with
  | lineAcquire | spiOpen | sessionOpen => exact ⟨_, rfl⟩
  | initializePanel => exact ⟨_, rfl⟩
  | refresh | streamPixels | streamFill | sleep => exact ⟨_, rfl⟩
  | lineRelease | spiClose | fbCheck | encodeMono | decodeMono | encodeRgb565 | fillChunks | windowCheck => exact ⟨_, rfl⟩
  | lineSet | lineGet | spiWrite | delay | sendCommand | sendData | waitReady | initApply => exact working rfl rfl
  | teardown => exact absurd rfl hi

/-! ## The statement -/

/-- Settles O53: the gate comes first in every operation but TEARDOWN, which has none and always completes. -/
theorem admissionGate : Obligations.AdmissionGate := by
  refine ⟨fun i s hi => ?_, fun s => ⟨_, exec_teardown s, rfl⟩⟩
  obtain ⟨run, hrun⟩ := exec_eq_admitted s hi
  rw [hrun]
  exact ⟨admitted_of_closed _ run, admitted_of_not_admitted run⟩

end Sys2Proof.Machine

/-! No warm reset (spec/70_reset_and_hazards.md R302): an operation writes `phase` only to go forward, delivery only sets
`poisoned`, and the gate refuses everything on the block TEARDOWN leaves. -/

namespace Sys2Proof.Machine

open Sys2Proof

/-! ## Having left Uninitialized -/

/-- A block that has left Uninitialized has not come back to it. -/
def staysStarted (s t : State) : Prop := s.phase ≠ .uninitialized → t.phase ≠ .uninitialized

theorem staysStarted_of_phase_eq {s t : State} (h : t.phase = s.phase) : staysStarted s t := fun hs => h ▸ hs

/-- Every phase an operation writes is one of the later ones. -/
theorem staysStarted_setPhase (s : State) {p : Phase} (hp : p ≠ .uninitialized) : staysStarted s (s.setPhase p) :=
  fun _ => hp

/-- A transitive relation that holds wherever one kept by every action does is kept by every action. -/
theorem Actions.weaken {R S : State → State → Prop} (h : Actions R) (hRS : ∀ {s t}, R s t → S s t)
    (trans : ∀ {s t u}, S s t → S t u → S s u) : Actions S where
  refl s := hRS (h.refl s)
  trans := trans
  set s r v ha hd := hRS (h.set s r v ha hd)
  get s r v ha hd := hRS (h.get s r v ha hd)
  write s bs c ho := hRS (h.write s bs c ho)
  delay s d := hRS (h.delay s d)
  env s e hc := hRS (h.env s e hc)
  now s := hRS (h.now s)
  polls s n := hRS (h.polls s n)
  grant s sp hd hp := hRS (h.grant s sp hd hp)
  release s r v ha := hRS (h.release s r v ha)
  opened s path clockHz mode bits hm hb hz ho := hRS (h.opened s path clockHz mode bits hm hb hz ho)
  closed s ho := hRS (h.closed s ho)

/-- No action writes `phase` (R21). -/
theorem staysStarted_actions : Actions staysStarted :=
  phase_actions.weaken staysStarted_of_phase_eq fun h h' hs => h' (h hs)

/-! ## The forms that write `phase` -/

theorem staysStarted_setEntryIndex (s : State) (n : Nat) : staysStarted s (s.setEntryIndex n) :=
  staysStarted_of_phase_eq rfl

theorem staysStarted_setRemaining (s : State) (n : Nat) : staysStarted s (s.setRemaining n) :=
  staysStarted_of_phase_eq rfl

/-- A form that ends by writing a later phase: where it raised before, the phase is as its first part left it. -/
theorem staysStarted_thenSetPhase {α : Type} {s : State} {r : Res α} {p : Phase} (hp : p ≠ .uninitialized)
    (h : staysStarted s r.state) : staysStarted s (r.bind fun _ u => .ok () (u.setPhase p)).state :=
  staysStarted_actions.bind h fun _ u _ => staysStarted_setPhase u hp

theorem staysStarted_sessionOpen (s : State) : staysStarted s (sessionOpen s).state :=
  have h := staysStarted_actions
  h.bind (h.lineAcquire _ _ s) fun _ _ _ => h.bind (h.spiOpen _ _ _ _ _) fun _ _ _ =>
    staysStarted_thenSetPhase (by decide) (h.resetSteps _ _)

theorem staysStarted_initializePanel (s : State) : staysStarted s (initializePanel s).state :=
  staysStarted_thenSetPhase (by decide) (staysStarted_actions.applyTable staysStarted_setEntryIndex _ s)

theorem staysStarted_refresh (old new : Framebuffer) (s : State) : staysStarted s (refresh old new s).state := by
  have h := staysStarted_actions
  have check (u : State) (f : Framebuffer) : staysStarted u (Res.ofExcept u (frameCheck s.cfg f)).state := by
    simpa using h.refl u
  unfold refresh
  simp only
  split
  · exact h.refl s
  · refine h.bind (check s old) fun _ u _ => h.bind (check u new) fun _ v _ =>
      h.trans (staysStarted_setPhase v (p := .refreshing) (by decide)) ?_
    exact h.bind (h.sendCommand _ _) fun _ _ _ => h.bind (h.sendData _ _) fun _ _ _ =>
      h.bind (h.sendCommand _ _) fun _ _ _ => h.bind (h.sendData _ _) fun _ _ _ =>
      h.bind (h.sendCommand _ _) fun _ _ _ => staysStarted_thenSetPhase (by decide) (h.waitConfigured _ _)

/-- What both streams do once their operands are checked (R238, R239). -/
theorem staysStarted_stream (win : Window) (chunks : State → List (List Byte)) (n : Nat) (s : State) :
    staysStarted s ((windowSet win (s.setPhase .streaming)).bind fun _ u =>
      (streamBody (chunks u) n u).bind fun _ v => .ok () (v.setPhase .initialized)).state :=
  have h := staysStarted_actions
  h.trans (staysStarted_setPhase s (by decide)) (h.bind (h.windowSet _ _) fun _ _ _ =>
    staysStarted_thenSetPhase (by decide) (h.streamBody staysStarted_setRemaining _ _ _))

theorem staysStarted_streamPixels (win : Window) (pixels : List Byte) (s : State) :
    staysStarted s (streamPixels win pixels s).state := by
  have h := staysStarted_actions
  unfold streamPixels
  simp only
  split
  · exact h.refl s
  · refine h.bind (by simpa using h.refl s) fun n u _ => ?_
    split
    · exact h.refl u
    · exact staysStarted_stream win (fun _ => [pixels]) n u

theorem staysStarted_streamFill (win : Window) (color : U16) (s : State) :
    staysStarted s (streamFill win color s).state := by
  have h := staysStarted_actions
  unfold streamFill
  simp only
  split
  · exact h.refl s
  · exact h.bind (by simpa using h.refl s) fun n u _ =>
      staysStarted_stream win (fun v => fillChunks v.build.chunkPixels color n) n u

theorem staysStarted_sleep (s : State) : staysStarted s (sleep s).state := by
  have h := staysStarted_actions
  refine h.bind (h.sendCommand _ _) fun _ _ _ => h.bind ?_ fun _ _ _ => h.bind (h.sendCommand _ _) fun _ _ _ =>
    staysStarted_thenSetPhase (by decide) ?_
  · split
    · simpa using h.waitConfigured _ _
    · exact h.refl _
  · split
    · exact h.sendData _ _
    · exact h.refl _

/-- TEARDOWN ends in Closed, closed before or not (R241). -/
theorem teardown_phase (s : State) : (teardown s).phase = .closed := by
  unfold teardown
  split
  · assumption
  · rfl

/-! ## Every operation -/

/-- No operation's form brings a block back to Uninitialized. -/
theorem staysStarted_form (i : Instr) (s : State) : staysStarted s (form i s).state := by
  have h := staysStarted_actions
  cases i with
  | lineAcquire chip specs => simpa [form] using h.lineAcquire chip specs s
  | lineSet r v => simpa [form] using h.lineSet r v s
  | lineGet r => simpa [form] using h.lineGet r s
  | lineRelease => exact h.lineRelease s
  | spiOpen path clockHz mode bits => simpa [form] using h.spiOpen path clockHz mode bits s
  | spiWrite data => simpa [form] using h.spiWrite data s
  | spiClose => exact h.spiClose s
  | delay d => exact h.delay s d
  | sendCommand op => simpa [form] using h.sendCommand op s
  | sendData data => simpa [form] using h.sendData data s
  | waitReady p interval timeout stage => simpa [form] using h.waitReady p interval timeout stage s
  | fbCheck | encodeMono | decodeMono | encodeRgb565 | windowCheck => simpa [form] using h.refl s
  | fillChunks => exact h.refl s
  | initApply table => simpa [form] using h.applyTable staysStarted_setEntryIndex table s
  | sessionOpen => simpa [form] using staysStarted_sessionOpen s
  | initializePanel => simpa [form] using staysStarted_initializePanel s
  | refresh old new => simpa [form] using staysStarted_refresh old new s
  | streamPixels win pixels => simpa [form] using staysStarted_streamPixels win pixels s
  | streamFill win color => simpa [form] using staysStarted_streamFill win color s
  | sleep => simpa [form] using staysStarted_sleep s
  | teardown => intro _ ht; cases (teardown_phase s).symm.trans ht

/-- The end of an operation leaves `phase` as its form did. -/
@[simp] theorem conclude_phase (s : State) (r : Res Result) : (conclude s r).phase = r.state.phase := by
  cases r <;> rfl

/-- The end of an operation clears no poison: an error can only add it (R276). -/
theorem conclude_poisoned {s : State} {r : Res Result} (h : r.state.poisoned = true) : (conclude s r).poisoned = true := by
  cases r with
  | ok v u => exact h
  | err e u => exact Bool.or_eq_true_iff.mpr (.inl h)

theorem exec_staysStarted {i : Instr} {s t : State} (h : exec i s = .next t) : staysStarted s t := by
  rcases exec_next h with ⟨-, rfl⟩ | ⟨-, -, rfl⟩
  · exact staysStarted_of_phase_eq rfl
  · simpa [staysStarted] using staysStarted_form i s

theorem exec_staysPoisoned {i : Instr} {s t : State} (h : exec i s = .next t) (hp : s.poisoned = true) :
    t.poisoned = true := by
  rcases exec_next h with ⟨-, rfl⟩ | ⟨-, -, rfl⟩
  · exact hp
  · obtain ⟨-, -, -, hform, -⟩ := kept_form i s
    exact conclude_poisoned (hform.trans hp)

/-- A closed block refuses every operation but TEARDOWN (R277). -/
theorem exec_of_closed {i : Instr} {s : State} (hi : i ≠ .teardown) (hc : s.phase = .closed) :
    exec i s = .refused .noSession := by
  obtain ⟨run, hrun⟩ := exec_eq_admitted s hi
  rw [hrun, admitted_of_closed _ run hc]

/-! ## The statement -/

/-- Settles O56: the form of every operation keeps away from Uninitialized and keeps `poisoned`, and after TEARDOWN the gate
is that of a closed block. -/
theorem noWarmReset : Obligations.NoWarmReset := by
  intro i s t h
  refine ⟨fun ht => Decidable.not_not.mp fun hs => exec_staysStarted h hs ht, exec_staysPoisoned h, ?_⟩
  rintro rfl
  rw [exec_teardown] at h
  cases h
  exact ⟨teardown_phase s, fun j hj => exec_of_closed hj (teardown_phase s)⟩

end Sys2Proof.Machine

/-! Descriptors (spec/30_encoding.md R100 to R103): reading the operands of an operation undoes writing them, and what is read is
what would be written. That no other bytes spell an operation, and that no descriptor is the start of another, follows from
the two. -/

namespace Sys2Proof

/-! ## Operands in range (R101) -/

@[simp] theorem fitsU8_iff {n : Nat} : fitsU8 n = true ↔ n < 256 := decide_eq_true_iff
@[simp] theorem fitsU16_iff {n : Nat} : fitsU16 n = true ↔ n < 65536 := decide_eq_true_iff
@[simp] theorem fitsU32_iff {n : Nat} : fitsU32 n = true ↔ n < 4294967296 := decide_eq_true_iff
@[simp] theorem Text.wf_iff {t : Text} : Text.wf t = true ↔ t.length < 256 := fitsU8_iff
@[simp] theorem bytesWf_iff {bs : List Byte} : bytesWf bs = true ↔ bs.length < 4294967296 := fitsU32_iff

/-! ## Counted lists (R101) -/

theorem getLineSpecs_append {specs : List LineSpec} (r : List Byte) (hn : specs.length < 256)
    (h : ∀ l ∈ specs, l.wf = true) :
    getLineSpecs (putU8 specs.length ++ (specs.flatMap putLineSpec ++ r)) = some (specs, r) := by
  simp only [getLineSpecs, getU8_putU8 _ hn, Option.bind_eq_bind, Option.bind_some]
  exact getMany_flatMap r specs fun l hl t => getLineSpec_putLineSpec t (h l hl)

theorem getLineSpecs_some {bs r : List Byte} {specs : List LineSpec} (h : getLineSpecs bs = some (specs, r)) :
    specs.length < 256 ∧ (∀ l ∈ specs, l.wf = true) ∧
      bs = putU8 specs.length ++ (specs.flatMap putLineSpec ++ r) := by
  simp only [getLineSpecs, Option.bind_eq_bind, Option.bind_eq_some_iff] at h
  obtain ⟨⟨n, t⟩, h1, h2⟩ := h
  obtain ⟨hn, rfl⟩ := getU8_some h1
  obtain ⟨rfl, hwf, rfl⟩ := getMany_some getLineSpec_some _ _ _ _ h2
  exact ⟨hn, hwf, rfl⟩

theorem getTable_append {table : List Entry} (r : List Byte) (hn : table.length < 65536)
    (h : ∀ e ∈ table, e.wf = true) :
    getTable (putU16 table.length ++ (table.flatMap putEntry ++ r)) = some (table, r) := by
  simp only [getTable, getU16_putU16 _ hn, Option.bind_eq_bind, Option.bind_some]
  exact getMany_flatMap r table fun e he t => getEntry_putEntry t (h e he)

theorem getTable_some {bs r : List Byte} {table : List Entry} (h : getTable bs = some (table, r)) :
    table.length < 65536 ∧ (∀ e ∈ table, e.wf = true) ∧
      bs = putU16 table.length ++ (table.flatMap putEntry ++ r) := by
  simp only [getTable, Option.bind_eq_bind, Option.bind_eq_some_iff] at h
  obtain ⟨⟨n, t⟩, h1, h2⟩ := h
  obtain ⟨hn, rfl⟩ := getU16_some h1
  obtain ⟨rfl, hwf, rfl⟩ := getMany_some getEntry_some _ _ _ _ h2
  exact ⟨hn, hwf, rfl⟩

theorem getColors_append {colors : List U16} (r : List Byte) (hn : colors.length < 4294967296) :
    getColors (putU32 colors.length ++ (colors.flatMap putColor ++ r)) = some (colors, r) := by
  simp only [getColors, getU32_putU32 _ hn, Option.bind_eq_bind, Option.bind_some]
  exact getMany_flatMap r colors fun c _ t => getColor_putColor c t

theorem getColors_some {bs r : List Byte} {colors : List U16} (h : getColors bs = some (colors, r)) :
    colors.length < 4294967296 ∧ bs = putU32 colors.length ++ (colors.flatMap putColor ++ r) := by
  simp only [getColors, Option.bind_eq_bind, Option.bind_eq_some_iff] at h
  obtain ⟨⟨n, t⟩, h1, h2⟩ := h
  obtain ⟨hn, rfl⟩ := getU32_some h1
  obtain ⟨rfl, -, rfl⟩ := getMany_some getColor_some _ _ _ _ h2
  exact ⟨hn, rfl⟩

/-! ## Reading what was written -/

theorem Instr.opsel_lt (i : Instr) : i.opsel < 256 := by cases i <;> simp [Instr.opsel]

/-- The decoder's choice of operand form is made by the OPSEL byte (R100). -/
theorem decode_opsel_cons (i : Instr) (bs : List Byte) :
    decode (BitVec.ofNat 8 i.opsel :: bs) = decodeOperands i.opsel bs := by
  rw [decode, BitVec.toNat_ofNat, Nat.mod_eq_of_lt i.opsel_lt]

/-- The operands of an operation in range are read back, each by the reader of its form. -/
theorem decodeOperands_encodeOperands (i : Instr) (rest : List Byte) (h : i.wf = true) :
    decodeOperands i.opsel (encodeOperands i ++ rest) = some (i, rest) := by
  cases i <;>
    simp only [Instr.wf, Bool.and_eq_true, fitsU8_iff, fitsU16_iff, fitsU32_iff, Text.wf_iff, bytesWf_iff,
      List.all_eq_true] at h <;>
    simp only [Instr.opsel, encodeOperands, decodeOperands, List.append_assoc, Option.bind_eq_bind]
  case lineAcquire chip specs =>
    obtain ⟨⟨hc, hn⟩, hs⟩ := h
    simp [getText_putText _ _ hc, getLineSpecs_append rest hn hs]
  case lineSet => simp [getRole_putRole, getBit_putBit]
  case lineGet => simp [getRole_putRole]
  case lineRelease => simp
  case spiOpen =>
    obtain ⟨⟨⟨hp, hz⟩, hm⟩, hb⟩ := h
    simp [getText_putText _ _ hp, getU32_putU32 _ hz, getU8_putU8 _ hm, getU8_putU8 _ hb]
  case spiWrite => simp [getBytes_putBytes _ _ h]
  case spiClose => simp
  case delay => simp [getU32_putU32 _ h]
  case sendCommand => simp [getByte]
  case sendData => simp [getBytes_putBytes _ _ h]
  case waitReady =>
    obtain ⟨⟨hi, ht⟩, hs⟩ := h
    simp [getPolarity_putPolarity, getU32_putU32 _ hi, getU32_putU32 _ ht, getText_putText _ _ hs]
  case fbCheck => simp [getFramebuffer_putFramebuffer _ h]
  case encodeMono =>
    obtain ⟨⟨hw, hh⟩, hb⟩ := h
    simp [getU16_putU16 _ hw, getU16_putU16 _ hh, getBytes_putBytes _ _ hb]
  case decodeMono => simp [getFramebuffer_putFramebuffer _ h]
  case encodeRgb565 =>
    obtain ⟨⟨hw, hh⟩, hc⟩ := h
    simp [getU16_putU16 _ hw, getU16_putU16 _ hh, getColors_append rest hc]
  case fillChunks => simp [getColor_putColor, getU32_putU32 _ h]
  case windowCheck =>
    obtain ⟨⟨hw, hh⟩, hwin⟩ := h
    simp [getU16_putU16 _ hw, getU16_putU16 _ hh, getWindow_putWindow _ hwin]
  case initApply =>
    obtain ⟨hn, he⟩ := h
    simp [getTable_append rest hn he]
  case sessionOpen => simp
  case initializePanel => simp
  case refresh =>
    obtain ⟨ho, hn⟩ := h
    simp [getFramebuffer_putFramebuffer _ ho, getFramebuffer_putFramebuffer _ hn]
  case streamPixels =>
    obtain ⟨hw, hp⟩ := h
    simp [getWindow_putWindow _ hw, getBytes_putBytes _ _ hp]
  case streamFill => simp [getWindow_putWindow _ h, getColor_putColor]
  case sleep => simp
  case teardown => simp

/-- Settles O2: the OPSEL byte picks the reader of the operation's own operands. -/
theorem decodeOfEncode : Obligations.DecodeOfEncode := by
  intro i rest h
  rw [encode, List.cons_append, decode_opsel_cons, decodeOperands_encodeOperands i rest h]

/-! ## What is read is what would be written -/

theorem getByte_some {bs r : List Byte} {b : Byte} (h : getByte bs = some (b, r)) : bs = b :: r := by
  cases bs with
  | nil => cases h
  | cons a t =>
    simp only [getByte, Option.some.injEq, Prod.mk.injEq] at h
    rw [h.1, h.2]

/-- Whatever operands are read, for whatever OPSEL, are those of an operation with that OPSEL, in range. -/
theorem decodeOperands_some {op : Nat} {bs r : List Byte} {i : Instr} (h : decodeOperands op bs = some (i, r)) :
    i.opsel = op ∧ i.wf = true ∧ bs = encodeOperands i ++ r := by
  unfold decodeOperands at h
  split at h <;>
    simp only [Option.bind_eq_bind, Option.bind_eq_some_iff, Option.some.injEq, Prod.mk.injEq, reduceCtorEq,
      Prod.exists] at h
  · obtain ⟨_, _, h1, _, _, h2, rfl, rfl⟩ := h
    obtain ⟨hc, rfl⟩ := getText_some h1
    obtain ⟨hn, hs, rfl⟩ := getLineSpecs_some h2
    exact ⟨rfl, by simpa [Instr.wf, hc, hn] using hs, by simp [encodeOperands]⟩
  · obtain ⟨_, _, h1, _, _, h2, rfl, rfl⟩ := h
    obtain rfl := getRole_some h1
    obtain rfl := getBit_some h2
    exact ⟨rfl, by simp [Instr.wf], by simp [encodeOperands]⟩
  · obtain ⟨_, _, h1, rfl, rfl⟩ := h
    obtain rfl := getRole_some h1
    exact ⟨rfl, by simp [Instr.wf], by simp [encodeOperands]⟩
  · obtain ⟨rfl, rfl⟩ := h
    exact ⟨rfl, by simp [Instr.wf], by simp [encodeOperands]⟩
  · obtain ⟨_, _, h1, _, _, h2, _, _, h3, _, _, h4, rfl, rfl⟩ := h
    obtain ⟨hp, rfl⟩ := getText_some h1
    obtain ⟨hz, rfl⟩ := getU32_some h2
    obtain ⟨hm, rfl⟩ := getU8_some h3
    obtain ⟨hb, rfl⟩ := getU8_some h4
    exact ⟨rfl, by simp [Instr.wf, hp, hz, hm, hb], by simp [encodeOperands]⟩
  · obtain ⟨_, _, h1, rfl, rfl⟩ := h
    obtain ⟨hd, rfl⟩ := getBytes_some h1
    exact ⟨rfl, by simp [Instr.wf, hd], by simp [encodeOperands]⟩
  · obtain ⟨rfl, rfl⟩ := h
    exact ⟨rfl, by simp [Instr.wf], by simp [encodeOperands]⟩
  · obtain ⟨_, _, h1, rfl, rfl⟩ := h
    obtain ⟨hd, rfl⟩ := getU32_some h1
    exact ⟨rfl, by simp [Instr.wf, hd], by simp [encodeOperands]⟩
  · obtain ⟨_, _, h1, rfl, rfl⟩ := h
    obtain rfl := getByte_some h1
    exact ⟨rfl, by simp [Instr.wf], by simp [encodeOperands]⟩
  · obtain ⟨_, _, h1, rfl, rfl⟩ := h
    obtain ⟨hd, rfl⟩ := getBytes_some h1
    exact ⟨rfl, by simp [Instr.wf, hd], by simp [encodeOperands]⟩
  · obtain ⟨_, _, h1, _, _, h2, _, _, h3, _, _, h4, rfl, rfl⟩ := h
    obtain rfl := getPolarity_some h1
    obtain ⟨hi, rfl⟩ := getU32_some h2
    obtain ⟨ht, rfl⟩ := getU32_some h3
    obtain ⟨hs, rfl⟩ := getText_some h4
    exact ⟨rfl, by simp [Instr.wf, hi, ht, hs], by simp [encodeOperands]⟩
  · obtain ⟨_, _, h1, rfl, rfl⟩ := h
    obtain ⟨hf, rfl⟩ := getFramebuffer_some h1
    exact ⟨rfl, by simp [Instr.wf, hf], by simp [encodeOperands]⟩
  · obtain ⟨_, _, h1, _, _, h2, _, _, h3, rfl, rfl⟩ := h
    obtain ⟨hw, rfl⟩ := getU16_some h1
    obtain ⟨hh, rfl⟩ := getU16_some h2
    obtain ⟨hb, rfl⟩ := getBytes_some h3
    exact ⟨rfl, by simp [Instr.wf, hw, hh, hb], by simp [encodeOperands]⟩
  · obtain ⟨_, _, h1, rfl, rfl⟩ := h
    obtain ⟨hf, rfl⟩ := getFramebuffer_some h1
    exact ⟨rfl, by simp [Instr.wf, hf], by simp [encodeOperands]⟩
  · obtain ⟨_, _, h1, _, _, h2, _, _, h3, rfl, rfl⟩ := h
    obtain ⟨hw, rfl⟩ := getU16_some h1
    obtain ⟨hh, rfl⟩ := getU16_some h2
    obtain ⟨hc, rfl⟩ := getColors_some h3
    exact ⟨rfl, by simp [Instr.wf, hw, hh, hc], by simp [encodeOperands]⟩
  · obtain ⟨_, _, h1, _, _, h2, rfl, rfl⟩ := h
    obtain ⟨-, rfl⟩ := getColor_some _ _ _ h1
    obtain ⟨hn, rfl⟩ := getU32_some h2
    exact ⟨rfl, by simp [Instr.wf, hn], by simp [encodeOperands]⟩
  · obtain ⟨_, _, h1, _, _, h2, _, _, h3, rfl, rfl⟩ := h
    obtain ⟨hw, rfl⟩ := getU16_some h1
    obtain ⟨hh, rfl⟩ := getU16_some h2
    obtain ⟨hwin, rfl⟩ := getWindow_some h3
    exact ⟨rfl, by simp [Instr.wf, hw, hh, hwin], by simp [encodeOperands]⟩
  · obtain ⟨_, _, h1, rfl, rfl⟩ := h
    obtain ⟨hn, he, rfl⟩ := getTable_some h1
    exact ⟨rfl, by simpa [Instr.wf, hn] using he, by simp [encodeOperands]⟩
  · obtain ⟨rfl, rfl⟩ := h
    exact ⟨rfl, by simp [Instr.wf], by simp [encodeOperands]⟩
  · obtain ⟨rfl, rfl⟩ := h
    exact ⟨rfl, by simp [Instr.wf], by simp [encodeOperands]⟩
  · obtain ⟨_, _, h1, _, _, h2, rfl, rfl⟩ := h
    obtain ⟨ho, rfl⟩ := getFramebuffer_some h1
    obtain ⟨hn, rfl⟩ := getFramebuffer_some h2
    exact ⟨rfl, by simp [Instr.wf, ho, hn], by simp [encodeOperands]⟩
  · obtain ⟨_, _, h1, _, _, h2, rfl, rfl⟩ := h
    obtain ⟨hw, rfl⟩ := getWindow_some h1
    obtain ⟨hp, rfl⟩ := getBytes_some h2
    exact ⟨rfl, by simp [Instr.wf, hw, hp], by simp [encodeOperands]⟩
  · obtain ⟨_, _, h1, _, _, h2, rfl, rfl⟩ := h
    obtain ⟨hw, rfl⟩ := getWindow_some h1
    obtain ⟨-, rfl⟩ := getColor_some _ _ _ h2
    exact ⟨rfl, by simp [Instr.wf, hw], by simp [encodeOperands]⟩
  · obtain ⟨rfl, rfl⟩ := h
    exact ⟨rfl, by simp [Instr.wf], by simp [encodeOperands]⟩
  · obtain ⟨rfl, rfl⟩ := h
    exact ⟨rfl, by simp [Instr.wf], by simp [encodeOperands]⟩

/-- Settles O3: the OPSEL byte read is the operation's, and so are the operands. -/
theorem encodeOfDecode : Obligations.EncodeOfDecode := by
  intro bs rest i h
  cases bs with
  | nil => cases h
  | cons op t =>
    obtain ⟨hop, hwf, rfl⟩ := decodeOperands_some h
    refine ⟨hwf, ?_⟩
    rw [encode, hop, BitVec.ofNat_toNat, BitVec.setWidth_eq, List.cons_append]

/-! ## What spells no operation (R103) -/

/-- A byte that is no operation's OPSEL starts no descriptor. -/
theorem decode_reserved {op : Byte} (rest : List Byte) (h : ∀ i : Instr, i.opsel ≠ op.toNat) :
    decode (op :: rest) = none := by
  cases hd : decode (op :: rest) with
  | none => rfl
  | some x => exact absurd (decodeOperands_some hd).1 (h x.1)

/-- A byte above the four role values names no role (R101). -/
theorem getRole_eq_none {b : Byte} (rest : List Byte) (hb : 4 ≤ b.toNat) : getRole (b :: rest) = none := by
  have hne : ∀ n < 4, b ≠ BitVec.ofNat 8 n := by
    rintro n hn rfl
    rw [BitVec.toNat_ofNat] at hb
    omega
  simp [getRole, hne 0 (by omega), hne 1 (by omega), hne 2 (by omega), hne 3 (by omega)]

/-- The start of a descriptor that is not all of it spells no operation: what it spelled would be the operation of the whole
descriptor too, and so have all of its bytes. -/
theorem decode_truncated {i : Instr} {p : List Byte} (hwf : i.wf = true) (hp : p <+: encode i) (hne : p ≠ encode i) :
    decode p = none := by
  cases hd : decode p with
  | none => rfl
  | some x =>
    obtain ⟨j, r⟩ := x
    obtain ⟨q, hq⟩ := hp
    obtain ⟨hj, rfl⟩ := encodeOfDecode _ _ _ hd
    have hi : decode (encode i) = some (i, []) := by simpa using decodeOfEncode i [] hwf
    rw [← hq, List.append_assoc, decodeOfEncode j _ hj] at hi
    obtain ⟨rfl, hr⟩ : j = i ∧ r ++ q = [] := by simpa using hi
    obtain ⟨rfl, rfl⟩ := List.append_eq_nil_iff.mp hr
    exact absurd (by simp) hne

end Sys2Proof

namespace Sys2Proof.Machine

open Sys2Proof

/-! ## Steps -/

/-- A step performs what the issued bytes spell (R5). -/
theorem step_of_decode {s : State} {i : Instr} {rest : List Byte} (h : decode s.input = some (i, rest)) :
    step s = exec i (s.setInput rest) := by
  have hne : s.input ≠ [] := fun he => by rw [he] at h; cases h
  simp [step, fetch, h, hne]

theorem step_of_decode_none {s : State} (hne : s.input ≠ []) (h : decode s.input = none) :
    step s = .refused .invalidDescriptor := by
  simp [step, fetch, h, hne]

theorem step_of_input_nil {s : State} (h : s.input = []) : step s = .next s := by
  simp [step, h]

/-- Settles O4: a bad first byte or role byte is found by its reader, a descriptor cut short by what it would spell. -/
theorem invalidDescriptorRefused : Obligations.InvalidDescriptorRefused := by
  refine ⟨fun op rest h => decode_reserved rest h, fun b rest hb => ?_, fun i p => decode_truncated,
    fun s => step_of_decode_none⟩
  have hr := getRole_eq_none rest hb
  constructor
  · show (getRole (b :: rest)).bind _ = none
    rw [hr, Option.bind_none]
  · show (getRole (b :: rest)).bind _ = none
    rw [hr, Option.bind_none]

/-- Settles O1: each descriptor evaluates. -/
theorem decodeOfSpecDescriptors : Obligations.DecodeOfSpecDescriptors := by
  unfold Obligations.DecodeOfSpecDescriptors
  decide

/-- Settles O5. -/
theorem stepRunsDecoded : Obligations.StepRunsDecoded :=
  ⟨fun _ _ _ => step_of_decode, fun _ => step_of_input_nil⟩

end Sys2Proof.Machine

/-! The phase after every operation (spec/44_sequencer.md R242, spec/60_exceptions.md R278): no action writes `phase`, so only the
few writes of the composite operations show, and an error keeps what was written before it. -/

namespace Sys2Proof.Machine

open Sys2Proof

/-! ## The phase a form ends in -/

/-- A form that leaves one phase where it succeeds and another where it raises an error. -/
def endsIn {α : Type} (r : Res α) (ok err : Phase) : Prop :=
  match r with
  | .ok _ u => u.phase = ok
  | .err _ u => u.phase = err

theorem endsIn_of_phase_eq {α : Type} {r : Res α} {p : Phase} (h : r.state.phase = p) : endsIn r p p := by
  cases r <;> exact h

theorem endsIn_bind {α β : Type} {r : Res α} {f : α → State → Res β} {ok err : Phase} (h : r.state.phase = err)
    (hf : ∀ a u, u.phase = err → endsIn (f a u) ok err) : endsIn (r.bind f) ok err := by
  cases r with
  | ok a u => exact hf a u h
  | err e u => exact h

theorem endsIn_map {α β : Type} {f : α → β} {r : Res α} {ok err : Phase} (h : endsIn r ok err) :
    endsIn (r.map f) ok err := by
  cases r <;> exact h

/-- What an action-made form did before the phase is written. -/
theorem endsIn_thenSetPhase {α : Type} {r : Res α} {p q : Phase} (h : r.state.phase = p) :
    endsIn (r.bind fun _ u => .ok () (u.setPhase q)) q p :=
  endsIn_bind h fun _ _ _ => rfl

theorem endsIn_sessionOpen (s : State) : endsIn (sessionOpen s) .reset s.phase :=
  have h := phase_actions
  endsIn_bind (h.lineAcquire _ _ s) fun _ _ h1 => endsIn_bind ((h.spiOpen _ _ _ _ _).trans h1) fun _ _ h2 =>
    endsIn_thenSetPhase ((h.resetSteps _ _).trans h2)

theorem endsIn_initializePanel (s : State) : endsIn (initializePanel s) .initialized s.phase :=
  endsIn_thenSetPhase (phase_actions.applyTable (fun _ _ => rfl) _ s)

theorem endsIn_sleep (s : State) : endsIn (sleep s) .sleeping s.phase := by
  have h := phase_actions
  refine endsIn_bind (h.sendCommand _ s) fun _ u h1 => endsIn_bind (Eq.trans ?_ h1) fun _ _ h2 =>
    endsIn_bind ((h.sendCommand _ _).trans h2) fun _ v h3 => endsIn_thenSetPhase (Eq.trans ?_ h3)
  · split
    · simpa using h.waitConfigured _ u
    · rfl
  · split
    · exact h.sendData _ v
    · rfl

/-- What REFRESH does once its frames are checked (R234). -/
def refreshBody (c : Cfg) (old new : Framebuffer) (s : State) : Res Unit :=
  (sendCommand c.oldDataCmd (s.setPhase .refreshing)).bind fun _ s =>
  (sendData old.bytes s).bind fun _ s =>
  (sendCommand c.newDataCmd s).bind fun _ s =>
  (sendData new.bytes s).bind fun _ s =>
  (sendCommand c.refreshCmd s).bind fun _ s =>
  (waitConfigured stageRefresh s).bind fun _ s =>
  .ok () (s.setPhase .initialized)

/-- What a stream does once its operands are checked (R238, R239). -/
def streamRun (win : Window) (chunks : Build → List (List Byte)) (n : Nat) (s : State) : Res Unit :=
  (windowSet win (s.setPhase .streaming)).bind fun _ s =>
  (streamBody (chunks s.build) n s).bind fun _ s =>
  .ok () (s.setPhase .initialized)

theorem endsIn_refreshBody (c : Cfg) (old new : Framebuffer) (s : State) :
    endsIn (refreshBody c old new s) .initialized .refreshing :=
  have h := phase_actions
  endsIn_bind (h.sendCommand _ _) fun _ _ h1 => endsIn_bind ((h.sendData _ _).trans h1) fun _ _ h2 =>
    endsIn_bind ((h.sendCommand _ _).trans h2) fun _ _ h3 => endsIn_bind ((h.sendData _ _).trans h3) fun _ _ h4 =>
    endsIn_bind ((h.sendCommand _ _).trans h4) fun _ _ h5 => endsIn_thenSetPhase ((h.waitConfigured _ _).trans h5)

theorem endsIn_streamRun (win : Window) (chunks : Build → List (List Byte)) (n : Nat) (s : State) :
    endsIn (streamRun win chunks n s) .initialized .streaming :=
  have h := phase_actions
  endsIn_bind (h.windowSet _ _) fun _ _ h1 =>
    endsIn_thenSetPhase ((h.streamBody (fun _ _ => rfl) _ _ _).trans h1)

/-! ## Where an error comes from -/

/-- What an operation raises in its validation: a ConfigError, nothing done (R280). -/
def rejects {α : Type} (s : State) (r : Res α) : Prop := ∃ e, e.kind = .configError ∧ r = .err e s

/-- What an operation raises after its validation: no ConfigError, or an event came before it. -/
def raisesLate {α : Type} (s : State) (r : Res α) : Prop :=
  ∀ e u, r = .err e u → e.kind ≠ .configError ∨ u.trace ≠ s.trace

/-- A frame is never empty but where it carries no byte (R152). -/
theorem framedEvents_ne_nil (c : Cfg) (dcl : Bit) (op : Byte) : framedEvents c dcl [op] ≠ [] := by
  unfold framedEvents
  cases c.csMode <;> simp

/-- A form whose first part raises no ConfigError and appends an event where it succeeds. -/
theorem raisesLate_bind {α β : Type} {s : State} {r : Res α} {f : α → State → Res β}
    (hkind : ∀ e u, r = .err e u → e.kind ≠ .configError)
    (hev : ∀ a u, r = .ok a u → ∃ es, es ≠ [] ∧ u.trace = s.trace ++ es) (hf : ∀ a u, kept u (f a u).state) :
    raisesLate s (r.bind f) := by
  intro e u he
  rcases Res.bind_eq_err.mp he with hr | ⟨a, v, hr, hfv⟩
  · exact .inl (hkind e u hr)
  · obtain ⟨es, hne, hes⟩ := hev a v hr
    obtain ⟨-, -, -, -, -, -, fs, hfs, -⟩ := hf a v
    rw [hfv, Res.state_err, hes, List.append_assoc] at hfs
    refine .inr fun hu => hne ?_
    rw [hfs] at hu
    exact (List.append_eq_nil_iff.mp (List.append_right_eq_self.mp hu)).1

/-- REFRESH raises a ConfigError late only where its interval is 0, and then its commands are sent. -/
theorem raisesLate_refreshBody (c : Cfg) (old new : Framebuffer) (s : State) :
    raisesLate s (refreshBody c old new s) :=
  have h := kept_actions
  raisesLate_bind (fun _ _ => framedWrite_kind)
    (fun _ _ hc => ⟨_, framedEvents_ne_nil _ _ _, (framedWrite_trace hc).1⟩) fun _ v =>
    h.bind (h.sendData _ v) fun _ _ _ => h.bind (h.sendCommand _ _) fun _ _ _ => h.bind (h.sendData _ _) fun _ _ _ =>
    h.bind (h.sendCommand _ _) fun _ _ _ => h.bind (h.waitConfigured _ _) fun _ _ _ => kept_setPhase _ _

theorem raisesLate_streamRun (win : Window) (chunks : Build → List (List Byte)) (n : Nat) (s : State) :
    raisesLate s (streamRun win chunks n s) := by
  intro e u he
  simp only [streamRun, Res.bind_eq_err, reduceCtorEq, and_false, exists_false, or_false] at he
  rcases he with he | ⟨_, _, _, he⟩
  · exact .inl (windowSet_kind he)
  · exact .inl (streamBody_kind he)

/-! ## The operations with a validation -/

theorem refresh_cases (old new : Framebuffer) (s : State) :
    rejects s (refresh old new s) ∨ refresh old new s = refreshBody s.cfg old new s := by
  have check (f : Framebuffer) : frameCheck s.cfg f = .ok () ∨
      ∃ e, e.kind = .configError ∧ frameCheck s.cfg f = .error e := by
    by_cases hf : frameFits s.cfg f
    · exact .inl (frameCheck_iff.mpr hf)
    · exact .inr ⟨_, rfl, frameCheck_error hf⟩
  unfold refresh
  simp only
  split
  · exact .inl ⟨_, rfl, rfl⟩
  · rcases check old with ho | ⟨e, he, ho⟩
    · rcases check new with hn | ⟨e, he, hn⟩
      · rw [ho, Res.ofExcept_ok, Res.bind_ok, hn, Res.ofExcept_ok, Res.bind_ok]
        exact .inr rfl
      · rw [ho, Res.ofExcept_ok, Res.bind_ok, hn]
        exact .inl ⟨e, he, rfl⟩
    · rw [ho]
      exact .inl ⟨e, he, rfl⟩

/-- WINDOW_CHECK answers the count or its ConfigError (R200). -/
theorem windowCheck_cases (w h : Nat) (win : Window) :
    windowCheck w h win = .ok (windowCount win) ∨ windowCheck w h win = .error errWindowOutOfBounds := by
  unfold windowCheck
  split
  · exact .inl rfl
  · exact .inr rfl

theorem streamPixels_cases (win : Window) (pixels : List Byte) (s : State) :
    rejects s (streamPixels win pixels s) ∨
      streamPixels win pixels s = streamRun win (fun _ => [pixels]) (windowCount win) s := by
  unfold streamPixels
  simp only
  split
  · exact .inl ⟨_, rfl, rfl⟩
  · rcases windowCheck_cases s.cfg.panelWidth s.cfg.panelHeight win with hw | hw
    · rw [hw, Res.ofExcept_ok, Res.bind_ok]
      split
      · exact .inl ⟨_, rfl, rfl⟩
      · exact .inr rfl
    · rw [hw]
      exact .inl ⟨_, rfl, rfl⟩

theorem streamFill_cases (win : Window) (color : U16) (s : State) :
    rejects s (streamFill win color s) ∨
      streamFill win color s =
        streamRun win (fun b => fillChunks b.chunkPixels color (windowCount win)) (windowCount win) s := by
  unfold streamFill
  simp only
  split
  · exact .inl ⟨_, rfl, rfl⟩
  · rcases windowCheck_cases s.cfg.panelWidth s.cfg.panelHeight win with hw | hw
    · rw [hw, Res.ofExcept_ok, Res.bind_ok]
      exact .inr rfl
    · rw [hw]
      exact .inl ⟨_, rfl, rfl⟩

/-! ## Every operation -/

/-- An operation that holds no phase of its own inside: R242's phase where it succeeds, its first phase where it fails. -/
theorem form_endsIn {i : Instr} (hi : phaseInside i = none) (s : State) :
    endsIn (form i s) (phaseAfter i s.phase) s.phase := by
  have h := phase_actions
  cases i with
  | lineAcquire chip specs => exact endsIn_map (endsIn_of_phase_eq (h.lineAcquire chip specs s))
  | lineSet r v => exact endsIn_map (endsIn_of_phase_eq (h.lineSet r v s))
  | lineGet r => exact endsIn_map (endsIn_of_phase_eq (h.lineGet r s))
  | lineRelease => exact h.lineRelease s
  | spiOpen path clockHz mode bits => exact endsIn_map (endsIn_of_phase_eq (h.spiOpen path clockHz mode bits s))
  | spiWrite data => exact endsIn_map (endsIn_of_phase_eq (h.spiWrite data s))
  | spiClose => exact h.spiClose s
  | delay d => exact h.delay s d
  | sendCommand op => exact endsIn_map (endsIn_of_phase_eq (h.sendCommand op s))
  | sendData data => exact endsIn_map (endsIn_of_phase_eq (h.sendData data s))
  | waitReady p interval timeout stage => exact endsIn_map (endsIn_of_phase_eq (h.waitReady p interval timeout stage s))
  | fbCheck | encodeMono | decodeMono | encodeRgb565 | windowCheck =>
    exact endsIn_map (endsIn_of_phase_eq (r := Res.ofExcept s _) (by rw [Res.state_ofExcept]; rfl))
  | fillChunks => exact h.refl s
  | initApply table => exact endsIn_map (endsIn_of_phase_eq (h.applyTable (fun _ _ => rfl) table s))
  | sessionOpen => exact endsIn_map (endsIn_sessionOpen s)
  | initializePanel => exact endsIn_map (endsIn_initializePanel s)
  | refresh | streamPixels | streamFill => cases hi
  | sleep => exact endsIn_map (endsIn_sleep s)
  | teardown => exact teardown_phase s

/-- An operation with a phase inside: its validation rejects it, or it leaves that phase where it fails, and fails late. -/
theorem form_inside {i : Instr} {p : Phase} (hi : phaseInside i = some p) (s : State) :
    rejects s (form i s) ∨ (endsIn (form i s) (phaseAfter i s.phase) p ∧ raisesLate s (form i s)) := by
  have lift {r : Res Unit} (hr : rejects s r ∨ (endsIn r .initialized p ∧ raisesLate s r)) :
      rejects s (r.map fun _ => Result.ok) ∨
        (endsIn (r.map fun _ => Result.ok) .initialized p ∧ raisesLate s (r.map fun _ => Result.ok)) := by
    rcases hr with ⟨e, he, rfl⟩ | ⟨h1, h2⟩
    · exact .inl ⟨e, he, rfl⟩
    · exact .inr ⟨endsIn_map h1, fun e u he => h2 e u (Res.map_eq_err.mp he)⟩
  cases i <;> cases hi
  case refresh old new =>
    refine lift ((refresh_cases old new s).imp_right fun h => ?_)
    rw [h]
    exact ⟨endsIn_refreshBody _ _ _ _, raisesLate_refreshBody _ _ _ _⟩
  case streamPixels win pixels =>
    refine lift ((streamPixels_cases win pixels s).imp_right fun h => ?_)
    rw [h]
    exact ⟨endsIn_streamRun _ _ _ _, raisesLate_streamRun _ _ _ _⟩
  case streamFill win color =>
    refine lift ((streamFill_cases win color s).imp_right fun h => ?_)
    rw [h]
    exact ⟨endsIn_streamRun _ _ _ _, raisesLate_streamRun _ _ _ _⟩

/-- The end of an operation that returned no error is that of a form that succeeded. -/
theorem conclude_value {s : State} {r : Res Result} {v : Result} (hv : (conclude s r).result = some v)
    (hne : isErrorResult v = false) : ∃ u, r = .ok v u := by
  cases r with
  | ok w u =>
    obtain rfl : w = v := by simpa using hv
    exact ⟨u, rfl⟩
  | err e u =>
    obtain rfl : Result.error e = v := by simpa using hv
    cases hne

/-- The end of an operation that returned an error is that of a form that raised it. -/
theorem conclude_error {i : Instr} {s₀ s : State} {e : ErrRec} (h : (conclude s₀ (form i s)).result = some (.error e)) :
    ∃ u, form i s = .err e u := by
  cases hr : form i s with
  | ok w u =>
    rw [hr, conclude_ok, State.setResult_result, Option.some.injEq] at h
    have hv := form_value hr
    rw [h] at hv
    cases hv
  | err e' u =>
    rw [hr, conclude_err, deliver_result, Option.some.injEq, Result.error.injEq] at h
    exact ⟨u, by rw [h]⟩

theorem appended_of_kept {s u : State} (h : kept s u) (e : ErrRec) :
    appended s (deliver s u e) = [.error e] ↔ u.trace = s.trace := by
  obtain ⟨-, -, -, -, -, -, es, hes, -⟩ := h
  rw [appended_of_trace (es := es ++ [.error e]) (by rw [deliver_trace, hes, List.append_assoc]), hes]
  simp

/-- Settles O57: the gate's error changes no phase; past the gate the phase is where the operation's form ended. -/
theorem phaseTransitions : Obligations.PhaseTransitions := by
  intro i s t hx
  rcases exec_next hx with ⟨-, rfl⟩ | ⟨-, -, rfl⟩
  · refine ⟨fun v hv hne => ?_, fun e he => ⟨fun _ => rfl, fun p _ => ⟨fun hlate => ?_, fun _ => rfl⟩⟩⟩
    · obtain rfl : Result.error errInvalidState = v := by simpa [rejected] using hv
      cases hne
    · obtain rfl : errInvalidState = e := by simpa [rejected] using he
      have : appended s (rejected s errInvalidState) = [.error errInvalidState] := appended_of_trace rfl
      exact absurd hlate (not_or.mpr ⟨not_not.mpr this, not_not.mpr rfl⟩)
  · refine ⟨fun v hv hne => ?_, fun e he => ?_⟩
    · obtain ⟨u, hu⟩ := conclude_value hv hne
      rw [hu, conclude_ok, State.setResult_phase]
      cases hi : phaseInside i with
      | none => simpa [hu, endsIn] using form_endsIn hi s
      | some p =>
        have hin := form_inside hi s
        rw [hu] at hin
        rcases hin with ⟨_, _, he⟩ | ⟨hp, -⟩
        · cases he
        · exact hp
    · obtain ⟨u, hu⟩ := conclude_error he
      have hk := kept_form i s
      rw [hu, Res.state_err] at hk
      rw [hu, conclude_err, deliver_phase, Ne, appended_of_kept hk]
      refine ⟨fun hi => by simpa [hu, endsIn] using form_endsIn hi s, fun p hi => ?_⟩
      rcases form_inside hi s with ⟨e', hk', he'⟩ | ⟨hp, hlate⟩
      · rw [hu] at he'
        cases he'
        exact ⟨fun h => absurd h (by simp [hk']), fun _ => rfl⟩
      · rw [hu] at hp
        exact ⟨fun _ => hp, fun ⟨h1, h2⟩ => absurd (hlate e u hu) (by simp [h1, h2])⟩

end Sys2Proof.Machine

/-! Error delivery (spec/60_exceptions.md R270, R276): every error any form raises carries its kind's code, and an operation
appends one Error event at most, at its end. The trace only grows (spec/10_state.md R35). -/

namespace Sys2Proof.Machine

open Sys2Proof

/-! ## The code of an error (R270) -/

/-- The error's code is its kind's. -/
def coded (e : ErrRec) : Prop := e.code = kindCode e.kind

/-- Every error the form raises carries its kind's code. -/
def raisesCoded {α : Type} (r : Res α) : Prop := ∀ e u, r = .err e u → coded e

theorem raisesCoded_ok {α : Type} (a : α) (s : State) : raisesCoded (.ok a s) := by
  intro _ _ h
  cases h

theorem raisesCoded_err {α : Type} {e : ErrRec} (s : State) (h : coded e) : raisesCoded (.err e s : Res α) := by
  rintro _ _ ⟨⟩
  exact h

theorem raisesCoded_bind {α β : Type} {r : Res α} {f : α → State → Res β} (h : raisesCoded r)
    (hf : ∀ a u, raisesCoded (f a u)) : raisesCoded (r.bind f) := by
  intro e u he
  rcases Res.bind_eq_err.mp he with h1 | ⟨a, v, -, h1⟩
  · exact h e u h1
  · exact hf a v e u h1

theorem raisesCoded_map {α β : Type} {f : α → β} {r : Res α} (h : raisesCoded r) : raisesCoded (r.map f) :=
  fun e u he => h e u (Res.map_eq_err.mp he)

/-! ## Lines, transport, framer -/

theorem raisesCoded_lineSet (r : Role) (v : Bit) (s : State) : raisesCoded (lineSet r v s) := by
  rcases lineSet_spec r v s with ⟨-, h⟩ | ⟨-, -, h⟩ | ⟨-, -, h⟩ <;> rw [h]
  · exact raisesCoded_err s rfl
  · exact raisesCoded_err s rfl
  · exact raisesCoded_ok _ _

theorem raisesCoded_lineGet (r : Role) (s : State) : raisesCoded (lineGet r s) := by
  rcases lineGet_spec r s with ⟨-, h⟩ | ⟨-, -, h⟩ | ⟨-, -, h⟩ <;> rw [h]
  · exact raisesCoded_err s rfl
  · exact raisesCoded_err s rfl
  · exact raisesCoded_ok _ _

theorem raisesCoded_spiWrite (data : List Byte) (s : State) : raisesCoded (spiWrite data s) := by
  rcases spiWrite_spec data s with ⟨-, h⟩ | ⟨-, -, h⟩ | ⟨-, _, -, h⟩ <;> rw [h]
  · exact raisesCoded_err s rfl
  · exact raisesCoded_ok _ _
  · exact raisesCoded_err _ rfl

theorem raisesCoded_lineAcquire (chip : Text) (specs : List LineSpec) (s : State) :
    raisesCoded (lineAcquire chip specs s) := by
  obtain ⟨env, -, ⟨e, hk, hc, h⟩ | ⟨-, -, h⟩⟩ := lineAcquire_spec chip specs s <;> rw [h]
  · exact raisesCoded_err _ (by rw [coded, hk, hc]; rfl)
  · exact raisesCoded_ok _ _

theorem raisesCoded_spiOpen (path : Text) (clockHz mode bits : Nat) (s : State) :
    raisesCoded (spiOpen path clockHz mode bits s) := by
  rcases spiOpen_spec path clockHz mode bits s with ⟨-, h⟩ | ⟨-, -, h⟩ | ⟨-, -, -, h⟩ | ⟨-, -, -, -, -, -, h⟩ |
    ⟨-, -, -, -, -, -, h⟩ <;> rw [h]
  · exact raisesCoded_err _ rfl
  · exact raisesCoded_err _ rfl
  · exact raisesCoded_err _ rfl
  · exact raisesCoded_err _ rfl
  · exact raisesCoded_ok _ _

theorem raisesCoded_framedBytes (a dcl : Bit) : ∀ (data : List Byte) (first : Bool) (s : State),
    raisesCoded (framedBytes a dcl first data s)
  | [], _, s => raisesCoded_ok () s
  | b :: rest, first, s => by
    refine raisesCoded_bind (raisesCoded_lineSet _ _ s) fun _ u => raisesCoded_bind ?_ fun _ _ =>
      raisesCoded_bind (raisesCoded_spiWrite _ _) fun _ _ => raisesCoded_bind (raisesCoded_lineSet _ _ _) fun _ _ =>
      raisesCoded_framedBytes a dcl rest false _
    cases first
    · exact raisesCoded_ok _ _
    · exact raisesCoded_lineSet _ _ u

theorem raisesCoded_framedWrite (dcl : Bit) (data : List Byte) (s : State) : raisesCoded (framedWrite dcl data s) := by
  unfold framedWrite
  cases s.cfg.csMode
  · exact raisesCoded_bind (raisesCoded_lineSet _ _ s) fun _ _ => raisesCoded_spiWrite _ _
  · exact raisesCoded_bind (raisesCoded_lineSet _ _ s) fun _ _ => raisesCoded_bind (raisesCoded_lineSet _ _ _) fun _ _ =>
      raisesCoded_bind (raisesCoded_spiWrite _ _) fun _ _ => raisesCoded_lineSet _ _ _
  · exact raisesCoded_framedBytes _ _ data true s

/-! ## The busy-wait and the sequencer's forms -/

theorem raisesCoded_pollLoop (busy : Bit) (interval timeout : Nat) (stage : Text) (t0 : Nat) : ∀ (fuel : Nat) (s : State),
    raisesCoded (pollLoop busy interval timeout stage t0 fuel s)
  | 0, s => raisesCoded_err s rfl
  | fuel + 1, s => by
    refine raisesCoded_bind (raisesCoded_lineGet _ s) fun v u => ?_
    simp only
    split
    · exact raisesCoded_ok _ _
    · split
      · exact raisesCoded_err _ rfl
      · exact raisesCoded_pollLoop busy interval timeout stage t0 fuel _

theorem raisesCoded_waitReady (p : Polarity) (interval timeout : Nat) (stage : Text) (s : State) :
    raisesCoded (waitReady p interval timeout stage s) := by
  unfold waitReady
  split
  · exact raisesCoded_err s rfl
  · exact raisesCoded_pollLoop _ _ _ _ _ _ _

theorem raisesCoded_waitConfigured (stage : Text) (s : State) : raisesCoded (waitConfigured stage s) :=
  raisesCoded_waitReady _ _ _ stage s

theorem raisesCoded_applyEntry (e : Entry) (s : State) : raisesCoded (applyEntry e s) := by
  unfold applyEntry
  split
  · exact raisesCoded_err s rfl
  · refine raisesCoded_bind (raisesCoded_framedWrite _ _ s) fun _ u => raisesCoded_bind ?_ fun _ v =>
      raisesCoded_bind ?_ fun _ _ => raisesCoded_ok _ _
    · split
      · exact raisesCoded_framedWrite _ _ u
      · exact raisesCoded_ok _ u
    · split
      · exact raisesCoded_map (raisesCoded_waitConfigured _ v)
      · exact raisesCoded_ok _ v

/-- The index an error gets in a table changes neither its kind nor its code (R274). -/
theorem raisesCoded_withEntry {α : Type} {r : Res α} (i : Nat) (h : raisesCoded r) :
    raisesCoded (r.mapErr (withEntry i)) := by
  cases r with
  | ok a s => exact raisesCoded_ok a s
  | err e s => exact raisesCoded_err s (h e s rfl)

theorem raisesCoded_applyEntries : ∀ (i : Nat) (table : List Entry) (s : State), raisesCoded (applyEntries i table s)
  | _, [], _ => raisesCoded_ok () _
  | i, e :: rest, _ =>
    raisesCoded_bind (raisesCoded_withEntry i (raisesCoded_applyEntry e _)) fun _ _ =>
      raisesCoded_applyEntries (i + 1) rest _

theorem raisesCoded_applyTable (table : List Entry) (s : State) : raisesCoded (applyTable table s) :=
  raisesCoded_bind (raisesCoded_applyEntries 1 table s) fun _ _ => raisesCoded_ok _ _

theorem raisesCoded_resetSteps : ∀ (steps : List ResetStep) (s : State), raisesCoded (resetSteps steps s)
  | [], s => raisesCoded_ok () s
  | _ :: rest, s => raisesCoded_bind (raisesCoded_lineSet _ _ s) fun _ _ => raisesCoded_resetSteps rest _

theorem raisesCoded_windowSet (win : Window) (s : State) : raisesCoded (windowSet win s) := by
  have cmd := raisesCoded_framedWrite
  refine raisesCoded_bind (cmd _ _ s) fun _ _ => raisesCoded_bind (cmd _ _ _) fun _ _ =>
    raisesCoded_bind (cmd _ _ _) fun _ _ => raisesCoded_bind (cmd _ _ _) fun _ _ => ?_
  split
  · exact cmd _ _ _
  · exact raisesCoded_ok _ _

theorem raisesCoded_writePieces : ∀ (pieces : List (List Byte)) (s : State), raisesCoded (writePieces pieces s)
  | [], s => raisesCoded_ok () s
  | p :: rest, s => raisesCoded_bind (raisesCoded_spiWrite p s) fun _ _ => raisesCoded_writePieces rest _

theorem raisesCoded_streamCs (v : Bit) (s : State) : raisesCoded (streamCs v s) := by
  unfold streamCs
  split
  · exact raisesCoded_lineSet _ _ s
  · exact raisesCoded_ok _ s

theorem raisesCoded_streamRun (win : Window) (chunks : Build → List (List Byte)) (n : Nat) (s : State) :
    raisesCoded (streamRun win chunks n s) :=
  raisesCoded_bind (raisesCoded_windowSet _ _) fun _ _ =>
    raisesCoded_bind (raisesCoded_bind (raisesCoded_streamCs _ _) fun _ _ =>
      raisesCoded_bind (raisesCoded_lineSet _ _ _) fun _ _ => raisesCoded_bind (raisesCoded_writePieces _ _) fun _ _ =>
      raisesCoded_streamCs _ _) fun _ _ => raisesCoded_ok _ _

theorem raisesCoded_refreshBody (c : Cfg) (old new : Framebuffer) (s : State) : raisesCoded (refreshBody c old new s) :=
  have cmd := raisesCoded_framedWrite
  raisesCoded_bind (cmd _ _ _) fun _ _ => raisesCoded_bind (cmd _ _ _) fun _ _ =>
    raisesCoded_bind (cmd _ _ _) fun _ _ => raisesCoded_bind (cmd _ _ _) fun _ _ =>
    raisesCoded_bind (cmd _ _ _) fun _ _ => raisesCoded_bind (raisesCoded_waitConfigured _ _) fun _ _ =>
    raisesCoded_ok _ _

theorem raisesCoded_sessionOpen (s : State) : raisesCoded (sessionOpen s) :=
  raisesCoded_bind (raisesCoded_lineAcquire _ _ s) fun _ _ => raisesCoded_bind (raisesCoded_spiOpen _ _ _ _ _) fun _ _ =>
    raisesCoded_bind (raisesCoded_resetSteps _ _) fun _ _ => raisesCoded_ok _ _

theorem raisesCoded_sleep (s : State) : raisesCoded (sleep s) := by
  have cmd := raisesCoded_framedWrite
  refine raisesCoded_bind (cmd _ _ s) fun _ u => raisesCoded_bind ?_ fun _ _ => raisesCoded_bind (cmd _ _ _) fun _ v =>
    raisesCoded_bind ?_ fun _ _ => raisesCoded_ok _ _
  · split
    · exact raisesCoded_map (raisesCoded_waitConfigured _ u)
    · exact raisesCoded_ok _ u
  · split
    · exact cmd _ _ v
    · exact raisesCoded_ok _ v

/-! ## The bit-packer's checks -/

theorem raisesCoded_ofExcept {α : Type} {x : Except ErrRec α} (s : State) (h : ∀ e, x = .error e → coded e) :
    raisesCoded (Res.ofExcept s x) := by
  cases x with
  | ok a => exact raisesCoded_ok a s
  | error e => exact raisesCoded_err s (h e rfl)

theorem coded_of_fbCheck {fb : Framebuffer} {e : ErrRec} (h : fbCheck fb = .error e) : coded e := by
  unfold fbCheck at h
  split_ifs at h <;> cases h <;> rfl

theorem coded_of_encodeMono {w h : Nat} {m : List Byte} {e : ErrRec} (he : encodeMono w h m = .error e) : coded e := by
  unfold encodeMono at he
  split_ifs at he <;> (cases he; rfl)

theorem coded_of_decodeMono {fb : Framebuffer} {e : ErrRec} (h : decodeMono fb = .error e) : coded e := by
  rw [decodeMono] at h
  cases hf : fbCheck fb with
  | error e' =>
    rw [hf] at h
    cases h
    exact coded_of_fbCheck hf
  | ok _ =>
    rw [hf] at h
    split_ifs at h
    cases h
    rfl

theorem coded_of_encodeRgb565 {w h : Nat} {cs : List U16} {e : ErrRec} (he : encodeRgb565 w h cs = .error e) :
    coded e := by
  unfold encodeRgb565 at he
  split_ifs at he <;> cases he
  all_goals rfl

theorem coded_of_windowCheck {w h : Nat} {win : Window} {e : ErrRec} (he : windowCheck w h win = .error e) : coded e := by
  unfold windowCheck at he
  split_ifs at he
  cases he
  rfl

/-! ## Every operation -/

theorem raisesCoded_refresh (old new : Framebuffer) (s : State) : raisesCoded (refresh old new s) := by
  by_cases hk : s.cfg.panelKind = .ePaper
  · have check (f : Framebuffer) (u : State) : raisesCoded (Res.ofExcept u (frameCheck s.cfg f)) := by
      refine raisesCoded_ofExcept u fun e he => ?_
      by_cases hf : frameFits s.cfg f
      · rw [frameCheck_iff.mpr hf] at he
        cases he
      · rw [frameCheck_error hf] at he
        cases he
        rfl
    simp only [refresh, hk, ne_eq, not_true_eq_false, if_false]
    exact raisesCoded_bind (check old s) fun _ u => raisesCoded_bind (check new u) fun _ v =>
      raisesCoded_refreshBody _ _ _ v
  · simp only [refresh, ne_eq, hk, not_false_eq_true, if_true]
    exact raisesCoded_err s rfl

theorem raisesCoded_streamPixels (win : Window) (pixels : List Byte) (s : State) :
    raisesCoded (streamPixels win pixels s) := by
  unfold streamPixels
  simp only
  split
  · exact raisesCoded_err s rfl
  · refine raisesCoded_bind (raisesCoded_ofExcept s fun _ => coded_of_windowCheck) fun n u => ?_
    split
    · exact raisesCoded_err u rfl
    · exact raisesCoded_streamRun win (fun _ => [pixels]) n u

theorem raisesCoded_streamFill (win : Window) (color : U16) (s : State) : raisesCoded (streamFill win color s) := by
  unfold streamFill
  simp only
  split
  · exact raisesCoded_err s rfl
  · exact raisesCoded_bind (raisesCoded_ofExcept s fun _ => coded_of_windowCheck) fun n u =>
      raisesCoded_streamRun win (fun b => fillChunks b.chunkPixels color n) n u

theorem raisesCoded_form (i : Instr) (s : State) : raisesCoded (form i s) := by
  cases i with
  | lineAcquire chip specs => exact raisesCoded_map (raisesCoded_lineAcquire chip specs s)
  | lineSet r v => exact raisesCoded_map (raisesCoded_lineSet r v s)
  | lineGet r => exact raisesCoded_map (raisesCoded_lineGet r s)
  | lineRelease | spiClose | delay | fillChunks | teardown => exact raisesCoded_ok _ _
  | spiOpen path clockHz mode bits => exact raisesCoded_map (raisesCoded_spiOpen path clockHz mode bits s)
  | spiWrite data => exact raisesCoded_map (raisesCoded_spiWrite data s)
  | sendCommand op => exact raisesCoded_map (raisesCoded_framedWrite _ _ s)
  | sendData data => exact raisesCoded_map (raisesCoded_framedWrite _ data s)
  | waitReady p interval timeout stage => exact raisesCoded_map (raisesCoded_waitReady p interval timeout stage s)
  | fbCheck fb => exact raisesCoded_map (raisesCoded_ofExcept s fun _ => coded_of_fbCheck)
  | encodeMono w h m => exact raisesCoded_map (raisesCoded_ofExcept s fun _ => coded_of_encodeMono)
  | decodeMono fb => exact raisesCoded_map (raisesCoded_ofExcept s fun _ => coded_of_decodeMono)
  | encodeRgb565 w h cs => exact raisesCoded_map (raisesCoded_ofExcept s fun _ => coded_of_encodeRgb565)
  | windowCheck w h win => exact raisesCoded_map (raisesCoded_ofExcept s fun _ => coded_of_windowCheck)
  | initApply table => exact raisesCoded_map (raisesCoded_applyTable table s)
  | sessionOpen => exact raisesCoded_map (raisesCoded_sessionOpen s)
  | initializePanel =>
    exact raisesCoded_map (raisesCoded_bind (raisesCoded_applyTable _ s) fun _ _ => raisesCoded_ok _ _)
  | refresh old new => exact raisesCoded_map (raisesCoded_refresh old new s)
  | streamPixels win pixels => exact raisesCoded_map (raisesCoded_streamPixels win pixels s)
  | streamFill win color => exact raisesCoded_map (raisesCoded_streamFill win color s)
  | sleep => exact raisesCoded_map (raisesCoded_sleep s)

/-! ## The statements -/

/-- The code of a kind, written out (R270). -/
theorem kindCode_eq (k : ErrKind) : kindCode k =
    (match k with
      | .resourceError => 1
      | .ioError => 2
      | .timeoutError => 3
      | .configError => 4) := by
  cases k <;> rfl

/-- An operation that had appended events poisons (R276). -/
theorem poisons_of_trace {s u : State} {es : List Event} (h : u.trace = s.trace ++ es) : poisons s u = !es.isEmpty := by
  cases es <;> simp [poisons, h]

/-- Settles O54: the gate's error comes before any event; a form appends no Error event, so delivery's is the only one. -/
theorem errorDelivery : Obligations.ErrorDelivery := by
  intro i s t hx
  rcases exec_next hx with ⟨-, rfl⟩ | ⟨-, -, rfl⟩
  · exact ⟨[], by simp, .inr ⟨errInvalidState, rfl, by simp [rejected], by simp [rejected], rfl, rfl⟩⟩
  · have hk := kept_form i s
    cases hf : form i s with
    | ok v u =>
      rw [hf, Res.state_ok] at hk
      obtain ⟨-, -, -, hp, hl, -, es, hes, hne⟩ := hk
      exact ⟨es, hne, .inl ⟨v, rfl, form_value hf, hes, hp, hl⟩⟩
    | err e u =>
      rw [hf, Res.state_err] at hk
      obtain ⟨-, -, -, hp, hl, -, es, hes, hne⟩ := hk
      refine ⟨es, hne, .inr ⟨e, rfl, by rw [conclude_err, deliver_trace, hes], ?_, rfl, ?_⟩⟩
      · rw [conclude_err, deliver_poisoned, hp, poisons_of_trace hes]
      · exact (raisesCoded_form i s e u hf).trans (kindCode_eq e.kind)

/-- An operation only appends to the trace, and leaves the configuration and the build parameters (R34, R35). -/
theorem exec_keeps {i : Instr} {s t : State} (h : exec i s = .next t) :
    s.trace <+: t.trace ∧ t.cfg = s.cfg ∧ t.build = s.build := by
  rcases exec_next h with ⟨-, rfl⟩ | ⟨-, -, rfl⟩
  · exact ⟨List.prefix_append _ _, rfl, rfl⟩
  · obtain ⟨hc, hb, -, -, -, -, es, hes, -⟩ := kept_form i s
    cases hf : form i s with
    | ok v u =>
      rw [hf, Res.state_ok] at hc hb hes
      exact ⟨⟨es, hes.symm⟩, hc, hb⟩
    | err e u =>
      rw [hf, Res.state_err] at hc hb hes
      exact ⟨⟨es ++ [.error e], by rw [conclude_err, deliver_trace, hes, List.append_assoc]⟩, hc, hb⟩

/-- A step stands still, or is an operation on the state without its descriptor (R5). -/
theorem step_next {s t : State} (h : step s = .next t) :
    t = s ∨ ∃ i rest, exec i (s.setInput rest) = .next t := by
  by_cases hne : s.input = []
  · rw [step_of_input_nil hne] at h
    cases h
    exact .inl rfl
  · cases hd : decode s.input with
    | none =>
      rw [step_of_decode_none hne hd] at h
      cases h
    | some x => exact .inr ⟨x.1, x.2, by rw [← step_of_decode hd, h]⟩

/-- Settles O55: a step is an operation on a state with the same trace and configuration. -/
theorem traceGrowsConfigurationStays : Obligations.TraceGrowsConfigurationStays := by
  intro s t h
  rcases step_next h with rfl | ⟨i, rest, hx⟩
  · exact ⟨List.prefix_rfl, rfl, rfl⟩
  · exact exec_keeps (s := s.setInput rest) hx

end Sys2Proof.Machine

/-! TEARDOWN (spec/44_sequencer.md R241), creation (spec/70_reset_and_hazards.md R300, spec/10_state.md R34) and the invariant of
the block. The invariant falls into parts that each action keeps on its own: the lines, the transport and the clock; the error
registers are written by delivery alone, and only TEARDOWN reaches Closed. -/

namespace Sys2Proof.Machine

open Sys2Proof

/-! ## TEARDOWN (R241) -/

theorem teardown_of_closed {s : State} (h : s.phase = .closed) : teardown s = s := if_pos h

theorem teardown_of_open {s : State} (h : s.phase ≠ .closed) :
    teardown s = (spiClose (lineRelease s)).setPhase .closed := if_neg h

/-- Settles O52: the lines are given back, then the transport closes. -/
theorem teardownReleasesAll : Obligations.TeardownReleasesAll := by
  intro s
  rw [exec_teardown]
  refine ⟨fun hc => by rw [teardown_of_closed hc]; rfl, fun hc => ⟨_, rfl, rfl, teardown_phase s, ?_⟩⟩
  obtain ⟨l, env, -, hl, -, -, hr⟩ := lineRelease_spec s
  rw [teardown_of_open hc, spiClose_eq, hr]
  exact ⟨rfl, hl, rfl, ⟨rfl, rfl, rfl⟩, rfl, rfl, rfl, rfl, rfl⟩

/-- What every action and the write of Closed keep, TEARDOWN keeps. -/
theorem Actions.teardown {R : State → State → Prop} (h : Actions R) (hp : ∀ s, R s (s.setPhase .closed)) (s : State) :
    R s (teardown s) := by
  by_cases hc : s.phase = .closed
  · rw [teardown_of_closed hc]
    exact h.refl s
  · rw [teardown_of_open hc]
    exact h.trans (h.trans (h.lineRelease s) (h.spiClose _)) (hp _)

/-! ## Reading a trace that grew -/

@[simp] theorem heldIn_append (r : Role) (t : List Event) (e : Event) : heldIn r (t ++ [e]) = heldAfter r (heldIn r t) e := by
  simp [heldIn]

@[simp] theorem drivenIn_append (r : Role) (t : List Event) (e : Event) :
    drivenIn r (t ++ [e]) = drivenAfter r (drivenIn r t) e := by
  simp [drivenIn]

@[simp] theorem openIn_append (t : List Event) (e : Event) : openIn (t ++ [e]) = openAfter (openIn t) e := by
  simp [openIn]

@[simp] theorem errorIn_append (t : List Event) (e : Event) : errorIn (t ++ [e]) = errorAfter (errorIn t) e := by
  simp [errorIn]

@[simp] theorem elapsed_append (t : List Event) (e : Event) : elapsed (t ++ [e]) = elapsed t + eventTime e := by
  simp [elapsed]

/-- Events of which none is an Error leave the latest error (R28). -/
theorem errorIn_append_noError (t : List Event) : ∀ es : List Event, (∀ x ∈ es, isError x = false) →
    errorIn (t ++ es) = errorIn t := by
  intro es
  induction es using List.reverseRecOn with
  | nil => simp
  | append_singleton es e ih =>
    intro h
    have he : isError e = false := h e (by simp)
    rw [← List.append_assoc, errorIn_append, ih fun x hx => h x (by simp [hx])]
    cases e with
    | error x => cases he
    | _ => rfl

/-! ## The lines -/

/-- A line record that stays, under events that concern neither its being held nor its level. -/
theorem lineKept_of_eq {s t : State} {r : Role} (h : lineKept s r) (hl : t.line r = s.line r) (hc : t.cfg = s.cfg)
    (hh : heldIn r t.trace = heldIn r s.trace) (hd : drivenIn r t.trace = drivenIn r s.trace) : lineKept t r := by
  unfold lineKept
  rw [hl, hc, hh, hd]
  exact h

/-- Every line record is as the invariant says. -/
def linesKept (s : State) : Prop := ∀ r, lineKept s r

/-- A new level of a held output line is the level last set on it (R24). -/
theorem linesKept_afterSet {s : State} {r : Role} (v : Bit) (hk : linesKept s) : linesKept (afterSet s r v) := by
  intro q
  by_cases hq : q = r
  · subst hq
    obtain ⟨hdir, hact, hpres, hheld, -⟩ := hk q
    have hl : (afterSet s q v).line q = { s.line q with level := v } := State.setLine_line_same _ _ _
    unfold lineKept
    rw [hl]
    exact ⟨hdir, hact, hpres, by simp [heldAfter, hheld], fun _ _ => by simp [drivenAfter]⟩
  · exact lineKept_of_eq (hk q) (State.setLine_line_ne _ _ hq) rfl (by simp [heldAfter])
      (by simp [drivenAfter, Ne.symm hq])

/-- A granted line has its role's fixed fields and the level of its Acquire event (R120). -/
theorem linesKept_grantLine {s : State} {sp : LineSpec} (hd : sp.direction = fixedDirection sp.role)
    (hp : rolePresent s.cfg sp.role = true) (hk : linesKept s) : linesKept (grantLine sp s) := by
  intro q
  by_cases hq : q = sp.role
  · subst hq
    have hl : (grantLine sp s).line sp.role =
        ⟨true, sp.offset, sp.direction, activeLevel s.cfg sp.role, sp.init⟩ := State.setLine_line_same _ _ _
    unfold lineKept
    rw [hl]
    refine ⟨hd, rfl, fun _ => hp, by simp [grantLine, heldAfter], fun _ ho => ?_⟩
    simp [grantLine, drivenAfter, hd, ho]
  · exact lineKept_of_eq (hk q) (State.setLine_line_ne _ _ hq) rfl (by simp [grantLine, heldAfter, Ne.symm hq])
      (by simp [grantLine, drivenAfter, Ne.symm hq])

/-- A line given back is not held, and its level is then free (R123). -/
theorem linesKept_release {s : State} {r : Role} (v : Bit) (hk : linesKept s) :
    linesKept ((s.setLine r { s.line r with acquired := false, level := v }).emit (.release r)) := by
  intro q
  by_cases hq : q = r
  · subst hq
    obtain ⟨hdir, hact, -, -, -⟩ := hk q
    unfold lineKept
    rw [State.emit_line, State.setLine_line_same]
    exact ⟨hdir, hact, by simp, by simp [heldAfter], by simp⟩
  · exact lineKept_of_eq (hk q) (State.setLine_line_ne _ _ hq) rfl (by simp [heldAfter, Ne.symm hq])
      (by simp [drivenAfter])

theorem linesKept_actions : Actions fun s t => linesKept s → linesKept t where
  refl _ := id
  trans h h' := h' ∘ h
  set _ _ v _ _ := linesKept_afterSet v
  get s r v _ _ hk q := lineKept_of_eq (hk q) rfl rfl (by simp [heldAfter]) (by simp [drivenAfter])
  write s bs c _ hk q := lineKept_of_eq (hk q) rfl rfl (by simp [heldAfter]) (by simp [drivenAfter])
  delay s d hk q := lineKept_of_eq (hk q) rfl rfl (by simp [heldAfter]) (by simp [drivenAfter])
  env s e _ hk q := hk q
  now s hk q := by rw [now_state]; exact hk q
  polls s n hk q := hk q
  grant _ _ hd hp := linesKept_grantLine hd hp
  release _ _ v _ := linesKept_release v
  opened s path clockHz mode bits _ _ _ _ hk q :=
    lineKept_of_eq (hk q) rfl rfl (by simp [heldAfter]) (by simp [drivenAfter])
  closed s _ hk q := lineKept_of_eq (hk q) rfl rfl (by simp [heldAfter]) (by simp [drivenAfter])

/-! ## The transport -/

/-- The transport is open exactly as the trace says, and then legally configured (R26, R124). -/
def transportKept (s : State) : Prop :=
  s.transport.isOpen = openIn s.trace ∧
    (s.transport.isOpen = true →
      s.transport.mode ≤ 3 ∧ s.transport.bitsPerWord = 8 ∧ 1 ≤ s.transport.clockHz ∧
        s.transport.bitOrder = s.cfg.spiBitOrder)

theorem transportKept_of_eq {s t : State} (h : transportKept s) (ht : t.transport = s.transport) (hc : t.cfg = s.cfg)
    (ho : openIn t.trace = openIn s.trace) : transportKept t := by
  unfold transportKept
  rw [ht, hc, ho]
  exact h

theorem transportKept_actions : Actions fun s t => transportKept s → transportKept t where
  refl _ := id
  trans h h' := h' ∘ h
  set s r v _ _ hk := transportKept_of_eq hk rfl rfl (by simp [openAfter])
  get s r v _ _ hk := transportKept_of_eq hk rfl rfl (by simp [openAfter])
  write s bs c _ hk := transportKept_of_eq hk rfl rfl (by simp [openAfter])
  delay s d hk := transportKept_of_eq hk rfl rfl (by simp [openAfter])
  env s e _ hk := hk
  now s hk := by rw [now_state]; exact hk
  polls s n hk := hk
  grant s sp _ _ hk := transportKept_of_eq hk rfl rfl (by simp [grantLine, openAfter])
  release s r v _ hk := transportKept_of_eq hk rfl rfl (by simp [openAfter])
  opened s path clockHz mode bits hm hb hz _ _ :=
    ⟨by simp [openAfter], fun _ => ⟨hm, hb, Nat.one_le_iff_ne_zero.mpr hz, rfl⟩⟩
  closed s _ _ := ⟨by simp [openAfter], by simp⟩

/-! ## The clock -/

/-- The clock is at least the sum of the delays, under Exact timing equal to it (R318). -/
def clockKept (s : State) : Prop :=
  elapsed s.trace ≤ s.env.clock ∧ (s.build.timing = .exact → s.env.clock = elapsed s.trace)

/-- An event whose duration the clock has moved by. -/
theorem clockKept_of_event {s t : State} {e : Event} (h : clockKept s) (ht : t.trace = s.trace ++ [e])
    (hb : t.build = s.build) (hc : t.env.clock = s.env.clock + eventTime e) : clockKept t := by
  obtain ⟨h1, h2⟩ := h
  unfold clockKept
  rw [ht, hb, hc, elapsed_append]
  exact ⟨Nat.add_le_add_right h1 _, fun hx => by rw [h2 hx]⟩

/-- Reading the time moves the clock only under Loose timing (R38). -/
theorem clockKept_now (s : State) (h : clockKept s) : clockKept (now s).2 := by
  obtain ⟨h1, h2⟩ := h
  have hclock : s.env.clock ≤ (now s).2.env.clock := by
    rw [(now_clock s).2]
    exact (now_clock s).1
  refine ⟨?_, fun hx => ?_⟩
  · rw [now_state]
    exact h1.trans hclock
  · have hx' : s.build.timing = .exact := by rwa [now_state] at hx
    rw [now_exact hx']
    exact h2 hx'

theorem clockKept_actions : Actions fun s t => clockKept s → clockKept t where
  refl _ := id
  trans h h' := h' ∘ h
  set s r v _ _ hk := clockKept_of_event hk rfl rfl rfl
  get s r v _ _ hk := clockKept_of_event hk rfl rfl rfl
  write s bs c _ hk := clockKept_of_event hk rfl rfl rfl
  delay s d hk := clockKept_of_event hk rfl rfl rfl
  env s e he hk := by
    unfold clockKept
    rw [State.setEnv_env, he]
    exact hk
  now := clockKept_now
  polls s n hk := hk
  grant s sp _ _ hk := clockKept_of_event hk rfl rfl rfl
  release s r v _ hk := clockKept_of_event hk rfl rfl rfl
  opened s path clockHz mode bits _ _ _ _ hk := clockKept_of_event hk rfl rfl rfl
  closed s _ hk := clockKept_of_event hk rfl rfl rfl

/-! ## The error registers -/

/-- The registers of the latest error are as the trace says (R27, R28). -/
def errorsKept (s : State) : Prop :=
  s.lastError = errorIn s.trace ∧ (s.poisoned = true → s.lastError ≠ none)

/-- A form leaves them: it delivers no error. -/
theorem errorsKept_of_kept {s u : State} (hk : kept s u) (h : errorsKept s) : errorsKept u := by
  obtain ⟨-, -, -, hp, hl, -, es, hes, hne⟩ := hk
  obtain ⟨h1, h2⟩ := h
  unfold errorsKept
  rw [hl, hp, hes, errorIn_append_noError _ _ hne]
  exact ⟨h1, h2⟩

theorem errorsKept_deliver (s u : State) (e : ErrRec) : errorsKept (deliver s u e) :=
  ⟨by simp [errorAfter], fun _ => Option.some_ne_none e⟩

/-! ## Every operation -/

/-- A part of the invariant that a form, a value's return and a delivery keep, every operation keeps (R276, R277). -/
theorem exec_preserves {P : State → Prop} (hform : ∀ i s, P s → P (form i s).state) (hval : ∀ s v, P s → P (s.setResult v))
    (herr : ∀ s u e, P u → P (deliver s u e)) {i : Instr} {s t : State} (hx : exec i s = .next t) (hs : P s) : P t := by
  rcases exec_next hx with ⟨-, rfl⟩ | ⟨-, -, rfl⟩
  · rw [← deliver_self]
    exact herr s s _ hs
  · have hf := hform i s hs
    cases h : form i s with
    | ok v u =>
      rw [h] at hf
      exact hval u v hf
    | err e u =>
      rw [h] at hf
      exact herr s u e hf

theorem exec_linesKept {i : Instr} {s t : State} (hx : exec i s = .next t) (hs : linesKept s) : linesKept t := by
  refine exec_preserves (fun i s => ?_) (fun _ _ h => h) (fun s u e h q => ?_) hx hs
  · exact linesKept_actions.form (fun _ _ h => h) (fun _ _ h => h) (fun _ _ _ h => h)
      (linesKept_actions.teardown fun _ h => h) i s
  · exact lineKept_of_eq (h q) rfl rfl (by simp [heldAfter]) (by simp [drivenAfter])

theorem exec_transportKept {i : Instr} {s t : State} (hx : exec i s = .next t) (hs : transportKept s) :
    transportKept t := by
  refine exec_preserves (fun i s => ?_) (fun _ _ h => h) (fun s u e h => ?_) hx hs
  · exact transportKept_actions.form (fun _ _ h => h) (fun _ _ h => h) (fun _ _ _ h => h)
      (transportKept_actions.teardown fun _ h => h) i s
  · exact transportKept_of_eq h rfl rfl (by simp [openAfter])

theorem exec_clockKept {i : Instr} {s t : State} (hx : exec i s = .next t) (hs : clockKept s) : clockKept t := by
  refine exec_preserves (fun i s => ?_) (fun _ _ h => h) (fun s u e h => ?_) hx hs
  · exact clockKept_actions.form (fun _ _ h => h) (fun _ _ h => h) (fun _ _ _ h => h)
      (clockKept_actions.teardown fun _ h => h) i s
  · exact clockKept_of_event h rfl rfl rfl

theorem exec_errorsKept {i : Instr} {s t : State} (hx : exec i s = .next t) (hs : errorsKept s) : errorsKept t :=
  exec_preserves (fun i s => errorsKept_of_kept (kept_form i s)) (fun _ _ h => h)
    (fun s u e _ => errorsKept_deliver s u e) hx hs

/-! ## Closed -/

/-- A closed block holds nothing (R241). -/
def closedKept (s : State) : Prop :=
  s.phase = .closed → s.transport.isOpen = false ∧ ∀ r, (s.line r).acquired = false

/-- No other operation than TEARDOWN ends in Closed, whether it succeeds or fails. -/
theorem exec_phase_ne_closed {i : Instr} {s t : State} (hi : i ≠ .teardown) (hx : exec i s = .next t) :
    t.phase ≠ .closed := by
  have hs : s.phase ≠ .closed := fun hc => by rw [exec_of_closed hi hc] at hx; cases hx
  obtain ⟨hok, herr⟩ := phaseTransitions i s t hx
  obtain ⟨es, -, ⟨v, hv, hne, -⟩ | ⟨e, he, -⟩⟩ := errorDelivery i s t hx
  · rw [hok v hv hne]
    cases i <;> simp_all [phaseAfter]
  · obtain ⟨hnone, hsome⟩ := herr e he
    cases hp : phaseInside i with
    | none => rwa [hnone hp]
    | some p =>
      have hpc : p ≠ .closed := by
        cases i <;> cases hp <;> decide
      obtain ⟨hlate, hearly⟩ := hsome p hp
      by_cases hc : appended s t = [.error e] ∧ e.kind = .configError
      · rwa [hearly hc]
      · rwa [hlate (not_and_or.mp hc)]

theorem exec_closedKept {i : Instr} {s t : State} (hx : exec i s = .next t) (hs : closedKept s) : closedKept t := by
  by_cases hi : i = .teardown
  · subst hi
    obtain ⟨hc, ho⟩ := teardownReleasesAll s
    by_cases hp : s.phase = .closed
    · rw [hc hp] at hx
      cases hx
      exact hs
    · obtain ⟨t', ht', -, -, -, hl, htr, -⟩ := ho hp
      rw [ht'] at hx
      cases hx
      exact fun _ => ⟨by rw [htr], fun r => by rw [hl r]⟩
  · exact fun hc => absurd hc (exec_phase_ne_closed hi hx)

/-! ## The invariant -/

theorem blockInv_iff {s : State} : blockInv s ↔ (cfgLegal s.cfg = true ∧ buildLegal s.build = true) ∧ linesKept s ∧
    transportKept s ∧ errorsKept s ∧ closedKept s ∧ clockKept s := by
  unfold blockInv linesKept transportKept errorsKept closedKept clockKept
  constructor
  · rintro ⟨h1, h2, h3, h4, h5, h6, h7, h8, h9, h10⟩
    exact ⟨⟨h1, h2⟩, h3, ⟨h4, h5⟩, ⟨h6, h7⟩, h8, h9, h10⟩
  · rintro ⟨⟨h1, h2⟩, h3, ⟨h4, h5⟩, ⟨h6, h7⟩, h8, h9, h10⟩
    exact ⟨h1, h2, h3, h4, h5, h6, h7, h8, h9, h10⟩

theorem exec_blockInv {i : Instr} {s t : State} (hx : exec i s = .next t) (hs : blockInv s) : blockInv t := by
  obtain ⟨hlegal, hl, ht, he, hc, hk⟩ := blockInv_iff.mp hs
  obtain ⟨-, hcfg, hbuild⟩ := exec_keeps hx
  refine blockInv_iff.mpr ⟨?_, exec_linesKept hx hl, exec_transportKept hx ht, exec_errorsKept hx he,
    exec_closedKept hx hc, exec_clockKept hx hk⟩
  rwa [hcfg, hbuild]

/-- Settles O58: a step is an operation on a state that differs only in the bytes not yet taken, of which the invariant does not
speak. -/
theorem stepKeepsBlockInv : Obligations.StepKeepsBlockInv := by
  intro s t hs h
  rcases step_next h with rfl | ⟨i, rest, hx⟩
  · exact hs
  · exact exec_blockInv (s := s.setInput rest) hx hs

/-! ## Creation (R300) -/

theorem create_eq_some {c : Cfg} {b : Build} {s : State} (h : create c b = some s) :
    cfgLegal c = true ∧ buildLegal b = true ∧ s = State.created c b := by
  unfold create at h
  split at h
  · rename_i hl
    obtain ⟨h1, h2⟩ := Bool.and_eq_true_iff.mp hl
    exact ⟨h1, h2, (Option.some.inj h).symm⟩
  · cases h

theorem created_line (c : Cfg) (b : Build) (r : Role) : (State.created c b).line r = createdLine c r := by
  cases r <;> rfl

theorem created_blockInv {c : Cfg} {b : Build} (hc : cfgLegal c = true) (hb : buildLegal b = true) :
    blockInv (State.created c b) := by
  refine blockInv_iff.mpr ⟨⟨hc, hb⟩, fun r => ?_, ⟨rfl, nofun⟩, ⟨rfl, nofun⟩, nofun, le_refl _, fun _ => rfl⟩
  unfold lineKept
  rw [created_line]
  exact ⟨rfl, rfl, nofun, rfl, nofun⟩

/-- Settles O59: nothing is held or open at creation, and the trace is empty. -/
theorem creationMeetsBlockInv : Obligations.CreationMeetsBlockInv := by
  refine ⟨fun c b s h => ?_, created_blockInv (by decide) (by decide)⟩
  obtain ⟨hc, hb, rfl⟩ := create_eq_some h
  exact created_blockInv hc hb

/-- Settles O7. -/
theorem creationState : Obligations.CreationState := by
  intro c b hb
  refine ⟨fun hc => by simp [create, hc], fun hc => ⟨State.created c b, by simp [create, hc, hb], ?_⟩⟩
  exact ⟨rfl, rfl, rfl, rfl, rfl, rfl, rfl, rfl, rfl, rfl, fun r => by rw [created_line]; exact ⟨rfl, rfl, rfl, rfl⟩⟩

/-- There are two encodings. -/
theorem encoding_eq_rgb565_iff (e : Encoding) : e = .rgb565 ↔ e ≠ .mono1bpp := by
  cases e <;> simp

/-- Settles O6: R34's table for each panel kind; every condition is the Boolean of the same name. -/
theorem legalConfigurations : Obligations.LegalConfigurations := by
  intro c
  have hcs : c.csPresent = true ∨ c.csMode = .none ↔ (c.csPresent = false → c.csMode = .none) := by
    rw [← Bool.not_eq_true, or_iff_not_imp_left]
  unfold cfgLegal maxDim
  cases c.panelKind with
  | ePaper => simp [hcs, or_iff_not_imp_left, and_assoc]
  | tft => simp [hcs, encoding_eq_rgb565_iff, or_iff_not_imp_left, and_assoc]

end Sys2Proof.Machine

/-! The line set and the transport, operation by operation (spec/40_lines_transport.md R120 to R127): each statement is the gate,
one case of the internal form, and its end. -/

namespace Sys2Proof.Machine

open Sys2Proof

/-! ## The end of an operation -/

/-- An error raised after draws alone is delivered as one raised before any action (R276). -/
theorem deliver_setEnv (s : State) (env : Env) (e : ErrRec) :
    deliver s (s.setEnv env) e = { rejected s e with env := env } := by
  simp [deliver, rejected, poisons, State.setEnv]

/-- An error raised after an event poisons the block (R276). -/
theorem deliver_of_trace {s u : State} {es : List Event} (e : ErrRec) (ht : u.trace = s.trace ++ es) (hne : es ≠ []) :
    deliver s u e = { u with
      poisoned := true
      lastError := some e
      trace := s.trace ++ es ++ [.error e]
      result := some (.error e) } := by
  have hp : poisons s u = true := by
    rw [poisons_of_trace ht]
    cases es with
    | nil => exact absurd rfl hne
    | cons => rfl
  simp [deliver, hp, ht]

/-! ## LINE_ACQUIRE (R120) -/

theorem lineAcquire_of_duplicate (chip : Text) {specs : List LineSpec} (s : State) {r : Role}
    (h : duplicateRole specs = some r) : lineAcquire chip specs s = .err (errDuplicateLine r) s := by
  simp [lineAcquire, h]

theorem lineAcquire_of_specError (chip : Text) {specs : List LineSpec} {s : State} {e : ErrRec}
    (hd : specs.Pairwise apart) (h : specsError s specs = some e) : lineAcquire chip specs s = .err e s := by
  simp [lineAcquire, duplicateRole_eq_none.mpr hd, h]

/-- The chip that does not open, every check passed. -/
theorem lineAcquire_of_chip (chip : Text) {specs : List LineSpec} {s : State} {chips : List Bool}
    (hd : specs.Pairwise apart) (h : specsError s specs = none) (hc : s.env.chipOpens = false :: chips) :
    lineAcquire chip specs s =
      .err errChipOpen (s.setEnv { s.env with chipOpens := chips, drawn := s.env.drawn + 1 }) := by
  simp [lineAcquire, duplicateRole_eq_none.mpr hd, h, drawChipOpens, hc]

/-- The first offset owned elsewhere, every check passed and the chip open. -/
theorem lineAcquire_of_owned (chip : Text) {pre post : List LineSpec} {sp : LineSpec} {s : State} {chips owned : List Bool}
    (hd : (pre ++ sp :: post).Pairwise apart) (h : specsError s (pre ++ sp :: post) = none)
    (hc : s.env.chipOpens = true :: chips) (ho : s.env.offsetOwned = List.replicate pre.length false ++ true :: owned) :
    ∃ env, lineAcquire chip (pre ++ sp :: post) s = .err (errOffsetBusy sp.offset) (s.setEnv env) := by
  refine ⟨{ s.env with
    chipOpens := chips, offsetOwned := owned, drawn := s.env.drawn + 1 + (pre.length + 1) }, ?_⟩
  simp only [lineAcquire, duplicateRole_eq_none.mpr hd, h, drawChipOpens, hc, pick_cons, Bool.not_true,
    Bool.false_eq_true, if_false]
  rw [drawOwnership_busy sp post pre _ owned ?script]
  case script => exact ho
  rfl

/-- Settles O8: with every check passed and every draw favourable each line gets the record its spec asks for. -/
theorem lineAcquireGrants : Obligations.LineAcquireGrants := by
  intro s chip specs chips owned hg hd hs hc ho
  have hx := exec_lineAcquire hg
  rw [lineAcquire_ok chip hd hs hc ho] at hx
  refine ⟨_, hx, rfl, rfl, fun sp hsp => ?_, fun r hr => ?_, rfl, rfl, ⟨rfl, rfl, rfl⟩, rfl, rfl, rfl, rfl, rfl⟩
  · exact grantedLines_get s.cfg specs s.lines (hd.imp fun h => h.1) hsp
  · exact grantedLines_get_ne s.cfg specs s.lines hr

/-- Settles O9: every failure comes before the first grant. -/
theorem lineAcquireAllOrNothing : Obligations.LineAcquireAllOrNothing := by
  intro s t chip specs e hg hx ht
  rw [exec_lineAcquire hg] at hx
  obtain ⟨env, -, ⟨e', hk, hcode, he⟩ | ⟨-, -, hok⟩⟩ := lineAcquire_spec chip specs s
  · rw [he, Res.map_err, conclude_err, deliver_setEnv] at hx
    cases hx
    obtain rfl : e' = e := by simpa [rejected] using ht
    exact ⟨rfl, hk, hcode⟩
  · rw [hok] at hx
    cases hx
    cases ht

/-- An error LINE_ACQUIRE raises before any draw. -/
theorem exec_lineAcquire_err {s : State} {chip : Text} {specs : List LineSpec} {e : ErrRec}
    (hg : gateOpen (.lineAcquire chip specs) s) (h : lineAcquire chip specs s = .err e s) :
    exec (.lineAcquire chip specs) s = .next (rejected s e) := by
  rw [exec_lineAcquire hg, h, Res.map_err, conclude_err, deliver_self]

/-- Settles O10: the checks in R120's order, each found by the first spec that fails it. -/
theorem lineAcquireReasons : Obligations.LineAcquireReasons := by
  intro s chip pre mid post a b sp chips owned hg
  refine ⟨fun hp hx hc => ?_, fun hd hpre => ⟨fun hbad => ?_, fun hdir hpres hacq => ?_, fun hrest => ⟨fun hchip => ?_,
    fun hchip howned => ?_⟩⟩⟩
  · refine exec_lineAcquire_err (e := errDuplicateLine a.role) hg (lineAcquire_of_duplicate chip s ?_)
    rw [List.append_assoc]
    refine duplicateRole_first pre a _ hp hx ⟨b, by simp, fun hab => ?_⟩
    exact hc.elim hab.1 hab.2
  · refine exec_lineAcquire_err (e := errInvalidRole sp.role) hg (lineAcquire_of_specError chip hd
      (specsError_first ?_ pre hpre))
    rcases hbad with h | h
    · simp [specError, h]
    · simp [specError, h]
  · refine exec_lineAcquire_err (e := errAlreadyOwned sp.role) hg (lineAcquire_of_specError chip hd
      (specsError_first ?_ pre hpre))
    simp [specError, hdir, hpres, hacq]
  · have hall : specsError s (pre ++ sp :: post) = none :=
      specsError_eq_none.mpr fun x hx => (List.mem_append.mp hx).elim (hpre x) (hrest x)
    exact ⟨_, exec_lineAcquire (specs := pre ++ sp :: post) hg, by rw [lineAcquire_of_chip chip hd hall hchip]; rfl⟩
  · have hall : specsError s (pre ++ sp :: post) = none :=
      specsError_eq_none.mpr fun x hx => (List.mem_append.mp hx).elim (hpre x) (hrest x)
    obtain ⟨env, henv⟩ := lineAcquire_of_owned chip hd hall hchip howned
    exact ⟨_, exec_lineAcquire (specs := pre ++ sp :: post) hg, by rw [henv]; rfl⟩

/-! ## LINE_SET, LINE_GET, LINE_RELEASE (R121 to R123) -/

theorem lineSet_of_not_acquired {s : State} {r : Role} (v : Bit) (h : (s.line r).acquired = false) :
    lineSet r v s = .err (errNotAcquired r) s := by
  simp [lineSet, h]

theorem lineSet_of_input {s : State} {r : Role} (v : Bit) (h : (s.line r).acquired = true)
    (hd : (s.line r).direction = .input) : lineSet r v s = .err (errWrongDirection r) s := by
  simp [lineSet, h, hd]

theorem lineSet_of_output {s : State} {r : Role} (v : Bit) (h : (s.line r).acquired = true)
    (hd : (s.line r).direction = .output) : lineSet r v s = .ok () (afterSet s r v) := by
  simp [lineSet, h, hd, afterSet]

/-- Settles O11: the three cases of `line_set`. -/
theorem lineSetDrives : Obligations.LineSetDrives := by
  intro s r v hg
  rw [exec_lineSet hg]
  refine ⟨fun ha hd => ?_, fun ha => ?_, fun ha hd => ?_⟩
  · rw [lineSet_of_output v ha hd]
    rfl
  · rw [lineSet_of_not_acquired v ha, Res.map_err, conclude_err, deliver_self]
    rfl
  · rw [lineSet_of_input v ha hd, Res.map_err, conclude_err, deliver_self]
    rfl

theorem lineGet_of_not_acquired {s : State} {r : Role} (h : (s.line r).acquired = false) :
    lineGet r s = .err (errNotAcquired r) s := by
  simp [lineGet, h]

theorem lineGet_of_output {s : State} {r : Role} (h : (s.line r).acquired = true) (hd : (s.line r).direction = .output) :
    lineGet r s = .err (errWrongDirection r) s := by
  simp [lineGet, h, hd]

theorem lineGet_of_input {s : State} {r : Role} (h : (s.line r).acquired = true) (hd : (s.line r).direction = .input) :
    lineGet r s = .ok (drawBusy s).1 ((drawBusy s).2.emit (.lineGet r (drawBusy s).1)) := by
  simp [lineGet, h, hd]

/-- Settles O12: the three cases of `line_get`; the answer is the oldest scripted one where there is one. -/
theorem lineGetSamples : Obligations.LineGetSamples := by
  intro s r hg
  rw [exec_lineGet hg]
  refine ⟨fun ha hd => ⟨(drawBusy s).1, (drawBusy s).2.env, ?_, fun a rest hb => ?_⟩, fun ha => ?_, fun ha hd => ?_⟩
  · rw [lineGet_of_input ha hd]
    rfl
  · simp [drawBusy, hb]
  · rw [lineGet_of_not_acquired ha, Res.map_err, conclude_err, deliver_self]
    rfl
  · rw [lineGet_of_output ha hd, Res.map_err, conclude_err, deliver_self]
    rfl

/-- Where no line is held LINE_RELEASE changes nothing (R123). -/
theorem lineRelease_of_none_held {s : State} (h : ∀ r, (s.line r).acquired = false) : lineRelease s = s := by
  obtain ⟨l, env, -, -, hl, henv, hr⟩ := lineRelease_spec s
  have hlines : l = s.lines := Lines.ext_get fun r => hl r (h r)
  have hev : releaseEvents s = [] := by simp [releaseEvents, h]
  rw [hr, hlines, henv h, hev, List.append_nil]

/-- Settles O13: every held line is given back, after which none is held. -/
theorem lineReleaseReleasesAll : Obligations.LineReleaseReleasesAll := by
  intro s hg
  obtain ⟨l, env, -, hl, hsame, -, hr⟩ := lineRelease_spec s
  refine ⟨_, exec_lineRelease hg, rfl, ?_⟩
  rw [hr]
  refine ⟨rfl, hl, hsame, rfl, rfl, ⟨rfl, rfl, rfl⟩, ⟨rfl, rfl, rfl, rfl, rfl⟩, ?_⟩
  refine (exec_lineRelease ?_).trans ?_
  · exact hg
  · rw [lineRelease_of_none_held]
    · rfl
    · exact fun r => congrArg Line.acquired (hl r)

/-! ## The transport and DELAY (R124 to R127) -/

theorem spiOpen_of_open {s : State} (path : Text) (clockHz mode bits : Nat) (h : s.transport.isOpen = true) :
    spiOpen path clockHz mode bits s = .err errInvalidState s := by
  simp [spiOpen, h]

/-- A device that does not open. -/
theorem spiOpen_of_device {s : State} (path : Text) (clockHz mode bits : Nat) {ds : List Bool}
    (h : s.transport.isOpen = false) (hd : s.env.deviceOpens = false :: ds) :
    ∃ env, spiOpen path clockHz mode bits s = .err errOpen (s.setEnv env) :=
  ⟨_, by simp [spiOpen, h, drawDeviceOpens, hd]; rfl⟩

/-- A configuration that is illegal. -/
theorem spiOpen_of_illegal {s : State} (path : Text) {clockHz mode bits : Nat} {ds : List Bool}
    (h : s.transport.isOpen = false) (hd : s.env.deviceOpens = true :: ds) (hi : 3 < mode ∨ bits ≠ 8 ∨ clockHz = 0) :
    ∃ env, spiOpen path clockHz mode bits s = .err errConfigure (s.setEnv env) :=
  ⟨_, by
    simp only [spiOpen, h, drawDeviceOpens, hd, pick_cons, Bool.not_true, Bool.false_eq_true, if_false, gt_iff_lt, hi,
      if_true]
    rfl⟩

/-- A legal configuration the device refuses. -/
theorem spiOpen_of_refused {s : State} (path : Text) {clockHz mode bits : Nat} {ds as : List Bool}
    (h : s.transport.isOpen = false) (hd : s.env.deviceOpens = true :: ds) (hm : mode ≤ 3) (hb : bits = 8)
    (hz : 1 ≤ clockHz) (ha : s.env.deviceAccepts = false :: as) :
    ∃ env, spiOpen path clockHz mode bits s = .err errConfigure (s.setEnv env) := by
  have hi : ¬ (3 < mode ∨ bits ≠ 8 ∨ clockHz = 0) := by omega
  refine ⟨{ s.env with deviceOpens := ds, deviceAccepts := as, drawn := s.env.drawn + 1 + 1 }, ?_⟩
  simp only [spiOpen, h, drawDeviceOpens, hd, pick_cons, Bool.not_true, Bool.false_eq_true, if_false, gt_iff_lt, hi,
    drawDeviceAccepts, State.setEnv_env, ha, Bool.not_false, if_true]
  rfl

/-- Settles O14. -/
theorem spiOpenConfigures : Obligations.SpiOpenConfigures := by
  intro s path clockHz mode bits ds as hg ho hm hb hz hd ha
  rw [exec_spiOpen hg, spiOpen_ok path ho hm hb hz hd ha]
  rfl

/-- An error SPI_OPEN raises after draws alone. -/
theorem exec_spiOpen_err {s : State} {path : Text} {clockHz mode bits : Nat} {e : ErrRec}
    (hg : gateOpen (.spiOpen path clockHz mode bits) s)
    (h : ∃ env, spiOpen path clockHz mode bits s = .err e (s.setEnv env)) :
    ∃ env, exec (.spiOpen path clockHz mode bits) s = .next { rejected s e with env := env } := by
  obtain ⟨env, h⟩ := h
  exact ⟨env, by rw [exec_spiOpen hg, h, Res.map_err, conclude_err, deliver_setEnv]⟩

/-- Settles O15: the four ways to fail, none of which writes the transport. -/
theorem spiOpenFailures : Obligations.SpiOpenFailures := by
  intro s path clockHz mode bits ds as hg
  refine ⟨fun ho => ?_, fun ho => ⟨fun hd => ?_, fun hd hi => ?_, fun hd hm hb hz ha => ?_⟩⟩
  · rw [exec_spiOpen hg, spiOpen_of_open _ _ _ _ ho, Res.map_err, conclude_err, deliver_self]
    rfl
  · exact exec_spiOpen_err hg (spiOpen_of_device path clockHz mode bits ho hd)
  · exact exec_spiOpen_err hg (spiOpen_of_illegal path ho hd hi)
  · exact exec_spiOpen_err hg (spiOpen_of_refused path ho hd hm hb hz ha)

/-- An operation on bytes, of which there are some, is not refused (R125, R151). -/
theorem exec_spiWrite_of_ne_nil {s : State} {data : List Byte} (hg : gateOpen (.spiWrite data) s) (hne : data ≠ []) :
    exec (.spiWrite data) s = .next (conclude s ((spiWrite data s).map fun _ => .ok)) := by
  rw [exec_spiWrite hg, if_neg (by simpa using hne)]

/-- Settles O16. -/
theorem spiWriteSends : Obligations.SpiWriteSends := by
  intro s data ws hg hne ho hw
  rw [exec_spiWrite_of_ne_nil hg hne, spiWrite_ok data ho ⟨ws, hw.symm⟩]
  simp [afterWrite, hw, State.setResult]

theorem spiWrite_of_closed {s : State} (data : List Byte) (h : s.transport.isOpen = false) :
    spiWrite data s = .err errNotOpen s := by
  simp [spiWrite, h]

/-- Settles O17: no bytes are refused before the transport is looked at, and a failed write has its event. -/
theorem spiWriteFailures : Obligations.SpiWriteFailures := by
  intro s data k ws hg
  refine ⟨fun hd => by rw [exec_spiWrite hg, hd]; rfl, fun hne ho => ?_, fun ho hw hk => ?_⟩
  · rw [exec_spiWrite_of_ne_nil hg hne, spiWrite_of_closed data ho, Res.map_err, conclude_err, deliver_self]
    rfl
  · have hne : data ≠ [] := List.ne_nil_of_length_pos (Nat.zero_lt_of_lt hk)
    rw [exec_spiWrite_of_ne_nil hg hne, spiWrite_fail ho hw hk, Res.map_err, conclude_err,
      deliver_of_trace _ rfl (List.cons_ne_nil _ _)]
    simp [errShortWrite, errOf, kindCode]

/-- Settles O18. -/
theorem spiCloseCloses : Obligations.SpiCloseCloses := by
  intro s hg
  rw [exec_spiClose hg, spiClose_eq]
  rfl

/-- Settles O19. -/
theorem delayWaits : Obligations.DelayWaits := by
  intro s d hg
  rw [exec_delay hg]
  rfl

end Sys2Proof.Machine

/-! The command framer (spec/41_command_framer.md R150 to R156): what a framer call that succeeds appended, and every way one that
finds a gate open fails. In every CS mode a call starts the same way, which is where it fails but for a later write of
`PerByte`. -/

namespace Sys2Proof.Machine

open Sys2Proof

/-! ## Calls that succeed (R152 to R154, R156) -/

/-- SEND_DATA of some bytes with the gate open. -/
theorem exec_sendData_of_ne_nil {s : State} {data : List Byte} (hg : gateOpen (.sendData data) s) (hne : data ≠ []) :
    exec (.sendData data) s = .next (conclude s ((sendData data s).map fun _ => .ok)) := by
  rw [exec_sendData hg, if_neg (by simpa using hne)]

/-- Settles O20. -/
theorem sendCommandFrames : Obligations.SendCommandFrames := by
  intro s op hg hr hw
  rw [exec_sendCommand hg, sendCommand_ok op hr hw]
  rfl

/-- Settles O21. -/
theorem sendDataFrames : Obligations.SendDataFrames := by
  intro s data hg
  refine ⟨fun hne hr hw => ?_, fun hd => by rw [exec_sendData hg, hd]; rfl⟩
  rw [exec_sendData_of_ne_nil hg hne, sendData_ok hr hne hw]
  rfl

/-- A SEND_DATA that answers a next state and returns Ok had bytes to send: of none it is refused (R151). -/
theorem sendData_ne_nil {s t : State} {data : List Byte} (hx : exec (.sendData data) s = .next t)
    (ht : t.result = some .ok) : data ≠ [] := by
  rintro rfl
  rcases exec_next hx with ⟨-, rfl⟩ | ⟨hp, ha, -⟩
  · cases ht
  · have hg : gateOpen (.sendData []) s := ⟨hp.resolve_left nofun, ha⟩
    rw [exec_sendData hg] at hx
    cases hx

/-- What a successful framer call appended: the frame of some bytes (R150 to R152). -/
theorem framerCall_appended {s t : State} {op : Byte} {data : List Byte} (ht : t.result = some .ok)
    (hx : exec (.sendCommand op) s = .next t ∨ exec (.sendData data) s = .next t) :
    ∃ dcl sent, sent ≠ [] ∧ appended s t = framedEvents s.cfg dcl sent := by
  rcases hx with hx | hx
  · exact ⟨_, [op], by simp, appended_of_trace (exec_sendCommand_trace hx ht).1⟩
  · exact ⟨_, data, sendData_ne_nil hx ht, appended_of_trace (exec_sendData_trace hx ht).1⟩

/-- A frame sets DC once: the bytes after the first bring only sets of CS (R153). -/
theorem countP_isDcSet_framedEvents (c : Cfg) (dcl : Bit) {data : List Byte} (hne : data ≠ []) :
    (framedEvents c dcl data).countP isDcSet = 1 := by
  obtain ⟨b, rest, rfl⟩ := List.exists_cons_of_ne_nil hne
  unfold framedEvents
  cases c.csMode
  · simp [isDcSet, List.countP_cons]
  · simp [isDcSet, List.countP_cons]
  · have hrest : (rest.flatMap fun b => [Event.lineSet .cs c.csActiveLevel, .spiWrite [b] true,
        .lineSet .cs (!c.csActiveLevel)]).countP isDcSet = 0 := by
      rw [List.countP_eq_zero]
      intro e he
      obtain ⟨_, -, he⟩ := List.mem_flatMap.mp he
      simp only [List.mem_cons, List.not_mem_nil, or_false] at he
      rcases he with rfl | rfl | rfl <;> simp [isDcSet]
    simp [isDcSet, List.countP_cons, hrest]

/-- Settles O22. -/
theorem oneDcSetPerCall : Obligations.OneDcSetPerCall := by
  intro s t op data ht hx
  obtain ⟨dcl, sent, hne, happ⟩ := framerCall_appended ht hx
  rw [happ, countP_isDcSet_framedEvents s.cfg dcl hne]

/-- The start of a frame: in a CS mode the assertion of CS, then the set of DC and directly the first write (R154). -/
theorem framedEvents_start (c : Cfg) (dcl : Bit) {data : List Byte} (hne : data ≠ []) : ∃ pre post bs,
    framedEvents c dcl data = pre ++ [.lineSet .dc dcl, .spiWrite bs true] ++ post ∧
      (pre = [] ∨ pre = [.lineSet .cs c.csActiveLevel]) := by
  obtain ⟨b, rest, rfl⟩ := List.exists_cons_of_ne_nil hne
  unfold framedEvents
  cases c.csMode
  · exact ⟨[], [], b :: rest, rfl, .inl rfl⟩
  · exact ⟨[.lineSet .cs c.csActiveLevel], [.lineSet .cs (!c.csActiveLevel)], b :: rest, rfl, .inr rfl⟩
  · exact ⟨[.lineSet .cs c.csActiveLevel], .lineSet .cs (!c.csActiveLevel) :: _, [b], rfl, .inr rfl⟩

/-- Settles O23. -/
theorem dcSetNextToWrite : Obligations.DcSetNextToWrite := by
  intro s t op data ht hx
  obtain ⟨dcl, sent, hne, happ⟩ := framerCall_appended ht hx
  obtain ⟨pre, post, bs, hev, hpre⟩ := framedEvents_start s.cfg dcl hne
  exact ⟨pre, post, dcl, bs, happ.trans hev, hpre⟩

/-! ## Calls that fail (R155) -/

/-- A framer call runs `framed_write` at its level. -/
theorem exec_framerCall {s : State} {i : Instr} {dcl : Bit} {data : List Byte} (hi : isFramerCall s.cfg i dcl data)
    (hg : gateOpen i s) : data ≠ [] ∧ exec i s = .next (conclude s ((framedWrite dcl data s).map fun _ => .ok)) := by
  rcases hi with ⟨op, rfl, rfl, rfl⟩ | ⟨rfl, hne, rfl⟩
  · exact ⟨List.cons_ne_nil _ _, exec_sendCommand hg⟩
  · exact ⟨hne, exec_sendData_of_ne_nil hg hne⟩

/-- What every call in a CS mode does first: CS is asserted, DC is set, and then bytes are written (R152). -/
theorem framedWrite_csMode {s : State} (dcl : Bit) {data : List Byte} (hm : s.cfg.csMode ≠ .none) (hne : data ≠ []) :
    ∃ (bs : List Byte) (f : Unit → State → Res Unit),
      framedWrite dcl data s = (lineSet .cs s.cfg.csActiveLevel s).bind fun _ s =>
        (lineSet .dc dcl s).bind fun _ s => (spiWrite bs s).bind f := by
  obtain ⟨b, rest, rfl⟩ := List.exists_cons_of_ne_nil hne
  cases hc : s.cfg.csMode
  · exact absurd hc hm
  · exact ⟨b :: rest, _, by simp only [framedWrite, hc]; rfl⟩
  · exact ⟨[b], _, by simp only [framedWrite, hc, framedBytes, if_true]; rfl⟩

/-- The lines after the sets of CS and DC in a CS mode. -/
theorem failedFrameLines_of_csMode {c : Cfg} (dcl : Bit) (l : Lines) (hm : c.csMode ≠ .none) :
    failedFrameLines c dcl l =
      (l.set .cs { l.cs with level := c.csActiveLevel }).set .dc { l.dc with level := dcl } := by
  simp [failedFrameLines, hm, Lines.set]

theorem failedFrameLines_of_none {c : Cfg} (dcl : Bit) (l : Lines) (hm : c.csMode = .none) :
    failedFrameLines c dcl l = l.set .dc { l.dc with level := dcl } := by
  simp [failedFrameLines, hm]

theorem afterSet_eq (s : State) (r : Role) (v : Bit) : afterSet s r v = { s with
    lines := s.lines.set r { s.line r with level := v }
    trace := s.trace ++ [.lineSet r v] } := rfl

/-- The record of DC is not that of CS. -/
@[simp] theorem Lines.set_cs_dc (l : Lines) (x : Line) : (l.set .cs x).dc = l.dc := rfl

/-- Where the transport is closed the call ends at its first write, CS and DC set (R155). -/
theorem framedWrite_of_closed {s : State} (dcl : Bit) {data : List Byte} (hne : data ≠ [])
    (ho : s.transport.isOpen = false) (hdc : held s .dc) (hcs : s.cfg.csMode ≠ .none → held s .cs) :
    framedWrite dcl data s = .err errNotOpen { s with
      lines := failedFrameLines s.cfg dcl s.lines
      trace := s.trace ++ ((if s.cfg.csMode = .none then [] else [.lineSet .cs s.cfg.csActiveLevel]) ++
        [.lineSet .dc dcl]) } := by
  by_cases hm : s.cfg.csMode = .none
  · simp only [framedWrite, hm, lineSet_ok dcl hdc rfl, Res.bind_ok]
    rw [spiWrite_of_closed data (by simpa using ho), failedFrameLines_of_none dcl _ hm]
    rfl
  · obtain ⟨bs, f, hf⟩ := framedWrite_csMode dcl hm hne
    rw [hf, lineSet_ok _ (hcs hm) rfl, Res.bind_ok, lineSet_ok dcl (by simpa using hdc) rfl, Res.bind_ok,
      spiWrite_of_closed bs (by simpa using ho), Res.bind_err, failedFrameLines_of_csMode dcl _ hm, if_neg hm]
    simp [afterSet_eq, State.line, Lines.get]

/-- Where DC is not held in a CS mode the call ends with CS asserted (R155). -/
theorem framedWrite_of_no_dc {s : State} (dcl : Bit) {data : List Byte} (hne : data ≠ []) (hm : s.cfg.csMode ≠ .none)
    (hcs : held s .cs) (hdc : (s.line .dc).acquired = false) :
    framedWrite dcl data s = .err (errNotAcquired .dc) (afterSet s .cs s.cfg.csActiveLevel) := by
  obtain ⟨bs, f, hf⟩ := framedWrite_csMode dcl hm hne
  rw [hf, lineSet_ok _ hcs rfl, Res.bind_ok, lineSet_of_not_acquired (s := afterSet s .cs s.cfg.csActiveLevel) (r := .dc) dcl hdc,
    Res.bind_err]

/-- Where the first line a call sets is not held it ends at once (R155). -/
theorem framedWrite_of_no_line {s : State} (dcl : Bit) {data : List Byte} (hne : data ≠ []) {r : Role}
    (hr : r = if s.cfg.csMode = .none then .dc else .cs) (h : (s.line r).acquired = false) :
    framedWrite dcl data s = .err (errNotAcquired r) s := by
  by_cases hm : s.cfg.csMode = .none
  · rw [if_pos hm] at hr
    subst hr
    simp only [framedWrite, hm, lineSet_of_not_acquired dcl h, Res.bind_err]
  · rw [if_neg hm] at hr
    subst hr
    obtain ⟨bs, f, hf⟩ := framedWrite_csMode dcl hm hne
    rw [hf, lineSet_of_not_acquired _ h, Res.bind_err]

/-! ## A write that fails (R155, R314) -/

/-- The state in which write `n` of a call leaves the block, after `k` bytes (R155). -/
def afterFailedFrame (s : State) (dcl : Bit) (data : List Byte) (n k : Nat) (ws : List WriteAnswer) : State :=
  { s with
    lines := failedFrameLines s.cfg dcl s.lines
    env := { s.env with writes := ws, drawn := s.env.drawn + (n + 1) }
    trace := s.trace ++ failedFrameEvents s.cfg dcl data n k }

theorem framedWrite_fail_none {s : State} (dcl : Bit) {data : List Byte} {k : Nat} {ws : List WriteAnswer}
    (hr : framerReady s) (hm : s.cfg.csMode = .none) (hk : k < data.length) (hw : s.env.writes = .fail k :: ws) :
    framedWrite dcl data s = .err (errShortWrite k) (afterFailedFrame s dcl data 0 k ws) := by
  obtain ⟨ho, hdc, -⟩ := hr
  simp only [framedWrite, hm, lineSet_ok dcl hdc rfl, Res.bind_ok]
  rw [spiWrite_fail (ws := ws) (by simpa using ho) (by simpa using hw) hk]
  simp [afterFailedFrame, afterSet_eq, failedFrameLines_of_none dcl _ hm, failedFrameEvents, hm, State.line, Lines.get]

theorem framedWrite_fail_perCall {s : State} (dcl : Bit) {data : List Byte} {k : Nat} {ws : List WriteAnswer}
    (hr : framerReady s) (hm : s.cfg.csMode = .perCall) (hk : k < data.length) (hw : s.env.writes = .fail k :: ws) :
    framedWrite dcl data s = .err (errShortWrite k) (afterFailedFrame s dcl data 0 k ws) := by
  obtain ⟨ho, hdc, hcs⟩ := hr
  have hm' : s.cfg.csMode ≠ .none := by simp [hm]
  simp only [framedWrite, hm, lineSet_ok _ (hcs hm') rfl, Res.bind_ok]
  rw [lineSet_ok dcl (by simpa using hdc) rfl, Res.bind_ok,
    spiWrite_fail (ws := ws) (by simpa using ho) (by simpa using hw) hk, Res.bind_err]
  simp [afterFailedFrame, afterSet_eq, failedFrameLines_of_csMode dcl _ hm', failedFrameEvents, hm, State.line, Lines.get]

/-- The bytes of a `PerByte` call one after another. -/
theorem framedBytes_append {a dcl : Bit} (post : List Byte) : ∀ (pre : List Byte) (first : Bool) (s : State), pre ≠ [] →
    framedBytes a dcl first (pre ++ post) s =
      (framedBytes a dcl first pre s).bind fun _ u => framedBytes a dcl false post u := by
  have hassoc : ∀ {α β γ : Type} (r : Res α) (f : α → State → Res β) (g : β → State → Res γ),
      (r.bind f).bind g = r.bind fun a s => (f a s).bind g := by
    intro α β γ r f g
    cases r <;> rfl
  intro pre
  induction pre with
  | nil => exact fun _ _ h => absurd rfl h
  | cons b rest ih =>
    intro first s _
    simp only [List.cons_append, framedBytes, hassoc]
    cases rest with
    | nil => rfl
    | cons c rest => simp only [ih false _ (List.cons_ne_nil c rest)]

/-- The first byte of a `PerByte` call is not taken. -/
theorem framedBytes_fail_first {s : State} {a : Bit} (dcl : Bit) {b : Byte} (rest : List Byte) {ws : List WriteAnswer}
    (ho : s.transport.isOpen = true) (hdc : held s .dc) (hcs : held s .cs) (hw : s.env.writes = .fail 0 :: ws) :
    framedBytes a dcl true (b :: rest) s = .err (errShortWrite 0) { s with
      lines := (s.lines.set .cs { s.lines.cs with level := a }).set .dc { s.lines.dc with level := dcl }
      env := { s.env with writes := ws, drawn := s.env.drawn + 1 }
      trace := s.trace ++ [.lineSet .cs a, .lineSet .dc dcl, .spiWrite [] false] } := by
  simp only [framedBytes, lineSet_ok a hcs rfl, Res.bind_ok, if_true]
  rw [lineSet_ok dcl (by simpa using hdc) rfl, Res.bind_ok,
    spiWrite_fail (k := 0) (ws := ws) (by simpa using ho) (by simpa using hw) (by simp), Res.bind_err]
  simp [afterSet_eq, State.line, Lines.get]

/-- A later byte of a `PerByte` call is not taken. -/
theorem framedBytes_fail_later {s : State} {a : Bit} (dcl : Bit) {b : Byte} (rest : List Byte) {ws : List WriteAnswer}
    (ho : s.transport.isOpen = true) (hcs : held s .cs) (hw : s.env.writes = .fail 0 :: ws) :
    framedBytes a dcl false (b :: rest) s = .err (errShortWrite 0) { s with
      lines := s.lines.set .cs { s.lines.cs with level := a }
      env := { s.env with writes := ws, drawn := s.env.drawn + 1 }
      trace := s.trace ++ [.lineSet .cs a, .spiWrite [] false] } := by
  simp only [framedBytes, lineSet_ok a hcs rfl, Res.bind_ok, Bool.false_eq_true, if_false]
  rw [spiWrite_fail (k := 0) (ws := ws) (by simpa using ho) (by simpa using hw) (by simp), Res.bind_err]
  simp [afterSet_eq, State.line, Lines.get]

/-- Byte `n` of a `PerByte` call is not taken: the bytes before it are a call of their own. -/
theorem framedWrite_fail_perByte {s : State} (dcl : Bit) {data : List Byte} {n : Nat} {ws : List WriteAnswer}
    (hr : framerReady s) (hm : s.cfg.csMode = .perByte) (hn : n < data.length)
    (hw : s.env.writes = List.replicate n .ok ++ .fail 0 :: ws) :
    framedWrite dcl data s = .err (errShortWrite 0) (afterFailedFrame s dcl data n 0 ws) := by
  have hm' : s.cfg.csMode ≠ .none := by simp [hm]
  obtain ⟨b, rest, hdrop⟩ : ∃ b rest, data.drop n = b :: rest :=
    List.exists_cons_of_ne_nil (by simpa using hn)
  have hfw : ∀ bs, framedWrite dcl bs s = framedBytes s.cfg.csActiveLevel dcl true bs s := fun bs => by
    simp only [framedWrite, hm]
  cases n with
  | zero =>
    obtain ⟨ho, hdc, hcs⟩ := hr
    obtain rfl : data = b :: rest := by simpa using hdrop
    rw [hfw, framedBytes_fail_first dcl rest ho hdc (hcs hm') (by simpa using hw)]
    simp [afterFailedFrame, failedFrameLines_of_csMode dcl _ hm', failedFrameEvents, framedEvents, hm]
  | succ m =>
    have hpre : data.take (m + 1) ≠ [] := by
      refine List.ne_nil_of_length_pos ?_
      rw [List.length_take]
      omega
    have hlen : (data.take (m + 1)).length = m + 1 := by
      rw [List.length_take]
      omega
    have hok : framedBytes s.cfg.csActiveLevel dcl true (data.take (m + 1)) s =
        .ok () (afterFrame s dcl (data.take (m + 1))) := by
      rw [← hfw]
      refine framedWrite_ok dcl hr hpre ?_
      rw [framedWrites, if_pos hm, hlen]
      exact ⟨_, hw.symm⟩
    obtain ⟨ho, -, hcs⟩ := framerReady_afterFrame (dcl := dcl) (data := data.take (m + 1)) hr
    have hw' : (afterFrame s dcl (data.take (m + 1))).env.writes = .fail 0 :: ws := by
      simp only [afterFrame, framedWrites, hm, if_true, hlen, hw]
      exact List.drop_left' (List.length_replicate ..)
    rw [hfw, ← List.take_append_drop (m + 1) data, hdrop, framedBytes_append _ _ _ _ hpre, hok, Res.bind_ok,
      framedBytes_fail_later dcl rest ho (hcs hm') hw']
    rw [← hdrop, List.take_append_drop]
    have hlines : (framedLines s.cfg dcl s.lines).set .cs
        { (framedLines s.cfg dcl s.lines).cs with level := s.cfg.csActiveLevel } =
          failedFrameLines s.cfg dcl s.lines := by
      simp [framedLines, failedFrameLines, hm, Lines.set]
    simp [afterFailedFrame, afterFrame, hlines, failedFrameEvents, framedWrites, hm, hlen, Nat.add_assoc]

/-- A framer call ends at the write that fails, in every CS mode (R155). -/
theorem framedWrite_fail {s : State} (dcl : Bit) {data : List Byte} {n k : Nat} {ws : List WriteAnswer}
    (hr : framerReady s) (hn : n < framedWrites s.cfg data) (hk : k < framedWriteLength s.cfg data)
    (hw : s.env.writes = List.replicate n .ok ++ .fail k :: ws) :
    framedWrite dcl data s = .err (errShortWrite k) (afterFailedFrame s dcl data n k ws) := by
  cases hm : s.cfg.csMode with
  | none =>
    obtain rfl : n = 0 := by simpa [framedWrites, hm] using hn
    exact framedWrite_fail_none dcl hr hm (by simpa [framedWriteLength, hm] using hk) hw
  | perCall =>
    obtain rfl : n = 0 := by simpa [framedWrites, hm] using hn
    exact framedWrite_fail_perCall dcl hr hm (by simpa [framedWriteLength, hm] using hk) hw
  | perByte =>
    obtain rfl : k = 0 := by simpa [framedWriteLength, hm] using hk
    exact framedWrite_fail_perByte dcl hr hm (by simpa [framedWrites, hm] using hn) hw

/-- A failed write leaves an event of the call before the error. -/
theorem failedFrameEvents_ne_nil (c : Cfg) (dcl : Bit) (data : List Byte) (n k : Nat) :
    failedFrameEvents c dcl data n k ≠ [] := by
  unfold failedFrameEvents
  cases c.csMode <;> simp

/-- Settles O24: the call ends where its write, its transport or its line fails, and is poisoned by the events before. -/
theorem framerFailureLeavesLines : Obligations.FramerFailureLeavesLines := by
  intro s i dcl data hi hg
  obtain ⟨hne, hx⟩ := exec_framerCall hi hg
  rw [hx]
  refine ⟨fun n k ws hr hn hk hw => ?_, fun ho hdc hcs => ?_, fun hm hdc => ?_, fun hm hcs => ?_, fun hm hcs hdc => ?_⟩
  · rw [framedWrite_fail dcl hr hn hk hw, Res.map_err, conclude_err,
      deliver_of_trace _ rfl (failedFrameEvents_ne_nil _ _ _ _ _)]
    rfl
  · rw [framedWrite_of_closed dcl hne ho hdc hcs, Res.map_err, conclude_err, deliver_of_trace _ rfl (by simp)]
    simp [errNotOpen, errOf, kindCode]
  · rw [framedWrite_of_no_line dcl hne (if_pos hm).symm hdc, Res.map_err, conclude_err, deliver_self]
    rfl
  · rw [framedWrite_of_no_line dcl hne (if_neg hm).symm hcs, Res.map_err, conclude_err, deliver_self]
    rfl
  · rw [framedWrite_of_no_dc dcl hne hm hcs hdc, Res.map_err, conclude_err,
      deliver_of_trace _ (afterSet_trace _ _ _) (by simp)]
    simp [afterSet_eq, errNotAcquired, errOf, kindCode]

end Sys2Proof.Machine

/-! WAIT_READY (spec/42_busy_sync.md R170 to R176): each statement is one way the busy-wait of Laws/Sequencer.lean ends, returned
or delivered. -/

namespace Sys2Proof.Machine

open Sys2Proof

/-- Settles O26. -/
theorem waitReadyReturnsReady : Obligations.WaitReadyReturnsReady := by
  intro s p interval timeout k stage hg hh hi hb ht
  obtain ⟨e, -, -, heq⟩ := waitReady_ok stage hh hi hb ht
  have hx := exec_waitReady hg
  rw [heq] at hx
  exact ⟨_, hx, rfl, rfl, rfl, rfl, rfl, rfl, rfl, rfl, rfl, rfl, rfl, rfl, rfl⟩

/-- Settles O27: the polls are events that came before the error. -/
theorem stuckBusyTimesOut : Obligations.StuckBusyTimesOut := by
  intro s p interval timeout n stage hg hh hi hex hf hn hb
  obtain ⟨h1, h2, heq⟩ := waitReady_timeout stage hh hi hex hf hn hb
  have hx := exec_waitReady hg
  rw [heq, Res.map_err, conclude_err, deliver_of_trace _ (List.append_assoc ..) (by simp)] at hx
  exact ⟨_, hx, rfl, rfl, rfl, rfl, h1, h2, rfl, rfl, rfl⟩

/-- Settles O28: every way the wait can end, whatever is drawn. -/
theorem waitReadyBounded : Obligations.WaitReadyBounded := by
  intro s p interval timeout stage hg hh hi
  obtain ⟨k, u, hk, hpolls, -, -, ⟨heq, htr⟩ | ⟨heq, htr, hclock⟩⟩ := waitReady_spec (timeout := timeout) stage hh hi
  · have hx := exec_waitReady hg
    rw [heq] at hx
    exact ⟨_, k, hx, hk, hpolls, .inl ⟨rfl, htr⟩⟩
  · have hx := exec_waitReady hg
    rw [List.append_assoc] at htr
    rw [heq, Res.map_err, conclude_err, deliver_of_trace _ htr (by simp)] at hx
    refine ⟨_, k, hx, hk, hpolls, .inr ⟨rfl, rfl, (now_clock s).1, hclock, ?_⟩⟩
    rw [appended_of_trace (es := (waitEvents s.build (busyLevel p) interval k).dropLast ++
      [.lineGet .busy (busyLevel p), .error (errTimeout stage (k + 1))]) (by simp)]
    rfl

/-- A wait on a BUSY line that is not held ends at its first poll (R170). -/
theorem waitReady_of_not_acquired {s : State} {p : Polarity} {interval timeout : Nat} (stage : Text) (hi : 1 ≤ interval)
    (hb : (s.line .busy).acquired = false) (hf : s.build.firstPollDelay = 0) : ∃ env,
    waitReady p interval timeout stage s = .err (errNotAcquired .busy) ((s.setPollCount 0).setEnv env) := by
  refine ⟨(now (s.setPollCount 0)).2.env, ?_⟩
  rw [← now_state]
  have hstate := now_state (s.setPollCount 0)
  have hline : ((now (s.setPollCount 0)).2.line .busy).acquired = false := by
    rw [hstate]
    exact hb
  have hdelay : firstPollDelay (now (s.setPollCount 0)).2 = (now (s.setPollCount 0)).2 := by
    rw [firstPollDelay, if_neg]
    rw [hstate]
    simp [hf]
  simp only [waitReady, if_neg (Nat.one_le_iff_ne_zero.mp hi), pollFuel, hdelay, pollLoop,
    lineGet_of_not_acquired hline, Res.bind_err]

/-- Settles O29. -/
theorem waitReadyRejects : Obligations.WaitReadyRejects := by
  intro s p interval timeout stage hg
  refine ⟨fun h0 => ?_, fun hi hb hf => ?_⟩
  · rw [exec_waitReady hg, waitReady, if_pos h0, Res.map_err, conclude_err, deliver_self]
    rfl
  · obtain ⟨env, henv⟩ := waitReady_of_not_acquired (p := p) (timeout := timeout) stage hi hb hf
    refine ⟨env, ?_⟩
    rw [exec_waitReady hg, henv]
    simp [deliver, poisons, rejected, errNotAcquired, errOf, kindCode, State.setPollCount, State.setEnv]

end Sys2Proof.Machine

/-! The bit-packer (spec/43_framebuffer.md R190 to R204): each operation is a function of its operands, so each statement is that
function's answer, element by element, returned or delivered. -/

namespace Sys2Proof.Machine

open Sys2Proof

/-! ## The end of an operation on operands alone -/

/-- A check that fails is delivered before any action (R276). -/
theorem conclude_ofExcept_error {α : Type} (s : State) (f : α → Result) (e : ErrRec) :
    conclude s ((Res.ofExcept s (.error e)).map f) = rejected s e := deliver_self s e

/-- A value is returned, and nothing else changes. -/
theorem conclude_ofExcept_ok {α : Type} (s : State) (f : α → Result) (a : α) :
    conclude s ((Res.ofExcept s (.ok a)).map f) = { s with result := some (f a) } := rfl

/-! ## FB_CHECK (R190) -/

theorem dimsOutside_iff {w h : Nat} : dimsOutside w h = true ↔ (w < 1 ∨ h < 1 ∨ 65535 < w ∨ 65535 < h) := by
  simp only [dimsOutside, Bool.or_eq_true, decide_eq_true_eq, or_assoc]
  exact Iff.rfl

theorem dimsOutside_of_inside {w h : Nat} (hw1 : 1 ≤ w) (hh1 : 1 ≤ h) (hw2 : w ≤ 65535) (hh2 : h ≤ 65535) :
    ¬ dimsOutside w h = true := by
  rw [dimsOutside_iff]
  omega

theorem fbCheck_of_dims {fb : Framebuffer} (h : dimsOutside fb.width fb.height = true) :
    fbCheck fb = .error errSizeMismatch := if_pos h

theorem fbCheck_of_width {fb : Framebuffer} (h : ¬ dimsOutside fb.width fb.height = true) (he : fb.encoding = .mono1bpp)
    (hw : fb.width % 8 ≠ 0) : fbCheck fb = .error errUnsupportedWidth := by
  rw [fbCheck, if_neg h, if_pos ⟨he, hw⟩]

theorem fbCheck_of_length {fb : Framebuffer} (h : ¬ dimsOutside fb.width fb.height = true)
    (he : fb.encoding = .mono1bpp → fb.width % 8 = 0)
    (hl : fb.bytes.length ≠ requiredLength fb.width fb.height fb.encoding) : fbCheck fb = .error errSizeMismatch := by
  rw [fbCheck, if_neg h, if_neg (fun hc => hc.2 (he hc.1)), if_pos hl]

theorem exec_fbCheck_error {s : State} {fb : Framebuffer} {e : ErrRec} (hg : gateOpen (.fbCheck fb) s)
    (h : fbCheck fb = .error e) : exec (.fbCheck fb) s = .next (rejected s e) := by
  rw [exec_fbCheck hg, h, conclude_ofExcept_error]

/-- Settles O30: the checks in their order; the length each encoding needs is R97's. -/
theorem fbCheckDecides : Obligations.FbCheckDecides := by
  intro s fb hg
  refine ⟨fun hd => exec_fbCheck_error hg (fbCheck_of_dims (dimsOutside_iff.mpr hd)), fun hw1 hh1 hw2 hh2 => ?_⟩
  have hd := dimsOutside_of_inside hw1 hh1 hw2 hh2
  refine ⟨fun he hw => ?_, fun he hw hl => ?_, fun he hw hl => ?_, fun he hl => ?_, fun he hl => ?_⟩
  · exact exec_fbCheck_error hg (fbCheck_of_width hd he hw)
  · refine exec_fbCheck_valid hg (fbCheck_ok_iff.mpr ⟨hw1, hw2, hh1, hh2, fun _ => hw, ?_⟩)
    rw [he, requiredLength_mono hw, hl]
  · refine exec_fbCheck_error hg (fbCheck_of_length hd (fun _ => hw) ?_)
    rwa [he, requiredLength_mono hw]
  · refine exec_fbCheck_valid hg (fbCheck_ok_iff.mpr ⟨hw1, hw2, hh1, hh2, fun h => ?_, ?_⟩)
    · rw [he] at h
      cases h
    · rw [he, requiredLength_rgb, hl]
  · refine exec_fbCheck_error hg (fbCheck_of_length hd (fun h => ?_) ?_)
    · rw [he] at h
      cases h
    · rwa [he, requiredLength_rgb]

/-! ## Mono1bpp images (R192, R194) -/

/-- Pixel `i` of the packed image of a blackmap: 0 for black, 1 for white (R62, R192). -/
theorem imageBit_packMono_blackAt {w h i : Nat} (m : List Byte) (hw : w % 8 = 0) (hi : i < w * h) :
    imageBit (packMono w h (blackAt w m)).bytes i = decide (m.getD i 0 = 0) := by
  rw [imageBit_packMono _ hw hi, blackAt, Nat.div_add_mod']
  simp

/-- Settles O31: R192's checks in their order, and the bits of the packed image. -/
theorem encodeMonoPacks : Obligations.EncodeMonoPacks := by
  intro s w h m hg
  rw [exec_encodeMono hg]
  refine ⟨fun hd => ?_, fun hw1 hh1 hw2 hh2 => ⟨fun hw => ?_, fun hw hl => ?_, fun hw hl => ?_⟩⟩
  · rw [encodeMono, if_pos (dimsOutside_iff.mpr hd), conclude_ofExcept_error]
    rfl
  · rw [encodeMono, if_neg (dimsOutside_of_inside hw1 hh1 hw2 hh2), if_pos hw, conclude_ofExcept_error]
    rfl
  · rw [encodeMono, if_neg (dimsOutside_of_inside hw1 hh1 hw2 hh2), if_neg (not_not.mpr hw), if_pos hl,
      conclude_ofExcept_error]
    rfl
  · rw [encodeMono_eq_ok_iff.mpr ⟨⟨hw1, hw2, hh1, hh2, hw, hl⟩, rfl⟩, conclude_ofExcept_ok]
    exact ⟨_, rfl, packMono_length w h _, fun i hi => imageBit_packMono_blackAt m hw hi⟩

/-- Pixel `i` of an unpacked image (R194). -/
theorem unpackMono_getD {fb : Framebuffer} {i : Nat} (d : Byte) (hi : i < fb.width * fb.height) :
    (unpackMono fb).getD i d = if imageBit fb.bytes i then 0x00 else 0x01 := by
  simp [unpackMono, List.getD_eq_getElem?_getD, hi]

/-- Settles O33. -/
theorem decodeMonoReads : Obligations.DecodeMonoReads := by
  intro s fb hg
  rw [exec_decodeMono hg]
  refine ⟨fun hv he => ?_, fun hv he => ?_, fun e hv => ?_⟩
  · rw [decodeMono_of_valid he hv, conclude_ofExcept_ok]
    exact ⟨_, rfl, unpackMono_length fb, fun i hi => unpackMono_getD 7 hi⟩
  · have hd : decodeMono fb = .error errWrongEncoding := by simp [decodeMono, hv, he]
    rw [hd, conclude_ofExcept_error]
    rfl
  · have hd : decodeMono fb = .error e := by simp [decodeMono, hv]
    rw [hd, conclude_ofExcept_error]

/-! ## Rgb565 images and fills (R196, R203, R204) -/

theorem encodeRgb565_ok {w h : Nat} {cs : List U16} (hd : ¬ dimsOutside w h = true) (hl : cs.length = w * h) :
    encodeRgb565 w h cs = .ok ⟨w, h, .rgb565, rgbBytes cs⟩ := by
  rw [encodeRgb565, if_neg hd, if_neg (not_not.mpr hl)]

/-- Both checks raise the same error. -/
theorem encodeRgb565_error {w h : Nat} {cs : List U16} (hd : dimsOutside w h = true ∨ cs.length ≠ w * h) :
    encodeRgb565 w h cs = .error errSizeMismatch := by
  unfold encodeRgb565
  by_cases h1 : dimsOutside w h = true
  · rw [if_pos h1]
  · rw [if_neg h1, if_pos (hd.resolve_left h1)]

/-- Settles O35. -/
theorem encodeRgb565Serialises : Obligations.EncodeRgb565Serialises := by
  intro s w h cs hg
  rw [exec_encodeRgb565 hg]
  refine ⟨fun hd => ?_, fun hw1 hh1 hw2 hh2 hl => ?_⟩
  · have hd' : dimsOutside w h = true ∨ cs.length ≠ w * h := by
      rw [dimsOutside_iff]
      simpa only [or_assoc] using hd
    rw [encodeRgb565_error hd', conclude_ofExcept_error]
    rfl
  · rw [encodeRgb565_ok (dimsOutside_of_inside hw1 hh1 hw2 hh2) hl, conclude_ofExcept_ok]
    refine ⟨_, rfl, by rw [rgbBytes_length, hl], fun k hk => ?_⟩
    obtain ⟨hhi, hlo⟩ := rgbBytes_getD cs k (hl ▸ hk)
    rw [hhi, hlo]
    exact ⟨hiByte_toNat _, loByte_toNat _⟩

/-- A fill has as many chunks as whole ones, and one more where pixels remain (R204). -/
theorem fillChunks_length {c : Nat} (p : U16) (count : Nat) (hc : 1 ≤ c) :
    (fillChunks c p count).length = (count + c - 1) / c := by
  have hdm := Nat.div_add_mod count c
  have hlt := Nat.mod_lt count (Nat.lt_of_lt_of_le Nat.zero_lt_one hc)
  rw [fillChunks, List.length_append, List.length_replicate]
  by_cases h : count % c > 0
  · have hsum : count + c - 1 = count % c - 1 + c * (count / c + 1) := by
      rw [Nat.mul_add, Nat.mul_one]
      omega
    have hrest : (count % c - 1) / c = 0 := Nat.div_eq_of_lt (by omega)
    rw [if_pos h, hsum, Nat.add_mul_div_left _ _ hc, hrest, Nat.zero_add, List.length_singleton]
  · have hsum : count + c - 1 = c - 1 + c * (count / c) := by omega
    have hrest : (c - 1) / c = 0 := Nat.div_eq_of_lt (by omega)
    rw [if_neg h, hsum, Nat.add_mul_div_left _ _ hc, hrest, Nat.zero_add, List.length_nil, Nat.add_zero]

/-- Every chunk of a fill but the last has all its pixels (R204). -/
theorem fillChunks_dropLast {c : Nat} {p : U16} {count : Nat} {ch : List Byte} (h : ch ∈ (fillChunks c p count).dropLast) :
    ch = chunk c p := by
  unfold fillChunks at h
  by_cases hr : count % c > 0
  · rw [if_pos hr, List.dropLast_concat] at h
    exact List.eq_of_mem_replicate h
  · rw [if_neg hr, List.append_nil] at h
    exact List.eq_of_mem_replicate (List.mem_of_mem_dropLast h)

/-- Settles O36. -/
theorem fillChunksCover : Obligations.FillChunksCover := by
  intro s p count hg hc
  rw [exec_fillChunks hg]
  refine ⟨_, rfl, fillChunks_length p count hc, fun ch hch => ?_, fun ch hch => ?_, fillChunks_flatten p count hc⟩
  · rw [fillChunks_dropLast hch, chunk_length]
  · obtain ⟨k, hk1, hk2, rfl⟩ := fillChunks_mem hc hch
    rw [chunk_length]
    omega

theorem rgbBytes_replicate (n : Nat) (p : U16) : rgbBytes (List.replicate n p) = chunk n p := by
  rw [rgbBytes, chunk, List.flatMap_def, List.map_replicate]

/-- Settles O37: both are the colour's two bytes, `n` times. -/
theorem fillEquivalence : Obligations.FillEquivalence := by
  intro c n p hc
  rw [fillChunks_flatten p n hc]
  refine ⟨fun h0 => by rw [h0]; rfl, fun h1 h2 => ?_⟩
  rw [encodeRgb565_ok (dimsOutside_of_inside h1 le_rfl h2 (by omega)) (by simp), rgbBytes_replicate]

/-! ## WINDOW_CHECK (R200) -/

theorem windowValid_iff {win : Window} {w h : Nat} : windowValid win w h = true ↔
    (win.x0 ≤ win.x1 ∧ win.x1 < w ∧ win.y0 ≤ win.y1 ∧ win.y1 < h) := by
  simp [windowValid, and_assoc]

/-- Settles O38. -/
theorem windowCheckCounts : Obligations.WindowCheckCounts := by
  intro s w h win hg
  rw [exec_windowCheck hg]
  refine ⟨fun hx hw hy hh => ?_, fun hbad => ?_⟩
  · have hcount : windowCount win = (win.x1 + 1 - win.x0) * (win.y1 + 1 - win.y0) := by
      rw [windowCount, Nat.sub_add_comm hx, Nat.sub_add_comm hy]
    rw [windowCheck, if_pos (windowValid_iff.mpr ⟨hx, hw, hy, hh⟩), conclude_ofExcept_ok, hcount]
    exact ⟨rfl, Nat.mul_pos (by omega) (by omega)⟩
  · have hinv : ¬ windowValid win w h = true := by
      rw [windowValid_iff]
      omega
    rw [windowCheck, if_neg hinv, conclude_ofExcept_error]
    rfl

end Sys2Proof.Machine

/-! Init Tables (spec/44_sequencer.md R230, R233, R236): INIT_APPLY and INITIALIZE replay a table, and fail where the first of its
entries fails that does. -/

namespace Sys2Proof.Machine

open Sys2Proof

/-! ## Tables that run to their end (R230, R233) -/

/-- Settles O39. -/
theorem initApplyReplays : Obligations.InitApplyReplays := by
  intro s runs hg hr he hw hb
  obtain ⟨e, n, l, hl, -, -, heq⟩ := applyTable_ok runs s hr he hw hb
  have hx := exec_initApply hg
  rw [heq] at hx
  obtain ⟨hrst, hbusy, -, -⟩ := id hl
  exact ⟨_, hx, rfl, rfl, rfl, rfl, rfl, rfl, ⟨rfl, rfl, rfl, rfl, rfl⟩, framerLines_get hl, hrst, hbusy⟩

/-- Settles O43: the configured table, and then the phase. -/
theorem initializeCompletes : Obligations.InitializeCompletes := by
  intro s runs hg htable hr he hw hb
  obtain ⟨e, n, l, hl, -, -, heq⟩ := applyTable_ok runs s hr he hw hb
  have hx := exec_initializePanel hg
  rw [initializePanel, ← htable, heq] at hx
  obtain ⟨hrst, hbusy, -, -⟩ := id hl
  exact ⟨_, hx, rfl, rfl, rfl, rfl, rfl, rfl, ⟨rfl, rfl, rfl, rfl, rfl⟩, framerLines_get hl, hrst, hbusy⟩

/-! ## Tables that fail (R236) -/

/-- `i` applies `table` in state `s`: INIT_APPLY of it, or INITIALIZE where it is the configured one (R230, R233). -/
def appliesTable (i : Instr) (s : State) (table : List Entry) : Prop :=
  i = .initApply table ∨ (i = .initializePanel ∧ table = s.cfg.initTable)

theorem phaseInside_of_appliesTable {i : Instr} {s : State} {table : List Entry} (h : appliesTable i s table) :
    phaseInside i = none := by
  rcases h with rfl | ⟨rfl, -⟩ <;> rfl

/-- Either operation fails exactly where its table does. -/
theorem form_err_of_appliesTable {i : Instr} {s u : State} {table : List Entry} {e : ErrRec} (hi : appliesTable i s table) :
    form i s = .err e u ↔ applyEntries 1 table s = .err e u := by
  rcases hi with rfl | ⟨rfl, rfl⟩
  · simp [form, applyTable, Res.map_eq_err, Res.bind_eq_err]
  · simp [form, initializePanel, applyTable, Res.map_eq_err, Res.bind_eq_err]

/-- With its gate open either operation ends as its form does. -/
theorem exec_of_appliesTable {i : Instr} {s : State} {table : List Entry} (hi : appliesTable i s table)
    (hg : gateOpen i s) : exec i s = .next (conclude s (form i s)) := by
  rcases hi with rfl | ⟨rfl, rfl⟩
  · exact exec_initApply hg
  · exact exec_initializePanel hg

/-- An entry that is not well-formed is found when it is reached, before any action (R93, R230). -/
theorem applyEntry_of_malformed {en : Entry} (s : State) (h : 256 ≤ en.opcode ∨ ∃ p ∈ en.params, 256 ≤ p) :
    applyEntry en s = .err errMalformedEntry s := by
  have hwf : entryWellFormed en = false := by
    rw [Bool.eq_false_iff]
    intro hwf
    simp only [entryWellFormed, Bool.and_eq_true, decide_eq_true_eq, List.all_eq_true] at hwf
    obtain ⟨hop, hpar⟩ := hwf
    rcases h with h | ⟨p, hp, h⟩
    · omega
    · exact absurd (hpar p hp) (by omega)
  simp [applyEntry, hwf]

/-- A table whose first entry is not well-formed. -/
theorem applyEntries_of_malformed {en : Entry} (post : List Entry) (s : State)
    (h : 256 ≤ en.opcode ∨ ∃ p ∈ en.params, 256 ≤ p) :
    applyEntries 1 (en :: post) s = .err (withEntry 1 errMalformedEntry) (s.setEntryIndex 1) := by
  rw [applyEntries, applyEntry_of_malformed _ h, Res.mapErr_err, Res.bind_err]

/-- Settles O40: the failing entry is the last one reached, and no entry's action writes ENTRY_INDEX. -/
theorem initApplyStopsAtFailingEntry : Obligations.InitApplyStopsAtFailingEntry := by
  refine ⟨fun s t i table e hi hg hx ht => ?_, fun s i en post hi hg hbad => ?_⟩
  · have hphase : t.phase = s.phase :=
      ((phaseTransitions i s t hx).2 e ht).1 (phaseInside_of_appliesTable hi)
    rw [exec_of_appliesTable hi hg] at hx
    cases hx
    obtain ⟨u, hu⟩ := conclude_error ht
    obtain ⟨pre, en, post, s₁, e₀, htable, hpre, hen, he⟩ :=
      applyEntries_err table 1 s u e ((form_err_of_appliesTable hi).mp hu)
    obtain ⟨-, hindex, -⟩ := position_actions.applyEntry en (s₁.setEntryIndex (pre.length + 1))
    rw [hen, Res.state_err] at hindex
    refine ⟨⟨pre, en, post, s₁, e₀, u, htable, hpre, hen, he, ?_, ?_⟩, hphase, ?_⟩
    · rw [hu]
      exact hindex
    · rw [hu]
      rfl
    · rintro rfl
      exact hphase.trans (of_decide_eq_true hg.2)
  · have hi' : appliesTable i s (en :: post) := hi.imp_right fun ⟨h1, h2⟩ => ⟨h1, h2.symm⟩
    rw [exec_of_appliesTable hi' hg, (form_err_of_appliesTable hi').mpr (applyEntries_of_malformed post s hbad)]
    simp [deliver, poisons, rejected, State.setEntryIndex, withEntry, errMalformedEntry, errOf, kindCode]

end Sys2Proof.Machine

/-! SESSION_OPEN (spec/44_sequencer.md R232): its end with every draw favourable, and every way it fails. It fails in the
acquisition, before any event, or in the opening of the transport, with every line of the session held; the reset pulse cannot
fail then, for RST is one of those lines. -/

namespace Sys2Proof.Machine

open Sys2Proof

/-! ## The session's lines (R120, R232) -/

/-- The spec of a session's line (R232). -/
def sessionSpec (c : Cfg) (r : Role) : LineSpec := ⟨r, cfgOffset c r, fixedDirection r, sessionInit c r⟩

theorem sessionSpecs_map (c : Cfg) : sessionSpecs c = (sessionRoles c).map (sessionSpec c) := sessionSpecs_eq c

theorem sessionSpecs_ne_nil (c : Cfg) : (sessionSpecs c).map acquireEvent ≠ [] := by simp [sessionSpecs]

/-- The roles of a session differ, so its specs clash only in their offsets. -/
theorem sessionSpecs_apart {c : Cfg} (hp : (sessionRoles c).Pairwise fun a b => cfgOffset c a ≠ cfgOffset c b) :
    (sessionSpecs c).Pairwise apart := by
  rw [sessionSpecs_map, List.pairwise_map]
  exact (sessionRoles_nodup c).and hp

/-- Roles at one offset, of which the first is the one reported (R120). -/
theorem duplicateRole_map_of_clash (c : Cfg) : ∀ roles : List Role, roles.Pairwise (· ≠ ·) →
    ¬ roles.Pairwise (fun a b => cfgOffset c a ≠ cfgOffset c b) →
    ∃ a ∈ roles, ∃ b ∈ roles, a ≠ b ∧ cfgOffset c a = cfgOffset c b ∧
      duplicateRole (roles.map (sessionSpec c)) = some a := by
  intro roles
  induction roles with
  | nil => exact fun _ h => absurd .nil h
  | cons a rest ih =>
    intro hn hp
    obtain ⟨hna, hnr⟩ := List.pairwise_cons.mp hn
    by_cases hb : ∃ b ∈ rest, cfgOffset c a = cfgOffset c b
    · obtain ⟨b, hbm, hab⟩ := hb
      refine ⟨a, by simp, b, by simp [hbm], hna b hbm, hab, ?_⟩
      exact duplicateRole_first [] (sessionSpec c a) _ .nil (by simp)
        ⟨sessionSpec c b, List.mem_map_of_mem hbm, fun h => h.2 hab⟩
    · have hrest : ¬ rest.Pairwise fun a b => cfgOffset c a ≠ cfgOffset c b := fun h =>
        hp (List.pairwise_cons.mpr ⟨fun b hbm hab => hb ⟨b, hbm, hab⟩, h⟩)
      obtain ⟨x, hx, y, hy, hxy, hoff, hdup⟩ := ih hnr hrest
      refine ⟨x, by simp [hx], y, by simp [hy], hxy, hoff, ?_⟩
      rw [List.map_cons, duplicateRole, if_neg, hdup]
      simp only [List.any_eq_true, List.mem_map, Bool.or_eq_true, decide_eq_true_eq, not_exists, not_and, not_or]
      rintro _ ⟨b, hbm, rfl⟩
      exact ⟨hna b hbm, fun hab => hb ⟨b, hbm, hab⟩⟩

/-- The lines of a session pass every check while none is held (R120). -/
theorem specsError_session {s : State} (hn : ∀ r ∈ sessionRoles s.cfg, (s.line r).acquired = false) :
    specsError s (sessionSpecs s.cfg) = none := by
  rw [specsError_eq_none, sessionSpecs_map]
  intro sp hsp
  obtain ⟨r, hr, rfl⟩ := List.mem_map.mp hsp
  exact ⟨rfl, mem_sessionRoles.mp hr, hn r hr⟩

/-! ## The two stages (R232) -/

/-- The state once a session's lines are granted. -/
def afterAcquire (s : State) (env : Env) : State :=
  { s with
    lines := grantedLines s.cfg (sessionSpecs s.cfg) s.lines
    env := env
    trace := s.trace ++ (sessionSpecs s.cfg).map acquireEvent }

/-- The opening of the transport, as SESSION_OPEN asks for it. -/
def sessionTransport (s : State) : Res Unit :=
  spiOpen s.cfg.spiPath s.cfg.spiClockHz s.cfg.spiMode s.cfg.spiBitsPerWord s

/-- A failed opening changed the environment at most (R124). -/
theorem spiOpen_err_state {path : Text} {clockHz mode bits : Nat} {s u : State} {e : ErrRec}
    (h : spiOpen path clockHz mode bits s = .err e u) : ∃ env, u = s.setEnv env := by
  rcases spiOpen_spec path clockHz mode bits s with ⟨-, heq⟩ | ⟨-, -, heq⟩ | ⟨-, -, -, heq⟩ | ⟨-, -, -, -, -, -, heq⟩ |
    ⟨-, -, -, -, -, -, heq⟩ <;> rw [heq] at h <;> cases h
  · exact ⟨s.env, rfl⟩
  · exact ⟨_, rfl⟩
  · exact ⟨_, rfl⟩
  · exact ⟨_, rfl⟩

/-- A successful opening left the lines and the configuration. -/
theorem spiOpen_ok_state {path : Text} {clockHz mode bits : Nat} {s u : State}
    (h : spiOpen path clockHz mode bits s = .ok () u) : u.lines = s.lines ∧ u.cfg = s.cfg := by
  rcases spiOpen_spec path clockHz mode bits s with ⟨-, heq⟩ | ⟨-, -, heq⟩ | ⟨-, -, -, heq⟩ | ⟨-, -, -, -, -, -, heq⟩ |
    ⟨-, -, -, -, -, -, heq⟩ <;> rw [heq] at h <;> cases h
  exact ⟨rfl, rfl⟩

theorem sessionOpen_of_acquire_err {s u : State} {e : ErrRec}
    (h : lineAcquire s.cfg.gpioChip (sessionSpecs s.cfg) s = .err e u) : sessionOpen s = .err e u := by
  unfold sessionOpen
  simp only
  rw [h, Res.bind_err]

theorem sessionOpen_of_acquired {s : State} {env : Env}
    (h : lineAcquire s.cfg.gpioChip (sessionSpecs s.cfg) s = .ok () (afterAcquire s env)) :
    sessionOpen s = (sessionTransport (afterAcquire s env)).bind fun _ s =>
      (resetPulse s).bind fun _ s => .ok () (s.setPhase .reset) := by
  unfold sessionOpen
  simp only
  rw [h, Res.bind_ok]
  rfl

/-- Every line of the session is held once they are granted. -/
theorem afterAcquire_line (s : State) (env : Env) {r : Role} (hr : r ∈ sessionRoles s.cfg) :
    (afterAcquire s env).line r =
      ⟨true, cfgOffset s.cfg r, fixedDirection r, activeLevel s.cfg r, sessionInit s.cfg r⟩ :=
  sessionLines_get s.cfg s.lines hr

theorem held_rst_afterAcquire (s : State) (env : Env) : held (afterAcquire s env) .rst := by
  unfold held
  rw [afterAcquire_line s env (mem_sessionRoles.mpr rfl)]
  exact ⟨rfl, rfl⟩

/-- A SESSION_OPEN that fails: in its acquisition, with nothing but the draws changed, or in the opening of its transport. -/
theorem sessionOpen_err {s u : State} {e : ErrRec} (h : sessionOpen s = .err e u) :
    (∃ env, u = s.setEnv env) ∨ (∃ env, u = afterAcquire s env) := by
  obtain ⟨env, -, ⟨e', -, -, hacq⟩ | ⟨-, -, hacq⟩⟩ := lineAcquire_spec s.cfg.gpioChip (sessionSpecs s.cfg) s
  · rw [sessionOpen_of_acquire_err hacq] at h
    cases h
    exact .inl ⟨env, rfl⟩
  · rw [sessionOpen_of_acquired (env := env) hacq] at h
    cases ht : sessionTransport (afterAcquire s env) with
    | err e' v =>
      rw [ht] at h
      cases h
      obtain ⟨env', rfl⟩ := spiOpen_err_state ht
      exact .inr ⟨env', rfl⟩
    | ok a v =>
      obtain ⟨hl, -⟩ := spiOpen_ok_state ht
      have hrst : held v .rst := (held_eq_of_lines hl .rst).mpr (held_rst_afterAcquire s env)
      rw [ht, Res.bind_ok, resetPulse, resetSteps_ok _ v hrst] at h
      cases h

/-! ## The statements -/

/-- Settles O41. -/
theorem sessionOpenCompletes : Obligations.SessionOpenCompletes := by
  intro s chips owned ds as hg hn hp ht hm hb hz hc ho hd ha
  obtain ⟨u, hu, -, -, hstate⟩ := sessionOpen_ok hn hp ht hm hb hz hc ho hd ha
  have hx := exec_sessionOpen hg
  rw [hu, hstate] at hx
  exact ⟨_, hx, rfl, rfl, rfl, rfl, fun r => openedLines_get s.cfg s.lines, fun r => openedLines_get_ne s.cfg s.lines,
    ⟨rfl, rfl, rfl⟩, rfl, rfl, rfl, rfl, rfl⟩

theorem exec_sessionOpen_err {s u : State} {e : ErrRec} (hg : gateOpen .sessionOpen s) (h : sessionOpen s = .err e u) :
    exec .sessionOpen s = .next (deliver s u e) := by
  rw [exec_sessionOpen hg, h, Res.map_err, conclude_err]

/-- An acquisition that fails before any draw, and what SESSION_OPEN then answers. -/
theorem exec_sessionOpen_rejected {s : State} {e : ErrRec} (hg : gateOpen .sessionOpen s)
    (h : lineAcquire s.cfg.gpioChip (sessionSpecs s.cfg) s = .err e s) :
    exec .sessionOpen s = .next (rejected s e) := by
  rw [exec_sessionOpen_err hg (sessionOpen_of_acquire_err h), deliver_self]

/-- An acquisition that fails at a draw. -/
theorem exec_sessionOpen_drawn {s : State} {e : ErrRec} (hg : gateOpen .sessionOpen s)
    (h : ∃ env, lineAcquire s.cfg.gpioChip (sessionSpecs s.cfg) s = .err e (s.setEnv env)) :
    ∃ env, exec .sessionOpen s = .next { rejected s e with env := env } := by
  obtain ⟨env, h⟩ := h
  exact ⟨env, by rw [exec_sessionOpen_err hg (sessionOpen_of_acquire_err h), deliver_setEnv]⟩

/-- A delivery after the grants poisons, and leaves the lines held (R276). -/
theorem deliver_afterAcquire (s : State) (env : Env) (e : ErrRec) : deliver s (afterAcquire s env) e =
    { afterAcquire s env with
      poisoned := true
      lastError := some e
      trace := s.trace ++ (sessionSpecs s.cfg).map acquireEvent ++ [.error e]
      result := some (.error e) } :=
  deliver_of_trace e rfl (sessionSpecs_ne_nil s.cfg)

/-- A transport that does not open, the lines granted. -/
theorem exec_sessionOpen_transport {s : State} {env : Env} {e : ErrRec} (hg : gateOpen .sessionOpen s)
    (hacq : lineAcquire s.cfg.gpioChip (sessionSpecs s.cfg) s = .ok () (afterAcquire s env))
    (h : ∃ env', sessionTransport (afterAcquire s env) = .err e ((afterAcquire s env).setEnv env')) :
    ∃ t, exec .sessionOpen s = .next t ∧ t.poisoned = true ∧ t.result = some (.error e) := by
  obtain ⟨env', h⟩ := h
  have ho : sessionOpen s = .err e (afterAcquire s env') := by
    rw [sessionOpen_of_acquired hacq, h]
    rfl
  have hx := exec_sessionOpen_err hg ho
  rw [deliver_afterAcquire] at hx
  exact ⟨_, hx, rfl, rfl⟩

/-- The transport of a session does not open on an illegal configuration, or on one the device refuses (R124). -/
theorem sessionTransport_of_configure {u : State} {ds as : List Bool} (ho : u.transport.isOpen = false)
    (hd : u.env.deviceOpens = true :: ds)
    (hbad : 3 < u.cfg.spiMode ∨ u.cfg.spiBitsPerWord ≠ 8 ∨ u.cfg.spiClockHz = 0 ∨ u.env.deviceAccepts = false :: as) :
    ∃ env, sessionTransport u = .err errConfigure (u.setEnv env) := by
  by_cases hi : 3 < u.cfg.spiMode ∨ u.cfg.spiBitsPerWord ≠ 8 ∨ u.cfg.spiClockHz = 0
  · exact spiOpen_of_illegal _ ho hd hi
  · have ha : u.env.deviceAccepts = false :: as := by
      rw [← or_assoc, ← or_assoc, or_assoc (a := 3 < u.cfg.spiMode)] at hbad
      exact hbad.resolve_left hi
    exact spiOpen_of_refused _ ho hd (by omega) (by omega) (by omega) ha

/-- Settles O42: the stage that fails says what is left; which error each stage raises is LINE_ACQUIRE's and SPI_OPEN's. -/
theorem sessionOpenFailures : Obligations.SessionOpenFailures := by
  intro s hg
  have hphase : s.phase = .uninitialized := of_decide_eq_true hg.2
  refine ⟨fun t e hx ht => ?_, fun hp => ?_, fun hp => ⟨fun pre post r hroles hpre hr => ?_, fun hn chips owned =>
    ⟨fun hc => ?_, fun hc => ⟨fun pre post r hroles ho => ?_, fun ho ds as => ?_⟩⟩⟩⟩
  · rw [exec_sessionOpen hg] at hx
    cases hx
    obtain ⟨u, hu⟩ := conclude_error (i := .sessionOpen) ht
    have hu' : sessionOpen s = .err e u := Res.map_eq_err.mp hu
    rw [hu', Res.map_err, conclude_err]
    rcases sessionOpen_err hu' with ⟨env, rfl⟩ | ⟨env, rfl⟩
    · rw [deliver_setEnv]
      exact .inl rfl
    · rw [deliver_afterAcquire]
      refine .inr ⟨hphase, rfl, rfl, rfl, fun r hr => ?_, rfl⟩
      exact congrArg Line.acquired (afterAcquire_line s env hr)
  · obtain ⟨a, ha, b, hb, hab, hoff, hdup⟩ := duplicateRole_map_of_clash s.cfg _ (sessionRoles_nodup s.cfg) hp
    rw [← sessionSpecs_map] at hdup
    exact ⟨a, ha, b, hb, hab, hoff,
      exec_sessionOpen_rejected (e := errDuplicateLine a) hg (lineAcquire_of_duplicate _ s hdup)⟩
  · refine exec_sessionOpen_rejected (e := errAlreadyOwned r) hg
      (lineAcquire_of_specError _ (sessionSpecs_apart hp) ?_)
    have hmem : ∀ q ∈ pre ++ r :: post, rolePresent s.cfg q = true := fun q hq => mem_sessionRoles.mp (hroles ▸ hq)
    rw [sessionSpecs_map, hroles, List.map_append, List.map_cons]
    refine specsError_first ?_ _ fun x hx => ?_
    · have hrp : rolePresent s.cfg r = true := hmem r (by simp)
      simp [specError, sessionSpec, hrp, hr, errAlreadyOwned]
    · obtain ⟨q, hq, rfl⟩ := List.mem_map.mp hx
      exact ⟨rfl, hmem q (by simp [hq]), hpre q hq⟩
  · exact exec_sessionOpen_drawn (e := errChipOpen) hg
      ⟨_, lineAcquire_of_chip _ (sessionSpecs_apart hp) (specsError_session hn) hc⟩
  · have hspecs : sessionSpecs s.cfg = pre.map (sessionSpec s.cfg) ++ sessionSpec s.cfg r :: post.map (sessionSpec s.cfg) := by
      rw [sessionSpecs_map, hroles, List.map_append, List.map_cons]
    have hapart := sessionSpecs_apart hp
    have hnone := specsError_session hn
    refine exec_sessionOpen_drawn (e := errOffsetBusy (cfgOffset s.cfg r)) hg ?_
    rw [hspecs] at hapart hnone ⊢
    exact lineAcquire_of_owned (sp := sessionSpec s.cfg r) _ hapart hnone hc (by rwa [List.length_map])
  · have hacq := sessionAcquire_ok hn hp hc ho
    refine ⟨fun hopen => ?_, fun hopen hd => ?_, fun hopen hd hbad => ?_⟩
    · exact exec_sessionOpen_transport (e := errInvalidState) hg hacq ⟨_, spiOpen_of_open _ _ _ _ hopen⟩
    · exact exec_sessionOpen_transport (e := errOpen) hg hacq (spiOpen_of_device _ _ _ _ hopen hd)
    · exact exec_sessionOpen_transport (e := errConfigure) hg hacq (sessionTransport_of_configure hopen hd hbad)

end Sys2Proof.Machine

/-! REFRESH on an e-paper panel and the streams of a TFT (spec/44_sequencer.md R234 to R239). Both streams are one run, of the
window commands and then the pieces of their chunks, and what is said of them is said of that run. -/

namespace Sys2Proof.Machine

open Sys2Proof

/-! ## REFRESH (R234) -/

/-- Settles O44. -/
theorem refreshCompletes : Obligations.RefreshCompletes := by
  intro s old new k hg hk ho hn hr hh hi hw hb ht
  obtain ⟨e, -, -, heq⟩ := refresh_ok hk ho hn hr hh hi hw hb ht
  have hx := exec_refresh hg
  rw [heq] at hx
  exact ⟨_, hx, rfl, rfl, rfl, rfl, rfl, rfl, rfl, rfl, rfl, rfl, rfl, rfl, rfl⟩

theorem exec_refresh_rejected {s : State} {old new : Framebuffer} {e : ErrRec} (hg : gateOpen (.refresh old new) s)
    (h : refresh old new s = .err e s) : exec (.refresh old new) s = .next (rejected s e) := by
  rw [exec_refresh hg, h, Res.map_err, conclude_err, deliver_self]

/-- Settles O45: the panel kind is checked before the frames, and the old frame before the new one. -/
theorem refreshRejects : Obligations.RefreshRejects := by
  intro s old new hg
  refine ⟨fun hk => ?_, fun hk ho => ?_, fun hk ho hn => ?_⟩
  · exact exec_refresh_rejected (e := errWrongPanelKind) hg (by simp [refresh, hk])
  · exact exec_refresh_rejected hg (by simp [refresh, hk, frameCheck_error ho])
  · exact exec_refresh_rejected hg (by simp [refresh, hk, frameCheck_iff.mpr ho, frameCheck_error hn])

/-- Settles O46: REFRESH gets as far as its busy-wait, which times out. -/
theorem refreshTimesOut : Obligations.RefreshTimesOut := by
  intro s old new n hg hk ho hn hr hh hi hw hex hf hn' hb
  obtain ⟨u, heq, hu, hbusy, -, -⟩ := refresh_to_wait hk ho hn hr hw
  have hcfg : u.cfg = s.cfg := by rw [hu]
  have hbuild : u.build = s.build := by rw [hu]
  have hheld : held u .busy :=
    (held_of_framerLines (by rw [hu]; exact framerLines_framedLines s.cfg s.cfg.dcCmdLevel s.lines) .busy).mpr hh
  obtain ⟨-, -, hwait⟩ := waitReady_timeout (s := u) (p := s.cfg.busyPolarity) (interval := s.cfg.pollInterval)
    (timeout := s.cfg.opTimeout) stageRefresh hheld hi (hbuild ▸ hex) (hbuild ▸ hf) hn' (hbusy ▸ hb)
  have hx := exec_refresh hg
  rw [heq, waitConfigured, hcfg, hwait, Res.bind_err, Res.map_err, conclude_err] at hx
  refine ⟨_, hx, ?_, ?_, rfl, rfl, rfl⟩
  · rw [deliver_phase, hu]
  · rw [deliver_poisoned, poisons_of_trace (es := cmdEvents s.cfg s.cfg.oldDataCmd old.bytes ++
      (cmdEvents s.cfg s.cfg.newDataCmd new.bytes ++ (commandEvents s.cfg s.cfg.refreshCmd ++
      (busyPolls (busyLevel s.cfg.busyPolarity) s.cfg.pollInterval n ++
        [.lineGet .busy (busyLevel s.cfg.busyPolarity)])))) (by rw [hu]; simp)]
    simp

/-! ## The pieces of a stream (R237) -/

theorem writeLimit_of_buildLegal {b : Build} (hb : buildLegal b = true) : ∀ m, b.maxWriteBytes = some m → 2 ≤ m ∧ m % 2 = 0 := by
  intro m hm
  simp only [buildLegal, hm, Bool.and_eq_true, decide_eq_true_eq] at hb
  exact hb.2

theorem chunkPixels_of_buildLegal {b : Build} (hb : buildLegal b = true) : 1 ≤ b.chunkPixels :=
  of_decide_eq_true (Bool.and_eq_true_iff.mp hb).1

/-- The pieces together are the chunks. -/
theorem pieces_flatten {b : Build} (hb : buildLegal b = true) (chunks : List (List Byte)) :
    (chunks.flatMap (splitPieces b.maxWriteBytes)).flatten = chunks.flatten := by
  induction chunks with
  | nil => rfl
  | cons ch rest ih =>
    rw [List.flatMap_cons, List.flatten_append, ih, (splitPieces_spec (writeLimit_of_buildLegal hb) ch).1,
      List.flatten_cons]

/-- Pieces of chunks of whole pixels hold whole pixels (R68). -/
theorem pieces_even {b : Build} (hb : buildLegal b = true) {chunks : List (List Byte)}
    (he : ∀ ch ∈ chunks, ch.length % 2 = 0) : ∀ p ∈ chunks.flatMap (splitPieces b.maxWriteBytes), p.length % 2 = 0 := by
  intro p hp
  obtain ⟨ch, hch, hp⟩ := List.mem_flatMap.mp hp
  exact (splitPieces_spec (writeLimit_of_buildLegal hb) ch).2.2 (he ch hch) p hp

theorem fillChunks_even {c : Nat} (p : U16) (count : Nat) (hc : 1 ≤ c) :
    ∀ ch ∈ fillChunks c p count, ch.length % 2 = 0 := by
  intro ch hch
  obtain ⟨k, -, -, rfl⟩ := fillChunks_mem hc hch
  rw [chunk_length, Nat.mul_mod_right]

/-! ## The run of a stream -/

/-- What is left of `n` pixels after pieces that together are all of them (R237). -/
theorem countdown_all {pieces : List (List Byte)} {n : Nat} (he : ∀ p ∈ pieces, p.length % 2 = 0)
    (hl : pieces.flatten.length = 2 * n) : pieces.foldl (fun n p => n - p.length / 2) n = 0 := by
  rw [pieces_countdown pieces n he, hl]
  omega

/-- The end of an operation that is a stream's run, every write answered Ok. -/
theorem streamRun_completes {i : Instr} {s : State} {win : Window} {chunks : Build → List (List Byte)}
    {pieces : List (List Byte)} {n : Nat}
    (hx : exec i s = .next (conclude s ((streamRun win chunks n s).map fun _ => .ok)))
    (hp : pieces = (chunks s.build).flatMap (splitPieces s.build.maxWriteBytes))
    (he : ∀ p ∈ pieces, p.length % 2 = 0) (hl : pieces.flatten.length = 2 * n) (hr : framerReady s)
    (hw : writesOk s (windowWrites s.cfg + pieces.length)) : ∃ env, exec i s = .next { s with
      phase := .initialized
      streamRemaining := 0
      lines := framedLines s.cfg (!s.cfg.dcCmdLevel) s.lines
      env := env
      trace := s.trace ++ windowEvents s.cfg win ++ streamEvents s.cfg pieces
      result := some .ok } := by
  obtain ⟨u, hu, hstate⟩ := stream_ok win chunks pieces n hr hp hw
  refine ⟨u.env, ?_⟩
  rw [hx, streamRun, hu, Res.map_ok, conclude_ok, hstate, countdown_all he hl]
  rfl

/-- The end of such an operation where the write after the pieces `sent` fails (R237, R314). -/
theorem streamRun_failed {i : Instr} {s : State} {win : Window} {chunks : Build → List (List Byte)}
    {sent rest : List (List Byte)} {piece : List Byte} {n k : Nat} {ws : List WriteAnswer}
    (hx : exec i s = .next (conclude s ((streamRun win chunks n s).map fun _ => .ok)))
    (hp : (chunks s.build).flatMap (splitPieces s.build.maxWriteBytes) = sent ++ piece :: rest)
    (he : ∀ p ∈ sent ++ piece :: rest, p.length % 2 = 0) (hr : framerReady s) (hk : k < piece.length)
    (hw : s.env.writes = List.replicate (windowWrites s.cfg + sent.length) .ok ++ .fail k :: ws) :
    exec i s = .next (streamFailed s win n sent piece k ws) := by
  have hleft := pieces_countdown sent n fun p hp => he p (List.mem_append_left _ hp)
  have hne : windowEvents s.cfg win ++ failedStreamEvents s.cfg sent (piece.take k) ≠ [] := by simp [failedStreamEvents]
  rw [hx, streamRun, stream_fail win chunks sent rest piece n k ws hr hp hk hw, Res.map_err, conclude_err,
    deliver_of_trace _ (List.append_assoc ..) hne, hleft]
  simp [streamFailed, errShortWrite, errOf, kindCode]

/-- The end of such an operation where a window command fails (R235, R278). -/
theorem streamRun_window_failed {i : Instr} {s u : State} {win : Window} {chunks : Build → List (List Byte)} {n : Nat}
    {e : ErrRec} (hx : exec i s = .next (conclude s ((streamRun win chunks n s).map fun _ => .ok)))
    (hu : windowSet win { s with phase := .streaming } = .err e u) :
    ∃ t, exec i s = .next t ∧ t.result = some (.error e) ∧ t.phase = .streaming ∧
      t.streamRemaining = s.streamRemaining ∧ t.lines = u.lines ∧ t.trace = u.trace ++ [.error e] ∧
      (u.trace ≠ s.trace → t.poisoned = true) := by
  have hrun : streamRun win chunks n s = .err e u := by
    rw [streamRun]
    exact Res.bind_eq_err.mpr (.inl hu)
  have hpos := position_actions.windowSet win { s with phase := .streaming }
  have hkept := kept_actions.windowSet win { s with phase := .streaming }
  rw [hu, Res.state_err] at hpos hkept
  obtain ⟨hphase, -, hrem⟩ := hpos
  obtain ⟨-, -, -, -, -, -, es, hes, -⟩ := hkept
  rw [hrun, Res.map_err, conclude_err] at hx
  refine ⟨_, hx, rfl, hphase, hrem, rfl, rfl, fun hne => ?_⟩
  have hes' : es ≠ [] := by
    rintro rfl
    exact hne (by simpa using hes)
  rw [deliver_of_trace (s := s) e hes hes']

/-! ## STREAM_PIXELS and STREAM_FILL (R238, R239) -/

theorem exec_streamPixels_run {s : State} {win : Window} {pixels : List Byte} (hg : gateOpen (.streamPixels win pixels) s)
    (hk : s.cfg.panelKind = .tft) (hv : windowValid win s.cfg.panelWidth s.cfg.panelHeight = true)
    (hl : pixels.length = 2 * windowCount win) : exec (.streamPixels win pixels) s =
      .next (conclude s ((streamRun win (fun _ => [pixels]) (windowCount win) s).map fun _ => .ok)) := by
  have hrun : streamPixels win pixels s = streamRun win (fun _ => [pixels]) (windowCount win) s := by
    simp [streamPixels, hk, windowCheck, hv, hl, streamRun]
  rw [exec_streamPixels hg, hrun]

theorem exec_streamFill_run {s : State} {win : Window} {color : U16} (hg : gateOpen (.streamFill win color) s)
    (hk : s.cfg.panelKind = .tft) (hv : windowValid win s.cfg.panelWidth s.cfg.panelHeight = true) :
    exec (.streamFill win color) s = .next (conclude s ((streamRun win
      (fun b => fillChunks b.chunkPixels color (windowCount win)) (windowCount win) s).map fun _ => .ok)) := by
  have hrun : streamFill win color s =
      streamRun win (fun b => fillChunks b.chunkPixels color (windowCount win)) (windowCount win) s := by
    simp [streamFill, hk, windowCheck, hv, streamRun]
  rw [exec_streamFill hg, hrun]

/-- Settles O47: the run of one chunk, which is the pixels. -/
theorem streamPixelsCompletes : Obligations.StreamPixelsCompletes := by
  intro s win pixels pieces hg hk hb hv hl hp
  have hx := exec_streamPixels_run hg hk hv hl
  have hp' : pieces = [pixels].flatMap (splitPieces s.build.maxWriteBytes) := by simpa using hp
  have heven : ∀ p ∈ pieces, p.length % 2 = 0 := by
    rw [hp']
    exact pieces_even hb (by simp [hl])
  have hflat : pieces.flatten = pixels := by
    rw [hp', pieces_flatten hb]
    simp
  refine ⟨fun hr hw => ?_, fun sent rest piece k ws hr hsplit hkl hw => ?_, fun e u => streamRun_window_failed hx⟩
  · obtain ⟨env, henv⟩ := streamRun_completes hx hp' heven (by rw [hflat, hl]) hr hw
    refine ⟨_, henv, rfl, rfl, rfl, hflat, fun m hm p hpm => ?_, rfl, rfl, rfl, rfl, rfl, rfl, rfl, rfl, rfl, rfl⟩
    rw [hp] at hpm
    exact (splitPieces_spec (writeLimit_of_buildLegal hb) pixels).2.1 m hm p hpm
  · exact streamRun_failed (rest := rest) hx (hp'.symm.trans hsplit) (hsplit ▸ heven) hr hkl hw

/-- Settles O48: the run of the fill's chunks. -/
theorem streamFillCompletes : Obligations.StreamFillCompletes := by
  intro s win color pieces hg hk hb hv hp
  have hx := exec_streamFill_run (color := color) hg hk hv
  have hc := chunkPixels_of_buildLegal hb
  have heven : ∀ p ∈ pieces, p.length % 2 = 0 := by
    rw [hp]
    exact pieces_even hb (fillChunks_even color _ hc)
  have hflat : pieces.flatten = chunk (windowCount win) color := by
    rw [hp, pieces_flatten hb, fillChunks_flatten color _ hc]
  refine ⟨fun hr hw => ?_, fun sent rest piece k ws hr hsplit hkl hw => ?_, fun e u => streamRun_window_failed hx⟩
  · obtain ⟨env, henv⟩ := streamRun_completes hx hp heven (by rw [hflat, chunk_length]) hr hw
    exact ⟨_, henv, rfl, rfl, rfl, hflat, rfl, rfl, rfl, rfl, rfl, rfl, rfl, rfl, rfl, rfl⟩
  · exact streamRun_failed (rest := rest) hx (hp.symm.trans hsplit) (hsplit ▸ heven) hr hkl hw

/-- Settles O50: the panel kind, then the window, then the length (R280). -/
theorem streamRejects : Obligations.StreamRejects := by
  intro s win pixels color hg
  have hgp : gateOpen (.streamPixels win pixels) s := hg
  have rejectPixels {e : ErrRec} (h : streamPixels win pixels s = .err e s) :
      exec (.streamPixels win pixels) s = .next (rejected s e) := by
    rw [exec_streamPixels hgp, h, Res.map_err, conclude_err, deliver_self]
  have rejectFill {e : ErrRec} (h : streamFill win color s = .err e s) :
      exec (.streamFill win color) s = .next (rejected s e) := by
    rw [exec_streamFill hg, h, Res.map_err, conclude_err, deliver_self]
  refine ⟨fun hk => ⟨?_, ?_⟩, fun hk hv => ⟨?_, ?_⟩, fun hk hv hl => ?_⟩
  · exact rejectPixels (e := errWrongPanelKind) (by simp [streamPixels, hk])
  · exact rejectFill (e := errWrongPanelKind) (by simp [streamFill, hk])
  · exact rejectPixels (e := errWindowOutOfBounds) (by simp [streamPixels, hk, windowCheck, hv])
  · exact rejectFill (e := errWindowOutOfBounds) (by simp [streamFill, hk, windowCheck, hv])
  · exact rejectPixels (e := errSizeMismatch) (by simp [streamPixels, hk, windowCheck, hv, hl])

/-! ## What the panel sees of a stream (R36, R201) -/

theorem panelView_append (a b : List Event) : panelView (a ++ b) = panelView a ++ panelView b := List.flatMap_append

/-- Pieces look like their bytes. -/
theorem panelView_pieces (pieces : List (List Byte)) :
    panelView (pieces.map fun p => .spiWrite p true) = pieces.flatten.map .byte := by
  induction pieces with
  | nil => rfl
  | cons p rest ih =>
    rw [List.map_cons, List.flatten_cons, List.map_append, ← ih]
    rfl

/-- Streams of the same bytes look the same, however they are split. -/
theorem panelView_streamEvents {c : Cfg} {p q : List (List Byte)} (h : p.flatten = q.flatten) :
    panelView (streamEvents c p) = panelView (streamEvents c q) := by
  simp only [streamEvents, panelView_append, panelView_pieces, h]

/-- What a stream's run that succeeded appended, whatever was drawn. -/
theorem streamRun_trace {win : Window} {chunks : Build → List (List Byte)} {n : Nat} {s t : State}
    (h : streamRun win chunks n s = .ok () t) : t.trace = s.trace ++ (windowEvents s.cfg win ++
      streamEvents s.cfg ((chunks s.build).flatMap (splitPieces s.build.maxWriteBytes))) := by
  simp only [streamRun, Res.bind_eq_ok, Res.ok.injEq, true_and] at h
  obtain ⟨_, u, hu, _, v, hv, rfl⟩ := h
  obtain ⟨hut, huc, hub⟩ := windowSet_trace hu
  obtain ⟨hvt, -⟩ := streamBody_trace hv
  rw [huc, hub] at hvt
  rw [State.setPhase_trace, hvt, hut]
  simp

/-- A stream that returned Ok passed its validation. -/
theorem run_of_not_rejects {s u : State} {r q : Res Unit} (h : rejects s r ∨ r = q)
    (hr : (r.map fun _ => Result.ok) = .ok .ok u) : q = .ok () u := by
  obtain ⟨_, hr, -⟩ := Res.map_eq_ok.mp hr
  rcases h with ⟨e, -, he⟩ | he
  · rw [hr] at he
    cases he
  · rw [← he, hr]

/-- Settles O49: the two runs have the same window commands, and pieces of the same bytes. -/
theorem fillLooksLikePixels : Obligations.FillLooksLikePixels := by
  intro s t u win color pixels hb hfill ht hpixels hstream hu
  obtain ⟨t', hft, rfl⟩ := form_ok_of_exec hfill ht
  obtain ⟨u', hfu, rfl⟩ := form_ok_of_exec hstream hu
  have htt := streamRun_trace (run_of_not_rejects (streamFill_cases win color s) hft)
  have hut := streamRun_trace (run_of_not_rejects (streamPixels_cases win pixels s) hfu)
  have hbytes : pixels = chunk (windowCount win) color := hpixels
  rw [appended_of_trace (s := s) (t := t'.setResult .ok) htt, appended_of_trace (s := s) (t := u'.setResult .ok) hut,
    panelView_append, panelView_append]
  refine congrArg _ (panelView_streamEvents ?_)
  rw [pieces_flatten hb, pieces_flatten hb, fillChunks_flatten color _ (chunkPixels_of_buildLegal hb), hbytes]
  simp

end Sys2Proof.Machine

/-! SLEEP (spec/44_sequencer.md R240) and the end-to-end law of an e-paper session (R243): each of the four operations hands the
next one a session that is ready, and the draws that are left. -/

namespace Sys2Proof.Machine

open Sys2Proof

/-! ## SLEEP (R240) -/

/-- Settles O51. -/
theorem sleepCompletes : Obligations.SleepCompletes := by
  intro s k hg hr hw hb
  obtain ⟨u, hu, hstate⟩ := sleep_ok hr hw hb
  have hx := exec_sleep hg
  rw [hu, hstate] at hx
  exact ⟨_, hx, rfl, rfl, rfl, rfl, rfl, rfl, rfl, rfl, rfl, rfl, rfl, rfl, rfl⟩

/-! ## The session between two operations (R243) -/

/-- The session of `c` and `b` between two of its operations: in phase `p`, all its lines as the operations need them. -/
structure SessionAt (c : Cfg) (b : Build) (p : Phase) (s : State) : Prop where
  cfg : s.cfg = c
  build : s.build = b
  poisoned : s.poisoned = false
  phase : s.phase = p
  ready : framerReady s
  busy : held s .busy

theorem SessionAt.gateOpen {c : Cfg} {b : Build} {p : Phase} {s : State} {i : Instr} (h : SessionAt c b p s)
    (ha : admission i p = true) : gateOpen i s := ⟨h.poisoned, h.phase ▸ ha⟩

/-- The session after an operation that moved no line but CS and DC, and those in level only. -/
theorem SessionAt.of_framerLines {c : Cfg} {b : Build} {p q : Phase} {s t : State} (h : SessionAt c b p s)
    (hl : framerLines s.lines t.lines) (htr : t.transport = s.transport) (hc : t.cfg = s.cfg) (hb : t.build = s.build)
    (hp : t.poisoned = s.poisoned) (hq : t.phase = q) : SessionAt c b q t where
  cfg := hc.trans h.cfg
  build := hb.trans h.build
  poisoned := hp.trans h.poisoned
  phase := hq
  ready := framerReady_of_framerLines h.ready hl htr hc
  busy := (held_of_framerLines hl .busy).mpr h.busy

/-- What is left of a list that begins with two parts, once the first is used up. -/
theorem isPrefix_drop {α : Type} {a b l : List α} (h : a ++ b <+: l) : b <+: l.drop a.length := by
  obtain ⟨t, rfl⟩ := h
  rw [List.append_assoc, List.drop_left]
  exact List.prefix_append ..

/-- The conditions of R34 that a session of an e-paper panel needs. -/
theorem ePaper_of_cfgLegal {c : Cfg} (hl : cfgLegal c = true) (hk : c.panelKind = .ePaper) :
    c.busyPresent = true ∧ (c.csMode ≠ .none → c.csPresent = true) ∧ 1 ≤ c.pollInterval ∧ 1 ≤ c.spiClockHz ∧
      c.spiMode ≤ 3 ∧ c.spiBitsPerWord = 8 ∧ c.deepSleepParams.length = 1 := by
  obtain ⟨-, -, -, -, -, -, hbusy, hcs, hint, hclock, hmode, hbits, -, -, hdeep⟩ := (legalConfigurations c).mp hl
  refine ⟨hbusy.mpr hk, fun hm => ?_, hint, hclock, hmode, hbits, hdeep hk⟩
  cases h : c.csPresent with
  | true => rfl
  | false => exact absurd (hcs h) hm

/-- Every line of the session is held after SESSION_OPEN (R304). -/
theorem held_of_openedLines {c : Cfg} {l : Lines} {t : State} (ht : t.lines = openedLines c l) {r : Role}
    (hr : rolePresent c r = true) : held t r := by
  have hline : t.line r = _ := (congrArg (Lines.get · r) ht).trans (openedLines_get c l (mem_sessionRoles.mpr hr))
  unfold held
  rw [hline]
  exact ⟨rfl, rfl⟩

/-! ## The four operations -/

/-- SESSION_OPEN on a block just created (R232). -/
theorem exec_sessionOpen_created {c : Cfg} {b : Build} {env : Env} {chips owned ds as : List Bool}
    (hk : c.panelKind = .ePaper) (hl : cfgLegal c = true)
    (hp : (sessionRoles c).Pairwise (fun x y => cfgOffset c x ≠ cfgOffset c y)) (hc : env.chipOpens = true :: chips)
    (ho : env.offsetOwned = List.replicate (sessionRoles c).length false ++ owned)
    (hd : env.deviceOpens = true :: ds) (ha : env.deviceAccepts = true :: as) :
    ∃ t, exec .sessionOpen { State.created c b with env := env } = .next t ∧ t.result = some .ok ∧
      SessionAt c b .reset t ∧ t.env.writes = env.writes ∧ t.env.busy = env.busy ∧ t.trace = sessionEvents c := by
  obtain ⟨hbusy, hcs, -, hclock, hmode, hbits, -⟩ := ePaper_of_cfgLegal hl hk
  have hn : ∀ r ∈ sessionRoles c, ((State.created c b).line r).acquired = false := fun r _ => by
    rw [created_line]
    rfl
  obtain ⟨u, hu, hwrites, hbusies, hstate⟩ := sessionOpen_ok (s := { State.created c b with env := env }) hn hp rfl
    hmode hbits hclock hc ho hd ha
  have hx := exec_sessionOpen (s := { State.created c b with env := env }) ⟨rfl, rfl⟩
  rw [hu, hstate] at hx
  exact ⟨_, hx, rfl, ⟨rfl, rfl, rfl, rfl, ⟨rfl, held_of_openedLines rfl rfl, fun hm => held_of_openedLines rfl (hcs hm)⟩,
    held_of_openedLines rfl hbusy⟩, hwrites, hbusies, rfl⟩

/-- INITIALIZE of a table whose entries all run to their end (R233). -/
theorem exec_initialize_session {c : Cfg} {b : Build} {s : State} (h : SessionAt c b .reset s) (hint : 1 ≤ c.pollInterval)
    (runs : List (Entry × Nat)) (htable : runs.map Prod.fst = c.initTable)
    (hruns : ∀ r ∈ runs, entryWellFormed r.1 = true ∧ (r.1.busyWait = true → waitInTime b c.pollInterval c.opTimeout r.2))
    (hw : writesOk s ((runs.map (entryWrites c)).sum)) (hb : runs.flatMap (entryBusy c) <+: s.env.busy) :
    ∃ t, exec .initializePanel s = .next t ∧ t.result = some .ok ∧ SessionAt c b .initialized t ∧
      t.env.writes = s.env.writes.drop ((runs.map (entryWrites c)).sum) ∧
      t.env.busy = s.env.busy.drop (runs.flatMap (entryBusy c)).length ∧
      t.trace = s.trace ++ runs.flatMap (entryEvents c b) := by
  obtain ⟨rfl, rfl, -, -, hready, hheld⟩ := id h
  obtain ⟨e, n, l, hl, hwrites, hbusy, heq⟩ := applyTable_ok runs s (fun _ => hready)
    (fun r hr => ⟨(hruns r hr).1, fun hbw => ⟨hheld, hint, (hruns r hr).2 hbw⟩⟩) hw hb
  have hx := exec_initializePanel (h.gateOpen rfl)
  rw [initializePanel, ← htable, heq] at hx
  exact ⟨_, hx, rfl, h.of_framerLines hl rfl rfl rfl rfl rfl, hwrites, hbusy, rfl⟩

/-- REFRESH of two frames that fit (R234). -/
theorem exec_refresh_session {c : Cfg} {b : Build} {s : State} {old new : Framebuffer} {k : Nat}
    (h : SessionAt c b .initialized s) (hk : c.panelKind = .ePaper) (hint : 1 ≤ c.pollInterval)
    (ho : frameFits c old) (hn : frameFits c new) (ht : waitInTime b c.pollInterval c.opTimeout k)
    (hw : writesOk s (cmdWrites c old.bytes + cmdWrites c new.bytes + 1))
    (hb : busyAnswers (busyLevel c.busyPolarity) k <+: s.env.busy) :
    ∃ t, exec (.refresh old new) s = .next t ∧ t.result = some .ok ∧ SessionAt c b .initialized t ∧
      t.env.writes = s.env.writes.drop (cmdWrites c old.bytes + cmdWrites c new.bytes + 1) ∧
      t.env.busy = s.env.busy.drop (k + 1) ∧
      t.trace = s.trace ++ cmdEvents c c.oldDataCmd old.bytes ++ cmdEvents c c.newDataCmd new.bytes ++
        commandEvents c c.refreshCmd ++ waitEvents b (busyLevel c.busyPolarity) c.pollInterval k := by
  obtain ⟨rfl, rfl, -, -, hready, hheld⟩ := id h
  obtain ⟨e, hwrites, hbusy, heq⟩ := refresh_ok hk ho hn hready hheld hint hw hb ht
  have hx := exec_refresh (old := old) (new := new) (h.gateOpen rfl)
  rw [heq] at hx
  exact ⟨_, hx, rfl, h.of_framerLines (framerLines_framedLines ..) rfl rfl rfl rfl rfl, hwrites, hbusy, rfl⟩

/-- SLEEP on a panel with a busy line (R240). -/
theorem exec_sleep_session {c : Cfg} {b : Build} {s : State} {k : Nat} (h : SessionAt c b .initialized s)
    (hp : c.busyPresent = true) (hint : 1 ≤ c.pollInterval) (ht : waitInTime b c.pollInterval c.opTimeout k)
    (hw : writesOk s (1 + cmdWrites c c.deepSleepParams)) (hb : busyAnswers (busyLevel c.busyPolarity) k <+: s.env.busy) :
    ∃ t, exec .sleep s = .next t ∧ t.result = some .ok ∧ t.phase = .sleeping ∧
      t.trace = s.trace ++ commandEvents c c.powerOffCmd ++ waitEvents b (busyLevel c.busyPolarity) c.pollInterval k ++
        cmdEvents c c.deepSleepCmd c.deepSleepParams := by
  obtain ⟨rfl, rfl, -, -, hready, hheld⟩ := id h
  obtain ⟨t, hx, hok, hphase, htrace, -⟩ := sleepCompletes s k (h.gateOpen rfl) hready hw fun _ => ⟨hheld, hint, hb, ht⟩
  rw [if_pos hp] at htrace
  exact ⟨t, hx, hok, hphase, htrace⟩

/-! ## The end-to-end law -/

/-- Settles O60: the four operations one after the other, each taking its part of the writes and of the busy answers. -/
theorem endToEndSession : Obligations.EndToEndSession := by
  intro c b s runs old new k₁ k₂ chips owned ds as hk hcreate hp htable hruns ho hn ht₁ ht₂ hc hown hd ha hw hb
  obtain ⟨hl, -, hcreated⟩ := create_eq_some hcreate
  have hs : s = { State.created c b with env := s.env } := by rw [← hcreated]
  obtain ⟨hbusy, -, hint, -, -, -, hdeep⟩ := ePaper_of_cfgLegal hl hk
  rw [List.append_assoc] at hb
  rw [Nat.add_assoc] at hw
  obtain ⟨s₁, hx₁, hr₁, h₁, hw₁, hb₁, htr₁⟩ := exec_sessionOpen_created (b := b) hk hl hp hc hown hd ha
  rw [← hs] at hx₁
  have hw1 : writesOk s₁ _ := writesOk_drop (m := 0) (by rwa [Nat.zero_add]) hw₁
  obtain ⟨s₂, hx₂, hr₂, h₂, hw₂, hb₂, htr₂⟩ := exec_initialize_session h₁ hint runs htable hruns
    (writesOk_le hw1 (Nat.le_add_right ..)) (hb₁ ▸ (List.prefix_append ..).trans hb)
  have hw2 : writesOk s₂ _ := writesOk_drop hw1 hw₂
  have hb2 : _ <+: s₂.env.busy := hb₂ ▸ hb₁ ▸ isPrefix_drop hb
  obtain ⟨s₃, hx₃, hr₃, h₃, hw₃, hb₃, htr₃⟩ := exec_refresh_session h₂ hk hint ho hn ht₁
    (writesOk_le hw2 (Nat.le_add_right ..)) ((List.prefix_append ..).trans hb2)
  have hw3 : writesOk s₃ _ := writesOk_drop hw2 hw₃
  have hb3 : busyAnswers (busyLevel c.busyPolarity) k₂ <+: s₃.env.busy := by
    rw [hb₃]
    simpa [busyAnswers] using isPrefix_drop hb2
  obtain ⟨t, hx, hr, hphase, htr⟩ := exec_sleep_session h₃ hbusy hint ht₂ hw3 hb3
  refine ⟨t, ?_, hphase, hdeep, ?_⟩
  · simp only [runOps_cons_eq_some]
    exact ⟨s₁, hx₁, hr₁, s₂, hx₂, hr₂, s₃, hx₃, hr₃, t, hx, hr, rfl⟩
  · rw [htr, htr₃, htr₂, htr₁]

end Sys2Proof.Machine
